-- ==== Sys2Proof/Word.lean ====
section
/-! DEFINITION. The data the block's operations carry: bytes, payload handles, frame records, agents,
result codes, the six framing states, a port transaction and the moves the agents make. -/

namespace Sys2Proof

/-- An 8-bit unsigned value (R12, R20). -/
abbrev Byte := BitVec 8

/-- A payload allocation. The spec's `Handle` is an abstract type with decidable equality (R20); a natural number
is one such type (DESIGN CHOICE, log 14). -/
abbrev Handle := Nat

/-- The pair `(h, bytes)` of a frame record that carries a payload (R34). -/
structure Payload where
  handle : Handle
  bytes : List Byte
  deriving DecidableEq, Repr, Inhabited

/-- A frame record (R34). `payload` is `none` for the spec's `NoValue`. -/
structure FrameRec where
  version : Byte
  title : Byte
  length : Byte
  payload : Option Payload
  deriving DecidableEq, Repr, Inhabited

/-- The record of zeros: the operand that stands beside a command that reads none (R82). -/
def FrameRec.zero : FrameRec := { version := 0, title := 0, length := 0, payload := none }

/-- The allocation a record holds, if it holds one. -/
def FrameRec.handle? (fr : FrameRec) : Option Handle := fr.payload.map Payload.handle

/-- The agents of R40. -/
inductive Agent where
  | fr | fc | pc | sn | host
  deriving DecidableEq, Repr, Inhabited

/-- The result codes of R84. -/
inductive ResultCode where
  | ok | empty | full
  deriving DecidableEq, Repr, Inhabited

/-- The data value of a response (R83): a count, a byte or a frame record. -/
inductive Datum where
  | count (n : Nat)
  | byte (b : Byte)
  | frame (fr : FrameRec)
  deriving DecidableEq, Repr, Inhabited

/-- What an operation returns to the agent that issued it (R83): a code, and a data value when the code is `ok`. -/
structure Response where
  agent : Agent
  code : ResultCode
  data : Option Datum
  deriving DecidableEq, Repr, Inhabited

/-- The framing states of R21 in the order of their codes (R75). The last two are the unused codes 110 and 111,
which no rule writes and on which a call raises BadState (R85). -/
inductive FsmState where
  | preambleWait | versionWait | titleWait | lengthWait | messageWait | endWait | unused6 | unused7
  deriving DecidableEq, Repr, Inhabited

/-- Whether a PROCESS_BYTE call is still replaying (R31). -/
inductive Phase where
  | idle
  | replay (i : Nat)
  deriving DecidableEq, Repr, Inhabited

/-- The reasons of the fault catalogue (R178). -/
inductive FaultReason where
  | readUnwritten | scratchOverflow | badState | doubleRelease | releaseNotOwned
  deriving DecidableEq, Repr, Inhabited

/-- The reasons an operation is refused (R179), and the refused runtime reset of R191. -/
inductive RefuseReason where
  | reservedCommand | notConsumer | reentrant | sendOperand | runtimeReset
  deriving DecidableEq, Repr, Inhabited

/-- The host's answer to an allocation draw (R129): `ok(h)` or `fail`. -/
inductive AllocDraw where
  | ok (h : Handle)
  | fail
  deriving DecidableEq, Repr, Inhabited

/-- One transaction on the operation port: the issuing agent (R80), the command byte, and the operand record that
travels beside it (R79, R82). -/
structure Txn where
  agent : Agent
  cmd : Byte
  operand : FrameRec
  deriving DecidableEq, Repr, Inhabited

/-- One move of one agent (R40, R87 to R89). -/
inductive Move where
  /-- An agent issues a command on the operation port. -/
  | issue (t : Txn)
  /-- FR takes a replay step (R140). -/
  | replay
  /-- HOST appends a byte to `rx` (R37). -/
  | rx (b : Byte)
  /-- HOST removes the front byte of `tx` (R38). -/
  | takeTx
  /-- HOST fixes the answer of the next allocation draw (R89). -/
  | alloc (d : AllocDraw)
  /-- HOST asserts a reset input the block does not have (R191). -/
  | reset
  deriving DecidableEq, Repr, Inhabited

end Sys2Proof
end

