-- ==== Sys2Proof/Config.lean ====
section
/-! DEFINITION. What is fixed for the machine: the constants of R10, the sizes State.reset takes, and the free
values, which have no body. -/

namespace Sys2Proof.Config

/-- First byte of every frame (R10). -/
def preamble : Byte := 0x0D

/-- The only accepted version byte (R10). -/
def version : Byte := 0x01

/-- Last byte of every frame (R10). -/
def terminator : Byte := 0x1E

/-- Exclusive upper bound of the length byte (R10). -/
def maxLength : Nat := 50

/-- Largest raw frame (R10). -/
def maxRaw : Nat := 54

/-- Number of payload cells, `pbuf[0..MAX_LENGTH-2]` (R20). -/
def pbufCap : Nat := 49

/-- `P_CAP` of State.reset. DESIGN CHOICE (log 1): the spec leaves it open (R11); no statement about a step uses it. -/
def pCap : Nat := 8

/-- `F_CAP` of State.reset. DESIGN CHOICE (log 1): the spec leaves it open (R11); no statement about a step uses it. -/
def fCap : Nat := 2

/-- `S_CAP` of State.reset: the spec's own value (R11). -/
def sCap : Nat := 54

/-- FREE VALUE (log 3): the host's answer to the n-th free draw, under no law (R16, R129). -/
opaque allocDraw : Nat → AllocDraw

/-- FREE VALUE (log 2): the move made next when the schedule names none, under no law (R61). -/
opaque freeMove : Nat → Move

end Sys2Proof.Config
end

