-- ==== Sys2Proof/Syntax.lean ====
section
/-! DEFINITION. The instructions: one constructor per row of spec/opcode_table.json, in the table's order. -/

namespace Sys2Proof

/-- The seven port operations and the reserved commands (R80, R81), the fourteen rows of the dispatch table (R74),
and the two internal steps (R140, R141). A port operation carries the issuing agent where its rule reads it, and its
operand record (R82). A row whose byte is not fixed carries the byte. -/
inductive Instr where
  | processByte
  | frameAvailable (a : Agent)
  | dequeueFrame (a : Agent)
  | passthroughAvailable (a : Agent)
  | readPassthrough (a : Agent)
  | sendFrame (fr : FrameRec)
  | release (fr : FrameRec)
  | reserved (cmd : Byte)
  | preStart
  | prePass (b : Byte)
  | verOk
  | verBad (b : Byte)
  | title (b : Byte)
  | lenZero
  | lenAlloc (b : Byte)
  | lenNomem (b : Byte)
  | lenBad (b : Byte)
  | msgByte (b : Byte)
  | msgLast (b : Byte)
  | endOk
  | endFull
  | endBad (b : Byte)
  | replay
  | finish
  deriving DecidableEq, Repr, Inhabited

end Sys2Proof
end

