-- ==== Sys2Proof/WellFormed.lean ====
section
/-! DEFINITION. Which terms of Instr are instructions: the byte of a dispatch row lies in the row's range (R74), and
a reserved command is one of R81. -/

namespace Sys2Proof

/-- A command byte that spells no operation: `cmd[2:0] = 111`, or any of `cmd[7:3]` non-zero (R81). -/
def reservedCmd (cmd : Byte) : Bool :=
  cmd.extractLsb' 0 3 == 7#3 || cmd.extractLsb' 3 5 != 0#5

/-- The length class `1..49` of R72. -/
def payloadLength (b : Byte) : Bool := decide (1 ≤ b.toNat ∧ b.toNat < Config.maxLength)

/-- The well-formed instructions. Every agent and every frame record may stand on the port (R82); what a record's
disagreement with its length does is the operation's business (R162). -/
def Instr.wellFormed : Instr → Bool
  | .processByte => true
  | .frameAvailable _ => true
  | .dequeueFrame _ => true
  | .passthroughAvailable _ => true
  | .readPassthrough _ => true
  | .sendFrame _ => true
  | .release _ => true
  | .reserved cmd => reservedCmd cmd
  | .preStart => true
  | .prePass b => decide (b ≠ Config.preamble)
  | .verOk => true
  | .verBad b => decide (b ≠ Config.version)
  | .title _ => true
  | .lenZero => true
  | .lenAlloc b => payloadLength b
  | .lenNomem b => payloadLength b
  | .lenBad b => decide (Config.maxLength ≤ b.toNat)
  | .msgByte _ => true
  | .msgLast _ => true
  | .endOk => true
  | .endFull => true
  | .endBad b => decide (b ≠ Config.terminator)
  | .replay => true
  | .finish => true

/-- A well-formed frame record (R34). -/
def FrameRec.wellFormed (fr : FrameRec) : Bool :=
  decide (fr.version = Config.version) && decide (fr.length.toNat < Config.maxLength) &&
    match fr.payload with
    | none => decide (fr.length = 0)
    | some p => decide (0 < fr.length.toNat ∧ p.bytes.length = fr.length.toNat)

end Sys2Proof
end

