-- ==== Sys2Proof/Decode.lean ====
section
/-! DEFINITION. The two encodings of spec/30_encoding.md: the command byte of the operation port (R79 to R82) and the
dispatch word (R74 to R76), each decoded and encoded; the state and result codes (R75, R84). -/

namespace Sys2Proof

/-- Why a word decodes to no instruction. -/
inductive DecodeError where
  /-- `w[10:8]` is 110 or 111, a code no state has (R85). -/
  | unusedStateCode
  /-- MessageWait with `rem = 0`, a register value that cannot occur (R76) and that no row of R74 covers. -/
  | noRow
  /-- A word of more than 11 bits. -/
  | wideWord
  /-- An internal step, which no word spells (R140, R141). -/
  | noEncoding
  deriving DecidableEq, Repr, Inhabited

/-- The registers the `cond` column of R74 tests. -/
structure RowCond where
  /-- The allocation draw answers `ok`. -/
  allocOk : Bool
  /-- The remaining counter. -/
  rem : Nat
  /-- `F.fill < F_CAP`. -/
  room : Bool
  deriving DecidableEq, Repr, Inhabited

/-! ### Codes -/

/-- The 3-bit state codes (R75). -/
def FsmState.code : FsmState → BitVec 3
  | .preambleWait => 0#3
  | .versionWait => 1#3
  | .titleWait => 2#3
  | .lengthWait => 3#3
  | .messageWait => 4#3
  | .endWait => 5#3
  | .unused6 => 6#3
  | .unused7 => 7#3

/-- The state a 3-bit code names (R75). -/
def FsmState.ofCode (c : BitVec 3) : FsmState :=
  if c = 0#3 then .preambleWait
  else if c = 1#3 then .versionWait
  else if c = 2#3 then .titleWait
  else if c = 3#3 then .lengthWait
  else if c = 4#3 then .messageWait
  else if c = 5#3 then .endWait
  else if c = 6#3 then .unused6
  else .unused7

/-- The 2-bit result codes (R84). -/
def ResultCode.code : ResultCode → BitVec 2
  | .ok => 0#2
  | .empty => 1#2
  | .full => 2#2

/-! ### The operation port -/

/-- Decode a port transaction (R80, R81): the operation of `cmd[2:0]` when `cmd[7:3]` is zero, else reserved. -/
def decodeTxn (t : Txn) : Instr :=
  if t.cmd.extractLsb' 3 5 ≠ 0#5 then .reserved t.cmd
  else if t.cmd.extractLsb' 0 3 = 0#3 then .processByte
  else if t.cmd.extractLsb' 0 3 = 1#3 then .frameAvailable t.agent
  else if t.cmd.extractLsb' 0 3 = 2#3 then .dequeueFrame t.agent
  else if t.cmd.extractLsb' 0 3 = 3#3 then .passthroughAvailable t.agent
  else if t.cmd.extractLsb' 0 3 = 4#3 then .readPassthrough t.agent
  else if t.cmd.extractLsb' 0 3 = 5#3 then .sendFrame t.operand
  else if t.cmd.extractLsb' 0 3 = 6#3 then .release t.operand
  else .reserved t.cmd

/-- The agent R80 names for a command. Where the row names an owner or nothing, FC stands for it. -/
def issuingAgent (cmd : Byte) : Agent :=
  if cmd = 0x00 then .fr
  else if cmd = 0x03 then .pc
  else if cmd = 0x04 then .pc
  else if cmd = 0x05 then .sn
  else .fc

/-! ### The dispatch word -/

/-- The dispatch word `w = {state[2:0], b[7:0]}` (R74). -/
def dispatchWord (st : FsmState) (b : Byte) : BitVec 11 := st.code ++ b

/-- The row that a state, a byte and the tested registers select, in the priority of R76. -/
def decodeRow (st : FsmState) (b : Byte) (c : RowCond) : Except DecodeError Instr :=
  match st with
  | .preambleWait => if b = Config.preamble then .ok .preStart else .ok (.prePass b)
  | .versionWait => if b = Config.version then .ok .verOk else .ok (.verBad b)
  | .titleWait => .ok (.title b)
  | .lengthWait =>
    if b = 0 then .ok .lenZero
    else if b.toNat < Config.maxLength then
      if c.allocOk then .ok (.lenAlloc b) else .ok (.lenNomem b)
    else .ok (.lenBad b)
  | .messageWait =>
    if 2 ≤ c.rem then .ok (.msgByte b)
    else if c.rem = 1 then .ok (.msgLast b)
    else .error .noRow
  | .endWait =>
    if b = Config.terminator then
      if c.room then .ok .endOk else .ok .endFull
    else .ok (.endBad b)
  | .unused6 => .error .unusedStateCode
  | .unused7 => .error .unusedStateCode

/-- Decode a dispatch word (R74): `w[10:8]` is the state code and `w[7:0]` the byte. -/
def decodeDispatch (w : BitVec 11) (c : RowCond) : Except DecodeError Instr :=
  decodeRow (FsmState.ofCode (w.extractLsb' 8 3)) (w.extractLsb' 0 8) c

/-! ### The words of an instruction -/

/-- What spells an instruction: a port transaction, a dispatch word, or no word at all. -/
inductive Encoding where
  | port (t : Txn)
  | dispatch (w : BitVec 11)
  | internal
  deriving DecidableEq, Repr, Inhabited

/-- Decode either kind of word, the tested registers given. -/
def decode (e : Encoding) (c : RowCond) : Except DecodeError Instr :=
  match e with
  | .port t => .ok (decodeTxn t)
  | .dispatch w => decodeDispatch w c
  | .internal => .error .noEncoding

/-- The words of an instruction, from the tables of R74 and R80. An operation that reads no agent is given the one
R80 names for it, and one that reads no operand the record of zeros. -/
def encode : Instr → Encoding
  | .processByte => .port { agent := .fr, cmd := 0x00, operand := .zero }
  | .frameAvailable a => .port { agent := a, cmd := 0x01, operand := .zero }
  | .dequeueFrame a => .port { agent := a, cmd := 0x02, operand := .zero }
  | .passthroughAvailable a => .port { agent := a, cmd := 0x03, operand := .zero }
  | .readPassthrough a => .port { agent := a, cmd := 0x04, operand := .zero }
  | .sendFrame fr => .port { agent := .sn, cmd := 0x05, operand := fr }
  | .release fr => .port { agent := .fc, cmd := 0x06, operand := fr }
  | .reserved cmd => .port { agent := .host, cmd := cmd, operand := .zero }
  | .preStart => .dispatch 0x00D#11
  | .prePass b => .dispatch (0b000#3 ++ b)
  | .verOk => .dispatch 0x101#11
  | .verBad b => .dispatch (0b001#3 ++ b)
  | .title b => .dispatch (0b010#3 ++ b)
  | .lenZero => .dispatch 0x300#11
  | .lenAlloc b => .dispatch (0b011#3 ++ b)
  | .lenNomem b => .dispatch (0b011#3 ++ b)
  | .lenBad b => .dispatch (0b011#3 ++ b)
  | .msgByte b => .dispatch (0b100#3 ++ b)
  | .msgLast b => .dispatch (0b100#3 ++ b)
  | .endOk => .dispatch 0x51E#11
  | .endFull => .dispatch 0x51E#11
  | .endBad b => .dispatch (0b101#3 ++ b)
  | .replay => .internal
  | .finish => .internal

/-- The `cond` column of R74: the register values under which a row is the one selected. An instruction without a
condition is selected under every value. -/
def Instr.condHolds (i : Instr) (c : RowCond) : Bool :=
  match i with
  | .lenAlloc _ => c.allocOk
  | .lenNomem _ => !c.allocOk
  | .msgByte _ => decide (2 ≤ c.rem)
  | .msgLast _ => decide (c.rem = 1)
  | .endOk => c.room
  | .endFull => !c.room
  | .processByte => true
  | .frameAvailable _ => true
  | .dequeueFrame _ => true
  | .passthroughAvailable _ => true
  | .readPassthrough _ => true
  | .sendFrame _ => true
  | .release _ => true
  | .reserved _ => true
  | .preStart => true
  | .prePass _ => true
  | .verOk => true
  | .verBad _ => true
  | .title _ => true
  | .lenZero => true
  | .lenBad _ => true
  | .endBad _ => true
  | .replay => true
  | .finish => true

/-- The `match` and `mask` columns of R74 for a dispatch row, and `none` for the rest. -/
def Instr.matchMask : Instr → Option (BitVec 11 × BitVec 11)
  | .preStart => some (0x00D#11, 0x7FF#11)
  | .prePass _ => some (0x000#11, 0x700#11)
  | .verOk => some (0x101#11, 0x7FF#11)
  | .verBad _ => some (0x100#11, 0x700#11)
  | .title _ => some (0x200#11, 0x700#11)
  | .lenZero => some (0x300#11, 0x7FF#11)
  | .lenAlloc _ => some (0x300#11, 0x700#11)
  | .lenNomem _ => some (0x300#11, 0x700#11)
  | .lenBad _ => some (0x300#11, 0x700#11)
  | .msgByte _ => some (0x400#11, 0x700#11)
  | .msgLast _ => some (0x400#11, 0x700#11)
  | .endOk => some (0x51E#11, 0x7FF#11)
  | .endFull => some (0x51E#11, 0x7FF#11)
  | .endBad _ => some (0x500#11, 0x700#11)
  | .processByte => none
  | .frameAvailable _ => none
  | .dequeueFrame _ => none
  | .passthroughAvailable _ => none
  | .readPassthrough _ => none
  | .sendFrame _ => none
  | .release _ => none
  | .reserved _ => none
  | .replay => none
  | .finish => none

/-! ### Words as spec/opcode_table.json numbers them -/

/-- The register values assumed where a word is decoded with no state at hand (log 12): the draw answers `ok` (the
convention of R89), more than one byte remains, and `F` has room. -/
def RowCond.usual : RowCond := { allocOk := true, rem := 2, room := true }

/-- A word of the opcode table: up to 8 bits it is a command byte, issued by the agent R80 names with an operand of
zeros; wider it is a dispatch word, whose bits above 11 must be zero. -/
def decodeTableWordE (nbits w : Nat) : Except DecodeError Instr :=
  if nbits ≤ 8 then
    if w < 256 then
      .ok (decodeTxn { agent := issuingAgent (BitVec.ofNat 8 w), cmd := BitVec.ofNat 8 w, operand := .zero })
    else .error .wideWord
  else if w < 2048 then decodeDispatch (BitVec.ofNat 11 w) .usual
  else .error .wideWord

/-- The instruction the decoder reads from a word of the opcode table. -/
def decodeTableWord (nbits w : Nat) : Option Instr :=
  match decodeTableWordE nbits w with
  | .ok i => some i
  | .error _ => none

end Sys2Proof
end

