-- ==== Sys2Proof/Machine/State.lean ====
section
/-! DEFINITION. The state of the block as plain data (R20), with the model's own fields for what stands outside it,
the reasons a step can stop, and the state after reset (R47). -/

namespace Sys2Proof.Machine

/-- Why the machine stops. None of these is one of the spec's recorded faults: those are data, in `State.faults`. -/
inductive Fault where
  /-- Raised by `step` when `faults` is not empty: "no step of any agent is enabled afterwards" (R176). Safe: it is the
  spec's own stop. -/
  | halted
  /-- Raised by an array access outside the array (a queue index or payload cursor past its array). The spec's ranges
  (R12, R20) rule it out. Safe: the machine stops where the spec gives nothing. -/
  | outOfRange
  /-- Raised by PROCESS_BYTE in MessageWait with `rem = 0`: no row of R74 covers it and R76 says it cannot occur. Safe. -/
  | noRow
  deriving DecidableEq, Repr, Inhabited

/-- Why `exec` gives an instruction no meaning. None of these is one of the spec's refused operations: those go on, with
`State.refused` set (R177). -/
inductive Refusal where
  /-- An arm of `exec` that has no meaning yet, by its mnemonic. No arm of this model uses it. Safe. -/
  | notModelled (mnemonic : String)
  /-- Raised by a dispatch row asked for in a state whose dispatch word, or whose tested registers, select another row
  (R74, R76). Safe: the row's rule does not apply there, and PROCESS_BYTE never asks. -/
  | rowNotSelected
  /-- Raised by REPLAY when `phase` is not `Replay(i)` with `i < scur`: the step is not enabled (R140). Safe. -/
  | notEnabled
  /-- Raised by `State.construct` for `P_CAP = 0`, `F_CAP = 0` or `S_CAP < 54` (R179, R190). Safe: the spec's own. -/
  | zeroCapacity
  deriving DecidableEq, Repr, Inhabited

/-- A ring-buffer queue (R32, R33): its cells, the next-write and next-read positions, and the fill count. Its capacity
`N` is the number of its cells (R57). -/
structure Queue (α : Type) where
  cell : List (Option α)
  wr : Nat
  rd : Nat
  fill : Nat
  deriving DecidableEq, Repr, Inhabited

/-- The state of the block (R20). The last four fields are the model's own and stand for what lies outside the block:
the moves the agents will make, the host's answer to the next draw, how many free values were drawn, and the results
the agents have been given. -/
structure State where
  /-- The framing state (R21). -/
  state : FsmState
  /-- The pending-reset flag (R22). -/
  pending : Bool
  /-- The Frame Scratch Buffer (R23); `S_CAP` is its length. -/
  scratch : List (Option Byte)
  /-- The Parse Cursor (R24). -/
  scur : Nat
  /-- The in-progress frame's version (R25). -/
  fVersion : Option Byte
  /-- The in-progress frame's title (R26). -/
  fTitle : Option Byte
  /-- The in-progress frame's declared length (R27). -/
  fLength : Option Byte
  /-- The in-progress frame's payload allocation (R28). -/
  fHandle : Option Handle
  /-- The contents of that allocation (R28). -/
  pbuf : List (Option Byte)
  /-- The payload write cursor (R29). -/
  pcur : Nat
  /-- The remaining-bytes counter (R30). -/
  rem : Nat
  /-- Whether a call is mid-replay (R31). -/
  phase : Phase
  /-- The Passthrough Queue `P` (R32). -/
  pq : Queue Byte
  /-- The Frame Queue `F` (R33). -/
  fq : Queue FrameRec
  /-- Allocations not yet released (R36), as a rising list. -/
  live : List Handle
  /-- Allocations released (R36), as a rising list. -/
  freed : List Handle
  /-- The bytes the byte source holds, oldest first (R37). -/
  rx : List Byte
  /-- The bytes written to the byte sink, oldest first (R38). -/
  tx : List Byte
  /-- The faults recorded, never cleared (R176). -/
  faults : List FaultReason
  /-- Set once any operation is refused, never cleared (R177). -/
  refused : Bool
  /-- MODEL'S OWN (log 2): the moves to come, oldest first. -/
  sched : List Move
  /-- MODEL'S OWN (log 3): the answer fixed for the next allocation draw (R89). -/
  nextAlloc : Option AllocDraw
  /-- MODEL'S OWN (logs 2 and 3): how many free values have been drawn. -/
  ticks : Nat
  /-- MODEL'S OWN (log 4): the results returned to the agents, oldest first (R205). -/
  results : List Response
  deriving DecidableEq, Repr, Inhabited

/-- An empty queue of capacity `n` (R47). -/
def Queue.empty (α : Type) (n : Nat) : Queue α :=
  { cell := List.replicate n none, wr := 0, rd := 0, fill := 0 }

/-- The block constructed with `P_CAP = p`, `F_CAP = f` and `S_CAP = c`: every field at its value in R47. -/
def State.fresh (p f c : Nat) : State :=
  { state := .preambleWait
    pending := false
    scratch := List.replicate c none
    scur := 0
    fVersion := none
    fTitle := none
    fLength := none
    fHandle := none
    pbuf := List.replicate Config.pbufCap none
    pcur := 0
    rem := 0
    phase := .idle
    pq := Queue.empty Byte p
    fq := Queue.empty FrameRec f
    live := []
    freed := []
    rx := []
    tx := []
    faults := []
    refused := false
    sched := []
    nextAlloc := none
    ticks := 0
    results := [] }

/-- The machine right after reset (R190), constructed with the sizes of Config. The two queue capacities are DESIGN
CHOICES (log 1). -/
def State.reset : State := State.fresh Config.pCap Config.fCap Config.sCap

end Sys2Proof.Machine
end

