-- ==== Sys2Proof/Machine/Flags.lean ====
section
/-! DEFINITION. The block's one flag, `pending` (R22, R43), and the two marks that outlast every operation, `refused`
(R177) and `faults` (R176). No operation computes a flag from data. -/

namespace Sys2Proof.Machine

/-- `pending <- true` (R22). -/
def State.setPending (s : State) : State := { s with pending := true }

/-- `pending <- false` (R22). -/
def State.clearPending (s : State) : State := { s with pending := false }

/-- `refuse(reason)`: `refused <- true`, and nothing else changes (R177). The spec gives the reason no place in the
state. -/
def State.refuse (_why : RefuseReason) (s : State) : State := { s with refused := true }

/-- Add a reason to the set of recorded faults (R176). -/
def addFault (r : FaultReason) (l : List FaultReason) : List FaultReason := if r ∈ l then l else l ++ [r]

/-- `raise Fault(reason)`: the reason is recorded (R176). -/
def State.recordFault (r : FaultReason) (s : State) : State := { s with faults := addFault r s.faults }

end Sys2Proof.Machine
end

