-- ==== Sys2Proof/Machine/Ops.lean ====
section
/-! DEFINITION. The shared operations: storage arrays (R15), ring queues (R101 to R103), the scratch buffer (R122), the
allocator (R129, R166), the abort as the block's only trap-like path (R138 to R141, R180, R181), the response port
(R83), construction (R190), and the moves of the schedule (R61, R89). -/

namespace Sys2Proof.Machine

/-! ### What an operation inside a step can do -/

/-- The result of an operation inside an atomic step: a value, a raised fault with the state the step has written so
far (log 6), a stop, or a refusal of the model's own. -/
inductive Res (α : Type) where
  | ok (a : α)
  | raised (r : FaultReason) (s : State)
  | stuck (f : Fault)
  | refused (r : Refusal)
  deriving Repr

/-- Go on with the value; every other result ends the step. -/
def Res.bind {α β : Type} (x : Res α) (k : α → Res β) : Res β :=
  match x with
  | .ok a => k a
  | .raised r s => .raised r s
  | .stuck f => .stuck f
  | .refused r => .refused r

/-- The outcome of a step whose operations gave `x`. A raised fault is recorded, and the step is a step (R176). -/
def Res.outcome (x : Res State) : Host.Outcome State Fault Refusal :=
  match x with
  | .ok s => .next s
  | .raised r s => .next (s.recordFault r)
  | .stuck f => .fault f
  | .refused r => .refused r

/-- A dispatch row's rule applies only where the row is selected (R74). -/
def selected (c : Bool) (x : Res State) : Res State := if c then x else .refused .rowNotSelected

/-! ### Storage arrays -/

/-- What a read of an array element finds (R15). -/
inductive Cell (α : Type) where
  | value (v : α)
  | noValue
  | outside
  deriving DecidableEq, Repr

/-- The element `i` of an array, its `NoValue`, or no element at all. -/
def readCell {α : Type} (l : List (Option α)) (i : Nat) : Cell α :=
  match l[i]? with
  | some (some v) => .value v
  | some none => .noValue
  | none => .outside

/-- `MemRead(A, i)` in state `s`: reading `NoValue` raises ReadUnwritten (R15). -/
def memRead {α : Type} (l : List (Option α)) (i : Nat) (s : State) : Res α :=
  match readCell l i with
  | .value v => .ok v
  | .noValue => .raised .readUnwritten s
  | .outside => .stuck .outOfRange

/-- `MemWrite(A, i, v)` (R15). -/
def memWrite {α : Type} (l : List (Option α)) (i : Nat) (v : α) : Res (List (Option α)) :=
  if i < l.length then .ok (l.set i (some v)) else .stuck .outOfRange

/-- `A[0..n-1] <- NoValue` (R129). -/
def clearCells {α : Type} (l : List (Option α)) (n : Nat) : List (Option α) :=
  List.replicate (min n l.length) none ++ l.drop n

/-- The values of a list of elements, if every one holds a value. -/
def collect {α : Type} : List (Option α) → Option (List α)
  | [] => some []
  | some v :: rest => (collect rest).map (fun vs => v :: vs)
  | none :: _ => none

/-- `A[0..n-1]` read whole in state `s` (R135): an element that holds `NoValue` raises ReadUnwritten. -/
def memReadRange {α : Type} (l : List (Option α)) (n : Nat) (s : State) : Res (List α) :=
  if n ≤ l.length then
    match collect (l.take n) with
    | some vs => .ok vs
    | none => .raised .readUnwritten s
  else .stuck .outOfRange

/-! ### Ring-buffer queues -/

/-- The capacity `N` of a queue (R57). -/
abbrev Queue.cap {α : Type} (q : Queue α) : Nat := q.cell.length

/-- `Enq(Q, v)` (R101): the code and the queue after. On `Full` the queue is unchanged. -/
def Queue.enq {α : Type} (q : Queue α) (v : α) : Res (ResultCode × Queue α) :=
  if q.fill < q.cap then
    (memWrite q.cell q.wr v).bind fun cell =>
      .ok (.ok, { q with cell := cell, wr := (q.wr + 1) % q.cap, fill := q.fill + 1 })
  else .ok (.full, q)

/-- `Deq(Q)` in state `s` (R102): the item, if the queue held one, and the queue after. The consumed cell holds
`NoValue`. On `Empty` the queue is unchanged. -/
def Queue.deq {α : Type} (q : Queue α) (s : State) : Res (Option α × Queue α) :=
  if 0 < q.fill then
    (memRead q.cell q.rd s).bind fun v =>
      .ok (some v, { q with cell := q.cell.set q.rd none, rd := (q.rd + 1) % q.cap, fill := q.fill - 1 })
  else .ok (none, q)

/-- `Avail(Q)` (R103). -/
def Queue.avail {α : Type} (q : Queue α) : Nat := q.fill

/-- The queued items, oldest first (R35). -/
def Queue.items {α : Type} (q : Queue α) : List α :=
  (List.range q.fill).filterMap fun k => (q.cell[(q.rd + k) % q.cap]?).join

/-- The framer's `Enq(P, b)`: a `Full` result drops the byte silently (R109, R124, R140). -/
def enqPassthrough (b : Byte) (s : State) : Res State :=
  (s.pq.enq b).bind fun r => .ok { s with pq := r.2 }

/-! ### The scratch buffer -/

/-- The byte is written at the parse cursor, which advances (R122). -/
def State.capture (b : Byte) (s : State) : State :=
  { s with scratch := s.scratch.set s.scur (some b), scur := s.scur + 1 }

/-- `Record(b)` (R122). -/
def record (b : Byte) (s : State) : Res State :=
  if s.scratch.length ≤ s.scur then .raised .scratchOverflow s else .ok (s.capture b)

/-! ### The allocator -/

/-- A set of handles gains one; the list stays strictly rising. -/
def insertHandle (h : Handle) : List Handle → List Handle
  | [] => [h]
  | x :: xs => if h < x then h :: x :: xs else if h = x then x :: xs else x :: insertHandle h xs

/-- A set of handles loses one. -/
def removeHandle (h : Handle) (l : List Handle) : List Handle := l.filter (fun x => decide (x ≠ h))

/-- `h` is in neither `live` nor `freed` (R129, R166). -/
def isFresh (h : Handle) (s : State) : Bool := !(s.live.contains h) && !(s.freed.contains h)

/-- A number above every handle of a list. -/
def aboveAll (l : List Nat) : Nat := l.foldr (fun x m => max (x + 1) m) 0

/-- The handle a draw of `ok(h)` gives: `h` itself when it is fresh, else one above every handle ever allocated. The
draw is fresh by construction (R189), and every fresh handle can be drawn. -/
def freshen (h : Handle) (s : State) : Handle :=
  if isFresh h s then h else aboveAll (s.live ++ s.freed) + h

/-- The answer of the next allocation draw: the one the host fixed (R89), else a free value (R16, R129). -/
def State.peekDraw (s : State) : AllocDraw :=
  match s.nextAlloc with
  | some d => d
  | none => Config.allocDraw s.ticks

/-- The draw is taken: a fixed answer is used up, or the count of free values advances. -/
def State.takeDraw (s : State) : State :=
  match s.nextAlloc with
  | some _ => { s with nextAlloc := none }
  | none => { s with ticks := s.ticks + 1 }

/-- The next draw answers `ok`. -/
def State.drawOk (s : State) : Bool :=
  match s.peekDraw with
  | .ok _ => true
  | .fail => false

/-- The handle the next draw gives, if it answers `ok`. -/
def State.drawnHandle (s : State) : Option Handle :=
  match s.peekDraw with
  | .ok h => some (freshen h s)
  | .fail => none

/-- The bookkeeping of a release (R164, R166): the handle moves from `live` to `freed`. -/
def State.freeHandle (h : Handle) (s : State) : State :=
  { s with live := removeHandle h s.live, freed := insertHandle h s.freed }

/-- The handles held by the cells of `F`, in cell order (R46). -/
def State.queuedHandles (s : State) : List Handle :=
  s.fq.cell.filterMap fun c => c.bind FrameRec.handle?

/-- The handles of the frame records returned to callers so far (R46). -/
def State.returnedHandles (s : State) : List Handle :=
  s.results.filterMap fun r =>
    match r.data with
    | some (.frame fr) => fr.handle?
    | some (.count _) => none
    | some (.byte _) => none
    | none => none

/-! ### The abort: the block's only trap-like path -/

/-- Release the in-progress frame's payload if it is held: the body R134 and R138 share. -/
def State.dropPayload (s : State) : State :=
  match s.fHandle with
  | some h => { s with fHandle := none }.freeHandle h
  | none => s

/-- `ReleasePayload()` under MessageWait's dead clause, guarded on a held handle (R134). -/
def releasePayloadIfPending (s : State) : State := if s.pending then s.dropPayload else s

/-- `EndRelease()` (R138). -/
def endRelease (s : State) : State := if s.pending then s.dropPayload else s

/-- `ResetCheck()`: the abort's entry into its replay (R139, R180). -/
def resetCheck (s : State) : State := if s.pending then { s with phase := .replay 0 } else s

/-- `Finish()`: the return from an abort (R141, R181). -/
def finishReplay (s : State) : State :=
  { s with state := .preambleWait, pending := false, phase := .idle }

/-- The replay step is enabled: `phase = Replay(i)` with `i < scur` (R140). -/
def State.replayEnabled (s : State) : Bool :=
  match s.phase with
  | .idle => false
  | .replay i => decide (i < s.scur)

/-! ### The response port -/

/-- Return a result to the agent that issued the operation (R83). -/
def State.respond (a : Agent) (code : ResultCode) (d : Option Datum) (s : State) : State :=
  { s with results := s.results ++ [{ agent := a, code := code, data := d }] }

/-! ### Construction -/

/-- Construct the block with its parameters, or refuse (R190). -/
def State.construct (p f c : Nat) : Host.Outcome State Fault Refusal :=
  if 1 ≤ p ∧ 1 ≤ f ∧ Config.maxRaw ≤ c then .next (State.fresh p f c) else .refused .zeroCapacity

/-! ### The schedule -/

/-- The move made next and the state without it: the head of the schedule, else a free value (R61, log 2). -/
def State.nextMove (s : State) : Move × State :=
  match s.sched with
  | m :: rest => (m, { s with sched := rest })
  | [] => (Config.freeMove s.ticks, { s with ticks := s.ticks + 1 })

/-- The byte source holds these bytes: what `read_byte()` leaves (R37). -/
def State.withRx (l : List Byte) (s : State) : State := { s with rx := l }

/-- HOST appends a byte to `rx` (R37). -/
def State.hostRx (b : Byte) (s : State) : State := { s with rx := s.rx ++ [b] }

/-- HOST removes the front byte of `tx`, if there is one (R38). -/
def State.hostTakeTx (s : State) : State := { s with tx := s.tx.drop 1 }

/-- HOST fixes the answer of the next draw (R89). -/
def State.hostAlloc (d : AllocDraw) (s : State) : State := { s with nextAlloc := some d }

/-- What stands behind the instruction words of `withFetchWord` (log 11): the registers of a frame in progress that
R45 gives for the framing state, with the shortest frame that reaches it. -/
def State.placeFsm (st : FsmState) (s : State) : State :=
  let h := aboveAll (s.live ++ s.freed)
  let t := { s with state := st, pending := false, phase := .idle, faults := [] }
  let put := fun (bs : List Byte) => bs.map some ++ t.scratch.drop bs.length
  match st with
  | .preambleWait => { t with fHandle := none }
  | .versionWait => { t with fHandle := none, scratch := put [0x0D], scur := 1 }
  | .titleWait => { t with fHandle := none, scratch := put [0x0D, 0x01], scur := 2, fVersion := some 0x01 }
  | .lengthWait =>
    { t with
      fHandle := none, scratch := put [0x0D, 0x01, 0x00], scur := 3, fVersion := some 0x01, fTitle := some 0x00,
      nextAlloc := some (.ok 0) }
  | .messageWait =>
    { t with
      scratch := put [0x0D, 0x01, 0x00, 0x02], scur := 4, fVersion := some 0x01, fTitle := some 0x00,
      fLength := some 0x02, fHandle := some h, live := insertHandle h t.live, pcur := 0, rem := 2,
      pbuf := clearCells t.pbuf 2 }
  | .endWait =>
    { t with
      fHandle := none, scratch := put [0x0D, 0x01, 0x00, 0x00], scur := 4, fVersion := some 0x01, fTitle := some 0x00,
      fLength := some 0x00 }
  | .unused6 => t
  | .unused7 => t

/-- The state in which the next move is a command from a word of the opcode table (log 11). -/
def State.placeCommand (w : Nat) (s : State) : State :=
  { s with
    faults := [],
    sched := .issue { agent := issuingAgent (BitVec.ofNat 8 w), cmd := BitVec.ofNat 8 w, operand := .zero } :: s.sched }

/-- The state in which the next move is the PROCESS_BYTE call that reads a dispatch word (log 11). -/
def State.placeDispatch (w : Nat) (s : State) : State :=
  let word := BitVec.ofNat 11 w
  let t := s.placeFsm (FsmState.ofCode (word.extractLsb' 8 3))
  { t with
    rx := word.extractLsb' 0 8 :: t.rx,
    sched := .issue { agent := .fr, cmd := 0x00, operand := .zero } :: t.sched }

end Sys2Proof.Machine
end

