-- ==== Sys2Proof/Machine/Operands.lean ====
section
/-! DEFINITION. The operand forms: the registers a dispatch row tests (R74), the frame record the framer builds (R135),
and the frame record that stands beside SEND_FRAME and RELEASE (R82, R162). -/

namespace Sys2Proof.Machine

/-- The `cond` column of R74, read from the registers. -/
def State.rowCond (s : State) : RowCond :=
  { allocOk := s.drawOk, rem := s.rem, room := decide (s.fq.fill < s.fq.cap) }

/-- The row that the framing state and a received byte select (R74, R120). -/
def State.dispatch (s : State) (b : Byte) : Except DecodeError Instr :=
  decodeDispatch (dispatchWord s.state b) s.rowCond

/-- A register of the frame record read in state `s`; reading its `NoValue` raises ReadUnwritten (R15, log 8). -/
def readField {α : Type} (f : Option α) (s : State) : Res α :=
  match f with
  | some v => .ok v
  | none => .raised .readUnwritten s

/-- The payload of the frame in progress (R135): the handle and the first `length` bytes of `pbuf`, or `NoValue` when
the length is zero. -/
def framePayload (len : Byte) (s : State) : Res (Option Payload) :=
  if 0 < len.toNat then
    (readField s.fHandle s).bind fun h =>
      (memReadRange s.pbuf len.toNat s).bind fun bs => .ok (some { handle := h, bytes := bs })
  else .ok none

/-- The record of the frame in progress (R135). -/
def frameRecord (s : State) : Res FrameRec :=
  (readField s.fVersion s).bind fun v =>
    (readField s.fTitle s).bind fun t =>
      (readField s.fLength s).bind fun len =>
        (framePayload len s).bind fun p =>
          .ok { version := v, title := t, length := len, payload := p }

/-- `SendOperandOk(fr)` (R162). -/
def sendOperandOk (fr : FrameRec) : Bool :=
  match fr.payload with
  | none => decide (fr.length = 0)
  | some p => decide (0 < fr.length.toNat ∧ p.bytes.length = fr.length.toNat)

/-- The payload bytes a record carries. -/
def payloadBytes (fr : FrameRec) : List Byte :=
  match fr.payload with
  | none => []
  | some p => p.bytes

/-- The bytes SEND_FRAME writes for a record, in wire order (R70, R160). -/
def wireBytes (fr : FrameRec) : List Byte :=
  [Config.preamble, fr.version, fr.title, fr.length] ++ payloadBytes fr ++ [Config.terminator]

end Sys2Proof.Machine
end

