-- ==== Sys2Proof/Machine/Framer.lean ====
section
/-! DEFINITION. The framing state machine (spec/41_framer.md): a rule for each dispatch row, PROCESS_BYTE, and the two
internal steps of a replay. A row's rule is the per-state part of the call's first step, after the byte has been read
and before ResetCheck (R120); `exec<Row>` is that rule as an instruction of its own. -/

namespace Sys2Proof.Machine

/-! ### The per-state rules -/

/-- PRE_START (R123). -/
def rulePreStart (s : State) : Res State :=
  selected (decide (s.state = .preambleWait)) <|
    (record Config.preamble { s with pending := false, scur := 0 }).bind fun t => .ok { t with state := .versionWait }

/-- PRE_PASS (R124). -/
def rulePrePass (b : Byte) (s : State) : Res State :=
  selected (decide (s.state = .preambleWait ∧ b ≠ Config.preamble)) <| enqPassthrough b s

/-- VER_OK (R125). -/
def ruleVerOk (s : State) : Res State :=
  selected (decide (s.state = .versionWait)) <|
    (record Config.version s).bind fun t =>
      .ok { t with fVersion := some Config.version, state := .titleWait }

/-- VER_BAD (R126): abort cause BadVersion. -/
def ruleVerBad (b : Byte) (s : State) : Res State :=
  selected (decide (s.state = .versionWait ∧ b ≠ Config.version)) <|
    (record b s).bind fun t => .ok t.setPending

/-- TITLE (R127). -/
def ruleTitle (b : Byte) (s : State) : Res State :=
  selected (decide (s.state = .titleWait)) <|
    (record b s).bind fun t => .ok { t with fTitle := some b, state := .lengthWait }

/-- LEN_ZERO (R128). -/
def ruleLenZero (s : State) : Res State :=
  selected (decide (s.state = .lengthWait)) <|
    (record 0 s).bind fun t => .ok { t with fLength := some 0, state := .endWait }

/-- The part of LEN_ALLOC that follows an answer of `ok` with the fresh handle `h` (R129). -/
def allocate (b : Byte) (h : Handle) (s : State) : State :=
  { s with
    live := insertHandle h s.live, fHandle := some h, pbuf := clearCells s.pbuf b.toNat, pcur := 0, rem := b.toNat,
    state := .messageWait }

/-- LEN_ALLOC (R129): the draw answers `ok`. -/
def ruleLenAlloc (b : Byte) (s : State) : Res State :=
  match s.drawnHandle with
  | some h =>
    selected (decide (s.state = .lengthWait) && payloadLength b) <|
      (record b s).bind fun t => .ok (allocate b h { t with fLength := some b }.takeDraw)
  | none => .refused .rowNotSelected

/-- LEN_NOMEM (R130): the draw answers `fail`; abort cause NoMemory. -/
def ruleLenNomem (b : Byte) (s : State) : Res State :=
  selected (decide (s.state = .lengthWait) && payloadLength b && !s.drawOk) <|
    (record b s).bind fun t => .ok { t with fLength := some b }.takeDraw.setPending

/-- LEN_BAD (R131): abort cause BadLength, with no draw. -/
def ruleLenBad (b : Byte) (s : State) : Res State :=
  selected (decide (s.state = .lengthWait ∧ Config.maxLength ≤ b.toNat)) <|
    (record b s).bind fun t => .ok { t with fLength := some b }.setPending

/-- The payload write MSG_BYTE and MSG_LAST share (R132, R133): record, store at the payload cursor, advance it,
decrement the remaining counter. -/
def storePayloadByte (b : Byte) (s : State) : Res State :=
  (record b s).bind fun t =>
    (memWrite t.pbuf t.pcur b).bind fun cells =>
      .ok { t with pbuf := cells, pcur := t.pcur + 1, rem := t.rem - 1 }

/-- MSG_BYTE (R132), with MessageWait's pending clause (R134). -/
def ruleMsgByte (b : Byte) (s : State) : Res State :=
  selected (decide (s.state = .messageWait ∧ 2 ≤ s.rem)) <|
    (storePayloadByte b s).bind fun t => .ok (releasePayloadIfPending t)

/-- MSG_LAST (R133), with MessageWait's pending clause (R134). -/
def ruleMsgLast (b : Byte) (s : State) : Res State :=
  selected (decide (s.state = .messageWait ∧ s.rem = 1)) <|
    (storePayloadByte b s).bind fun t => .ok (releasePayloadIfPending { t with state := .endWait })

/-- END_OK (R135): `Enq(F)` returns `Ok`, and the handle's ownership moves to the cell (R108). -/
def ruleEndOk (s : State) : Res State :=
  selected (decide (s.state = .endWait ∧ s.fq.fill < s.fq.cap)) <|
    (record Config.terminator s).bind fun t =>
      (frameRecord t).bind fun fr =>
        (t.fq.enq fr).bind fun r => .ok { t with fq := r.2, fHandle := none, state := .preambleWait }

/-- END_FULL (R136): `Enq(F)` returns `Full`; abort cause FrameQueueFull. -/
def ruleEndFull (s : State) : Res State :=
  selected (decide (s.state = .endWait ∧ ¬ s.fq.fill < s.fq.cap)) <|
    (record Config.terminator s).bind fun t =>
      (frameRecord t).bind fun fr =>
        (t.fq.enq fr).bind fun r => .ok (endRelease { t with fq := r.2 }.setPending)

/-- END_BAD (R137): abort cause BadTerminator. -/
def ruleEndBad (b : Byte) (s : State) : Res State :=
  selected (decide (s.state = .endWait ∧ b ≠ Config.terminator)) <|
    (record b s).bind fun t => .ok (endRelease t.setPending)

/-- The rule of a dispatch row (R120's case list). What is no row has no rule here. -/
def rowRule (i : Instr) (s : State) : Res State :=
  match i with
  | .preStart => rulePreStart s
  | .prePass b => rulePrePass b s
  | .verOk => ruleVerOk s
  | .verBad b => ruleVerBad b s
  | .title b => ruleTitle b s
  | .lenZero => ruleLenZero s
  | .lenAlloc b => ruleLenAlloc b s
  | .lenNomem b => ruleLenNomem b s
  | .lenBad b => ruleLenBad b s
  | .msgByte b => ruleMsgByte b s
  | .msgLast b => ruleMsgLast b s
  | .endOk => ruleEndOk s
  | .endFull => ruleEndFull s
  | .endBad b => ruleEndBad b s
  | .processByte => .refused .rowNotSelected
  | .frameAvailable _ => .refused .rowNotSelected
  | .dequeueFrame _ => .refused .rowNotSelected
  | .passthroughAvailable _ => .refused .rowNotSelected
  | .readPassthrough _ => .refused .rowNotSelected
  | .sendFrame _ => .refused .rowNotSelected
  | .release _ => .refused .rowNotSelected
  | .reserved _ => .refused .rowNotSelected
  | .replay => .refused .rowNotSelected
  | .finish => .refused .rowNotSelected

/-! ### The rows as instructions -/

/-- PRE_START (R123). -/
def execPreStart (s : State) : Host.Outcome State Fault Refusal := (rulePreStart s).outcome

/-- PRE_PASS (R124). -/
def execPrePass (b : Byte) (s : State) : Host.Outcome State Fault Refusal := (rulePrePass b s).outcome

/-- VER_OK (R125). -/
def execVerOk (s : State) : Host.Outcome State Fault Refusal := (ruleVerOk s).outcome

/-- VER_BAD (R126). -/
def execVerBad (b : Byte) (s : State) : Host.Outcome State Fault Refusal := (ruleVerBad b s).outcome

/-- TITLE (R127). -/
def execTitle (b : Byte) (s : State) : Host.Outcome State Fault Refusal := (ruleTitle b s).outcome

/-- LEN_ZERO (R128). -/
def execLenZero (s : State) : Host.Outcome State Fault Refusal := (ruleLenZero s).outcome

/-- LEN_ALLOC (R129). -/
def execLenAlloc (b : Byte) (s : State) : Host.Outcome State Fault Refusal := (ruleLenAlloc b s).outcome

/-- LEN_NOMEM (R130). -/
def execLenNomem (b : Byte) (s : State) : Host.Outcome State Fault Refusal := (ruleLenNomem b s).outcome

/-- LEN_BAD (R131). -/
def execLenBad (b : Byte) (s : State) : Host.Outcome State Fault Refusal := (ruleLenBad b s).outcome

/-- MSG_BYTE (R132). -/
def execMsgByte (b : Byte) (s : State) : Host.Outcome State Fault Refusal := (ruleMsgByte b s).outcome

/-- MSG_LAST (R133). -/
def execMsgLast (b : Byte) (s : State) : Host.Outcome State Fault Refusal := (ruleMsgLast b s).outcome

/-- END_OK (R135). -/
def execEndOk (s : State) : Host.Outcome State Fault Refusal := (ruleEndOk s).outcome

/-- END_FULL (R136). -/
def execEndFull (s : State) : Host.Outcome State Fault Refusal := (ruleEndFull s).outcome

/-- END_BAD (R137). -/
def execEndBad (b : Byte) (s : State) : Host.Outcome State Fault Refusal := (ruleEndBad b s).outcome

/-! ### PROCESS_BYTE -/

/-- The first step's work on a byte that has been read (R120): dispatch on the state it found, the row's rule, then
ResetCheck unless the call began in PreambleWait. -/
def processRead (b : Byte) (s : State) : Res State :=
  match s.dispatch b with
  | .ok i =>
    (rowRule i s).bind fun t => .ok (if s.state = .preambleWait then t else resetCheck t)
  | .error .unusedStateCode => .raised .badState s
  | .error .noRow => .stuck .noRow
  | .error .wideWord => .stuck .noRow
  | .error .noEncoding => .stuck .noRow

/-- PROCESS_BYTE (R120, R155): refused while a call is replaying; a no-op on an empty source; else one byte is read and
its row's rule applied, all in one atomic step (R121). -/
def execProcessByte (s : State) : Host.Outcome State Fault Refusal :=
  if s.phase = .idle then
    match s.rx with
    | [] => .next s
    | b :: rest => (processRead b (s.withRx rest)).outcome
  else .next (s.refuse .reentrant)

/-! ### The replay -/

/-- One replay step (R140) for `phase = Replay(i)`: the captured byte is offered to `P`, and the last one finishes the
replay in the same step. -/
def replayStep (i : Nat) (s : State) : Res State :=
  (memRead s.scratch i s).bind fun b =>
    (enqPassthrough b s).bind fun t =>
      .ok (if i + 1 = s.scur then finishReplay { t with phase := .replay (i + 1) } else { t with phase := .replay (i + 1) })

/-- REPLAY (R140). -/
def execReplay (s : State) : Host.Outcome State Fault Refusal :=
  match s.phase with
  | .idle => .refused .notEnabled
  | .replay i => if i < s.scur then (replayStep i s).outcome else .refused .notEnabled

/-- FINISH (R141). -/
def execFinish (s : State) : Host.Outcome State Fault Refusal := .next (finishReplay s)

end Sys2Proof.Machine
end

