-- ==== Sys2Proof/Machine/Queues.lean ====
section
/-! DEFINITION. The four consumer operations (spec/40_queues.md R104 to R107) with the single-consumer rule (R113). -/

namespace Sys2Proof.Machine

/-- FRAME_AVAILABLE (R104): any agent may read the count (R113). -/
def execFrameAvailable (a : Agent) (s : State) : Host.Outcome State Fault Refusal :=
  .next (s.respond a .ok (some (.count s.fq.avail)))

/-- PASSTHROUGH_AVAILABLE (R106): any agent may read the count (R113). -/
def execPassthroughAvailable (a : Agent) (s : State) : Host.Outcome State Fault Refusal :=
  .next (s.respond a .ok (some (.count s.pq.avail)))

/-- `Deq(F)` and the response to `a` (R105). -/
def takeFrame (a : Agent) (s : State) : Res State :=
  (s.fq.deq s).bind fun r =>
    match r.1 with
    | some fr => .ok ({ s with fq := r.2 }.respond a .ok (some (.frame fr)))
    | none => .ok (s.respond a .empty none)

/-- DEQUEUE_FRAME (R105): refused to every agent but FC (R113). -/
def execDequeueFrame (a : Agent) (s : State) : Host.Outcome State Fault Refusal :=
  if a = .fc then (takeFrame a s).outcome else .next (s.refuse .notConsumer)

/-- `Deq(P)` and the response to `a` (R107). -/
def takePassthrough (a : Agent) (s : State) : Res State :=
  (s.pq.deq s).bind fun r =>
    match r.1 with
    | some b => .ok ({ s with pq := r.2 }.respond a .ok (some (.byte b)))
    | none => .ok (s.respond a .empty none)

/-- READ_PASSTHROUGH (R107): refused to every agent but PC (R113). -/
def execReadPassthrough (a : Agent) (s : State) : Host.Outcome State Fault Refusal :=
  if a = .pc then (takePassthrough a s).outcome else .next (s.refuse .notConsumer)

end Sys2Proof.Machine
end

