-- ==== Sys2Proof/Machine/SenderRelease.lean ====
section
/-! DEFINITION. SEND_FRAME and RELEASE (spec/42_sender_release.md), and the reserved commands (R81). -/

namespace Sys2Proof.Machine

/-- SEND_FRAME (R160): the record's bytes go to the sink as they are; a record whose payload disagrees with its length
is refused (R162). -/
def execSendFrame (fr : FrameRec) (s : State) : Host.Outcome State Fault Refusal :=
  if sendOperandOk fr then .next { s with tx := s.tx ++ wireBytes fr } else .next (s.refuse .sendOperand)

/-- The handle is held by the framer or by a cell of `F` (R164). -/
def heldInside (h : Handle) (s : State) : Bool := decide (s.fHandle = some h) || s.queuedHandles.contains h

/-- The release of a handle (R164). -/
def releaseHandle (h : Handle) (s : State) : Res State :=
  if s.live.contains h then
    if heldInside h s then .raised .releaseNotOwned s else .ok (s.freeHandle h)
  else if s.freed.contains h then .raised .doubleRelease s
  else .ok s

/-- RELEASE (R164): a record with no payload releases nothing. -/
def execRelease (fr : FrameRec) (s : State) : Host.Outcome State Fault Refusal :=
  match fr.handle? with
  | none => .next s
  | some h => (releaseHandle h s).outcome

/-- RESERVED (R81): the command is refused. -/
def execReserved (_cmd : Byte) (s : State) : Host.Outcome State Fault Refusal := .next (s.refuse .reservedCommand)

end Sys2Proof.Machine
end

