-- ==== Sys2Proof/Machine/Dispatch.lean ====
section
/-! DEFINITION. exec: one arm per constructor of Instr, in the order of spec/opcode_table.json. -/

namespace Sys2Proof.Machine

def exec (i : Instr) (s : State) : Host.Outcome State Fault Refusal :=
  match i with
  | .processByte => Sys2Proof.Machine.execProcessByte s
  | .frameAvailable a => Sys2Proof.Machine.execFrameAvailable a s
  | .dequeueFrame a => Sys2Proof.Machine.execDequeueFrame a s
  | .passthroughAvailable a => Sys2Proof.Machine.execPassthroughAvailable a s
  | .readPassthrough a => Sys2Proof.Machine.execReadPassthrough a s
  | .sendFrame fr => Sys2Proof.Machine.execSendFrame fr s
  | .release fr => Sys2Proof.Machine.execRelease fr s
  | .reserved cmd => Sys2Proof.Machine.execReserved cmd s
  | .preStart => Sys2Proof.Machine.execPreStart s
  | .prePass b => Sys2Proof.Machine.execPrePass b s
  | .verOk => Sys2Proof.Machine.execVerOk s
  | .verBad b => Sys2Proof.Machine.execVerBad b s
  | .title b => Sys2Proof.Machine.execTitle b s
  | .lenZero => Sys2Proof.Machine.execLenZero s
  | .lenAlloc b => Sys2Proof.Machine.execLenAlloc b s
  | .lenNomem b => Sys2Proof.Machine.execLenNomem b s
  | .lenBad b => Sys2Proof.Machine.execLenBad b s
  | .msgByte b => Sys2Proof.Machine.execMsgByte b s
  | .msgLast b => Sys2Proof.Machine.execMsgLast b s
  | .endOk => Sys2Proof.Machine.execEndOk s
  | .endFull => Sys2Proof.Machine.execEndFull s
  | .endBad b => Sys2Proof.Machine.execEndBad b s
  | .replay => Sys2Proof.Machine.execReplay s
  | .finish => Sys2Proof.Machine.execFinish s

end Sys2Proof.Machine
end

