-- ==== Sys2Proof/Machine/Moves.lean ====
section
/-! DEFINITION. One move of one agent (R40, R61): what the step does with the head of the schedule. -/

namespace Sys2Proof.Machine

/-- Make a move. A command is decoded and run; a replay turn runs REPLAY where it is enabled and is passed over where it
is not (log 10); the host's moves act on `rx`, `tx` and the next draw; a reset input is refused (R191). -/
def applyMove (m : Move) (s : State) : Host.Outcome State Fault Refusal :=
  match m with
  | .issue t => exec (decodeTxn t) s
  | .replay => if s.replayEnabled then exec .replay s else .next s
  | .rx b => .next (s.hostRx b)
  | .takeTx => .next s.hostTakeTx
  | .alloc d => .next (s.hostAlloc d)
  | .reset => .next (s.refuse .runtimeReset)

end Sys2Proof.Machine
end

