-- ==== Sys2Proof/Machine/Step.lean ====
section
/-! DEFINITION. One step: one move of one agent (R61). -/

namespace Sys2Proof.Machine

/-- One step. Once a fault is recorded no step of any agent is enabled (R176). -/
def step (s : State) : Host.Outcome State Fault Refusal :=
  if s.faults = [] then applyMove s.nextMove.1 s.nextMove.2 else .fault .halted

/-- The state in which the next step fetches a word of the opcode table: a command byte at the head of the schedule, or
a dispatch word in the framing state and at the head of `rx` with a PROCESS_BYTE call to read it (log 11). -/
def State.withFetchWord (s : State) (nbits w : Nat) : State :=
  if nbits ≤ 8 then s.placeCommand w else s.placeDispatch w

end Sys2Proof.Machine
end

