-- ==== Sys2Proof/Safety.lean ====
section
/-! DEFINITION. What counts as a state the rules allow (R34, R35, R44 to R46), what a run and its end look
like (R61, R167, R204, R205), and the terms the statements use. -/

namespace Sys2Proof.Machine

/-! ### Invariants -/

/-- The queue invariant (R35) with the capacity bound of R11: counting `k` places on from `rd`, the first `fill` cells
hold items and the others hold `NoValue`. -/
abbrev Queue.Ok {α : Type} (q : Queue α) : Prop :=
  1 ≤ q.cap ∧ q.fill ≤ q.cap ∧ q.wr < q.cap ∧ q.rd < q.cap ∧ q.wr = (q.rd + q.fill) % q.cap ∧
    ∀ k < q.cap, (q.cell[(q.rd + k) % q.cap]?).join.isSome = decide (k < q.fill)

/-- The ranges of R20 and R11: the arrays' sizes and the cursors' bounds. -/
abbrev InRange (s : State) : Prop :=
  Config.maxRaw ≤ s.scratch.length ∧ s.pbuf.length = Config.pbufCap ∧ s.scur ≤ Config.maxRaw ∧
    s.pcur < Config.maxLength ∧ s.rem < Config.maxLength

/-- Every record in the Frame Queue is well-formed (R34). -/
abbrev FramesOk (s : State) : Prop := ∀ c ∈ s.fq.cell, ∀ fr ∈ c, FrameRec.wellFormed fr = true

/-- The declared length of the frame in progress. -/
def State.frameLength (s : State) : Nat :=
  match s.fLength with
  | some b => b.toNat
  | none => 0

/-- The first captured bytes are these (R45). -/
abbrev CapturedHead (s : State) (bs : List (Option Byte)) : Prop := s.scratch.take bs.length = bs

/-- The first `n` payload cells are written and repeat the captured bytes after the header (R45). -/
abbrev PayloadCaptured (s : State) (n : Nat) : Prop :=
  s.pbuf.take n = (s.scratch.drop 4).take n ∧ ∀ c ∈ s.pbuf.take n, c.isSome = true

/-- The framer holds a live allocation (R45). -/
abbrev HoldsLive (s : State) : Prop := s.fHandle.isSome = true ∧ ∀ h ∈ s.fHandle, h ∈ s.live

/-- The header registers agree with the first four captured bytes (R45). -/
abbrev HeaderCaptured (s : State) : Prop :=
  s.fVersion = some Config.version ∧ s.fTitle.isSome = true ∧ s.fLength.isSome = true ∧
    CapturedHead s [some Config.preamble, some Config.version, s.fTitle, s.fLength]

/-- The table of R45, by framing state, with R44. -/
structure IdleOk (s : State) : Prop where
  pending : s.pending = false
  defined : s.state ≠ .unused6 ∧ s.state ≠ .unused7
  preambleWait : s.state = .preambleWait → s.fHandle = none
  versionWait : s.state = .versionWait → s.scur = 1 ∧ s.fHandle = none ∧ CapturedHead s [some Config.preamble]
  titleWait : s.state = .titleWait →
    s.scur = 2 ∧ s.fHandle = none ∧ s.fVersion = some Config.version ∧
      CapturedHead s [some Config.preamble, some Config.version]
  lengthWait : s.state = .lengthWait →
    s.scur = 3 ∧ s.fHandle = none ∧ s.fVersion = some Config.version ∧ s.fTitle.isSome = true ∧
      CapturedHead s [some Config.preamble, some Config.version, s.fTitle]
  messageWait : s.state = .messageWait →
    HeaderCaptured s ∧ 1 ≤ s.frameLength ∧ s.frameLength < Config.maxLength ∧ s.pcur + s.rem = s.frameLength ∧ 1 ≤ s.rem ∧
      s.scur = 4 + s.pcur ∧ PayloadCaptured s s.pcur ∧ HoldsLive s
  endWait : s.state = .endWait →
    HeaderCaptured s ∧ s.frameLength < Config.maxLength ∧ s.scur = 4 + s.frameLength ∧
      (s.frameLength = 0 → s.fHandle = none) ∧
      (0 < s.frameLength →
        s.pcur = s.frameLength ∧ s.rem = 0 ∧ PayloadCaptured s s.frameLength ∧ HoldsLive s)

/-- What holds while a call replays from `i` (R31, R140, R180): the abort is pending, its payload is released, every
captured byte is there, and the framing state is one of the three that abort (R172). -/
structure ReplayOk (s : State) (i : Nat) : Prop where
  pending : s.pending = true
  inside : i < s.scur
  atLeastTwo : 2 ≤ s.scur
  captured : ∀ c ∈ s.scratch.take s.scur, c.isSome = true
  released : s.fHandle = none
  aborting : s.state = .versionWait ∨ s.state = .lengthWait ∨ s.state = .endWait

/-- The handles with an owner or a former one, a place each (R46): the framer, the cells of `F`, the records returned. -/
def State.ownedHandles (s : State) : List Handle := s.fHandle.toList ++ s.queuedHandles ++ s.returnedHandles

/-- Allocation ownership (R36, R46, R166): no handle is in two places; every live handle is in one; what the framer and
`F` hold is live; what was returned is live or freed; `live` and `freed` share nothing; both lists rise. -/
structure OwnershipOk (s : State) : Prop where
  onePlace : s.ownedHandles.Nodup
  placed : ∀ h ∈ s.live, h ∈ s.ownedHandles
  heldLive : ∀ h ∈ s.fHandle.toList ++ s.queuedHandles, h ∈ s.live
  returnedKnown : ∀ h ∈ s.returnedHandles, h ∈ s.live ∨ h ∈ s.freed
  apart : ∀ h ∈ s.live, h ∉ s.freed
  liveRises : s.live.Pairwise (· < ·)
  freedRises : s.freed.Pairwise (· < ·)

/-- The invariant of the block: what the rules say of every state between two steps. -/
structure State.Inv (s : State) : Prop where
  range : InRange s
  passthrough : s.pq.Ok
  frames : s.fq.Ok
  records : FramesOk s
  idle : s.phase = .idle → IdleOk s
  replay : ∀ i, s.phase = .replay i → ReplayOk s i
  ownership : OwnershipOk s

/-! ### The end of a run -/

/-- A call boundary (R205): no call is in progress. -/
abbrev State.atBoundary (s : State) : Prop := s.phase = .idle

/-- A run that ends here ends well (R205). -/
abbrev State.endsWell (s : State) : Prop := s.phase = .idle ∧ s.faults = [] ∧ s.refused = false

/-- A leaked handle (R167): live, and held neither by the framer nor by a cell of `F`. -/
abbrev State.leaked (s : State) (h : Handle) : Prop := h ∈ s.live ∧ s.fHandle ≠ some h ∧ h ∉ s.queuedHandles

/-! ### Runs and fairness -/

/-- A step of a run by the move `m`: the schedule stands for the outside world (log 2), which may have set it to any
list `l`; `m` is the move that list makes next, and `step` makes it (R40, R61). -/
abbrev StepBy (m : Move) (s t : State) : Prop :=
  ∃ l, (State.nextMove { s with sched := l }).1 = m ∧ step { s with sched := l } = .next t

/-- A run without end, through the states `r` by the moves `moves` (R61). -/
abbrev IsRun (moves : Nat → Move) (r : Nat → State) : Prop := ∀ n, StepBy (moves n) (r n) (r (n + 1))

/-- Weak fairness of the replay (R156, R204): if from some point on its step is always enabled, then from that point on
the framer takes a replay turn. No other agent owes a move. -/
abbrev ReplayFair (moves : Nat → Move) (r : Nat → State) : Prop :=
  ∀ n, (∀ k, n ≤ k → (r k).replayEnabled = true) → ∃ k, n ≤ k ∧ moves k = .replay

/-- A run the spec admits: without end, and weakly fair to the replay (R204). -/
abbrev FairRun (moves : Nat → Move) (r : Nat → State) : Prop := IsRun moves r ∧ ReplayFair moves r

/-! ### Terms of the statements -/

/-- The cells of a queue hold the same in `q'`, but for the cell `i`. -/
abbrev CellsSameBut {α : Type} (q q' : Queue α) (i : Nat) : Prop := ∀ k, k ≠ i → q'.cell[k]? = q.cell[k]?

/-- The captured bytes (R24), in arrival order. -/
def State.capturedBytes (s : State) : List Byte := (s.scratch.take s.scur).filterMap id

/-- `fr` is the record of the frame in progress (R135): its header registers, and for a length above zero the handle and
the first `length` payload cells. -/
abbrev FrameInProgress (s : State) (fr : FrameRec) : Prop :=
  s.fVersion = some fr.version ∧ s.fTitle = some fr.title ∧ s.fLength = some fr.length ∧
    (fr.length.toNat = 0 → fr.payload = none) ∧
    (0 < fr.length.toNat →
      ∃ p, fr.payload = some p ∧ s.fHandle = some p.handle ∧ s.pbuf.take fr.length.toNat = p.bytes.map some ∧
        p.bytes.length = fr.length.toNat)

/-- The queue after `Enq(Q, v)` answers `Ok` (R101). -/
abbrev Queue.withItem {α : Type} (q : Queue α) (v : α) : Queue α :=
  { cell := q.cell.set q.wr (some v), wr := (q.wr + 1) % q.cell.length, rd := q.rd, fill := q.fill + 1 }

/-- The queue after `Deq(Q)` answers `Ok` (R102). -/
abbrev Queue.withoutHead {α : Type} (q : Queue α) : Queue α :=
  { cell := q.cell.set q.rd none, wr := q.wr, rd := (q.rd + 1) % q.cell.length, fill := q.fill - 1 }

/-- The fields only the framer writes hold the same in two states (R41). -/
abbrev FramerSame (s t : State) : Prop :=
  t.state = s.state ∧ t.pending = s.pending ∧ t.scratch = s.scratch ∧ t.scur = s.scur ∧ t.fVersion = s.fVersion ∧
    t.fTitle = s.fTitle ∧ t.fLength = s.fLength ∧ t.fHandle = s.fHandle ∧ t.pbuf = s.pbuf ∧ t.pcur = s.pcur ∧
    t.rem = s.rem ∧ t.phase = s.phase

/-- The operations of the consumers, the sender and a frame's owner, and the reserved commands: every command but
PROCESS_BYTE (R40, R80, R81). -/
def notFramer : Instr → Bool
  | .frameAvailable _ => true
  | .dequeueFrame _ => true
  | .passthroughAvailable _ => true
  | .readPassthrough _ => true
  | .sendFrame _ => true
  | .release _ => true
  | .reserved _ => true
  | .processByte => false
  | .preStart => false
  | .prePass _ => false
  | .verOk => false
  | .verBad _ => false
  | .title _ => false
  | .lenZero => false
  | .lenAlloc _ => false
  | .lenNomem _ => false
  | .lenBad _ => false
  | .msgByte _ => false
  | .msgLast _ => false
  | .endOk => false
  | .endFull => false
  | .endBad _ => false
  | .replay => false
  | .finish => false

/-- The port transaction that issues PROCESS_BYTE from the framer. -/
def processTxn : Txn := { agent := .fr, cmd := 0x00, operand := .zero }

/-- The moves that feed bytes one per call (R88, `FEED`), for bytes whose calls do not replay. -/
def feed : List Byte → List Move
  | [] => []
  | b :: rest => .rx b :: .issue processTxn :: feed rest

/-- One operation on a queue by its producer or its consumer. -/
inductive QueueOp (α : Type) where
  | enq (v : α)
  | deq
  deriving DecidableEq, Repr

/-- A queue after a sequence of operations, the items enqueued with `Ok` and the items dequeued, oldest first. -/
def Queue.runOps {α : Type} (s : State) : List (QueueOp α) → Queue α → Res (Queue α × List α × List α)
  | [], q => .ok (q, [], [])
  | .enq v :: ops, q =>
    (q.enq v).bind fun r =>
      (Queue.runOps s ops r.2).bind fun t =>
        .ok (t.1, (if r.1 = .ok then v :: t.2.1 else t.2.1), t.2.2)
  | .deq :: ops, q =>
    (q.deq s).bind fun r =>
      (Queue.runOps s ops r.2).bind fun t => .ok (t.1, t.2.1, r.1.toList ++ t.2.2)

end Sys2Proof.Machine
end

