-- ==== Sys2Proof/Certificates/Slice0/Obligations.lean ====
section
/-! DEFINITION. The statements for the provers, each from numbered rules of spec/. A statement of an instruction's result
is an equation `exec i s = .next t` that gives the whole of `t`: what it does not name is unchanged, every storage cell
and queue cell with it. -/

open Sys2Proof Sys2Proof.Machine

/-! ## Encodings -/

/-- Words written out from R74 and R80 decode to the instructions they stand for (vector V-E8, V-E1, V-E2). -/
def Obligations.WordsOfTheSpecDecode : Prop :=
  decodeTableWord 8 0x00 = some .processByte ∧ decodeTableWord 8 0x02 = some (.dequeueFrame .fc) ∧
    decodeTableWord 8 0x04 = some (.readPassthrough .pc) ∧ decodeTableWord 8 0x07 = some (.reserved 0x07) ∧
    decodeTableWord 8 0x08 = some (.reserved 0x08) ∧ decodeTableWord 16 0x00D = some .preStart ∧
    decodeTableWord 16 0x332 = some (.lenBad 0x32) ∧ decodeTableWord 16 0x51E = some .endOk ∧
    decodeTableWord 16 0x41E = some (.msgByte 0x1E) ∧ decodeTableWord 16 0x600 = none

/-- Decoding the words of a well-formed instruction gives it back, with every operand, under every register value its
`cond` column admits (R74, R80). The two internal steps have no word. -/
def Obligations.DecodeOfEncode : Prop :=
  ∀ (i : Instr) (c : RowCond), i.wellFormed = true → i.condHolds c = true → i ≠ .replay → i ≠ .finish →
    decode (encode i) c = .ok i

/-- Within a state the rows of R74 cover every byte and every register value that can occur, and are disjoint: some
well-formed row is selected whose condition holds and whose `match` and `mask` fit the word, and it is the only one. -/
def Obligations.EveryByteSelectsOneRow : Prop :=
  ∀ (st : FsmState) (b : Byte) (c : RowCond), st ≠ .unused6 → st ≠ .unused7 → (st = .messageWait → 1 ≤ c.rem) →
    (∃ i m k, decodeDispatch (dispatchWord st b) c = .ok i ∧ i.wellFormed = true ∧ i.condHolds c = true ∧
      encode i = .dispatch (dispatchWord st b) ∧ i.matchMask = some (m, k) ∧ dispatchWord st b &&& k = m) ∧
    ∀ i j, i.wellFormed = true → j.wellFormed = true → i.condHolds c = true → j.condHolds c = true →
      encode i = .dispatch (dispatchWord st b) → encode j = .dispatch (dispatchWord st b) → i = j

/-- The state codes of R75, and back. -/
def Obligations.StateCodesOfTheSpec : Prop :=
  FsmState.code .preambleWait = 0b000#3 ∧ FsmState.code .versionWait = 0b001#3 ∧ FsmState.code .titleWait = 0b010#3 ∧
    FsmState.code .lengthWait = 0b011#3 ∧ FsmState.code .messageWait = 0b100#3 ∧ FsmState.code .endWait = 0b101#3 ∧
    FsmState.code .unused6 = 0b110#3 ∧ FsmState.code .unused7 = 0b111#3 ∧
    (∀ st : FsmState, FsmState.ofCode st.code = st) ∧ ∀ c : BitVec 3, (FsmState.ofCode c).code = c

/-- A command spells no operation exactly when `cmd[2:0] = 111` or one of `cmd[7:3]` is set, and the block then refuses
it: `refused` is set and nothing else changes (R81). -/
def Obligations.ReservedCommandsAreRefused : Prop :=
  (∀ t : Txn, (t.cmd.extractLsb' 0 3 = 0b111#3 ∨ t.cmd.extractLsb' 3 5 ≠ 0b00000#5 → decodeTxn t = .reserved t.cmd) ∧
    (¬ (t.cmd.extractLsb' 0 3 = 0b111#3 ∨ t.cmd.extractLsb' 3 5 ≠ 0b00000#5) → ∀ c, decodeTxn t ≠ .reserved c)) ∧
  ∀ (c : Byte) (s : State), exec (.reserved c) s = .next { s with refused := true }

/-! ## The step -/

/-- When a command stands at the head of the schedule, the step is `exec` of the instruction it decodes to, which is
well-formed, on the state without that head. (The schedule is the model's own, log 2.) -/
def Obligations.StepRunsTheIssuedCommand : Prop :=
  ∀ (s : State) (t : Txn) (rest : List Move), s.faults = [] → s.sched = .issue t :: rest →
    (decodeTxn t).wellFormed = true ∧ step s = exec (decodeTxn t) { s with sched := rest }

/-- A replay turn runs REPLAY where R140 enables it and is passed over elsewhere (log 10). -/
def Obligations.StepTakesTheReplayTurn : Prop :=
  ∀ (s : State) (rest : List Move), s.faults = [] → s.sched = .replay :: rest →
    (∀ i, s.phase = .replay i → i < s.scur → step s = exec .replay { s with sched := rest }) ∧
    ((∀ i, s.phase = .replay i → ¬ i < s.scur) → step s = .next { s with sched := rest })

/-- HOST's moves: append a byte to `rx` (R37), remove the front byte of `tx` (R38), fix the next draw (R89); a reset input
is refused (R191). Three points are the model's own choice: a draw already fixed is fixed anew (log 17), removing from an
empty `tx` changes nothing (log 29), and the move that asserts a reset input (log 18). -/
def Obligations.HostMovesActOutsideTheBlock : Prop :=
  ∀ (s : State) (rest : List Move), s.faults = [] →
    (∀ b, s.sched = .rx b :: rest → step s = .next { s with sched := rest, rx := s.rx ++ [b] }) ∧
    (∀ b out, s.sched = .takeTx :: rest → s.tx = b :: out → step s = .next { s with sched := rest, tx := out }) ∧
    (s.sched = .takeTx :: rest → s.tx = [] → step s = .next { s with sched := rest }) ∧
    (∀ d, s.sched = .alloc d :: rest → step s = .next { s with sched := rest, nextAlloc := some d }) ∧
    (s.sched = .reset :: rest → step s = .next { s with sched := rest, refused := true })

/-- Any move may come next (R61): whichever move of whichever agent the schedule names, the step makes it, on the state
without it; and when the schedule names none, the move is a free value. (Schedule and free value are the model's own,
log 2.) -/
def Obligations.AnyAgentMayMoveNext : Prop :=
  (∀ (m : Move) (s : State) (rest : List Move), s.faults = [] → s.sched = m :: rest →
    step s = applyMove m { s with sched := rest }) ∧
  ∀ s : State, s.faults = [] → s.sched = [] →
    step s = applyMove (Config.freeMove s.ticks) { s with ticks := s.ticks + 1 }

/-- Raising a fault adds its reason to the set, and once the set is not empty no step of any agent is enabled and
the state is no good end of a run (R176). -/
def Obligations.NoStepAfterAFault : Prop :=
  (∀ (r x : FaultReason) (s : State), x ∈ (s.recordFault r).faults ↔ x = r ∨ x ∈ s.faults) ∧
    ∀ s : State, s.faults ≠ [] → step s = .fault .halted ∧ ¬ s.endsWell

/-- What a run has marked it never clears: `faults` (R176), `refused` (R177); and results already returned stay (log 4).
Said of every instruction and of every move, in any state. -/
def Obligations.MarksAreNeverCleared : Prop :=
  (∀ (i : Instr) (s t : State), exec i s = .next t →
    (∀ r ∈ s.faults, r ∈ t.faults) ∧ (s.refused = true → t.refused = true) ∧ ∃ more, t.results = s.results ++ more) ∧
  ∀ (m : Move) (s t : State), applyMove m s = .next t →
    (∀ r ∈ s.faults, r ∈ t.faults) ∧ (s.refused = true → t.refused = true) ∧ ∃ more, t.results = s.results ++ more

/-! ## Queues -/

/-- `Enq(Q, v)` (R101), on a queue of either kind of item. -/
def Obligations.EnqAppendsOrAnswersFull : Prop :=
  ∀ (α : Type) (q : Queue α) (v : α),
    (q.fill < q.cell.length → q.wr < q.cell.length → q.enq v = .ok (.ok, q.withItem v)) ∧
    (q.cell.length ≤ q.fill → q.enq v = .ok (.full, q))

/-- `Deq(Q)` (R102), on a queue of either kind of item. -/
def Obligations.DeqRemovesTheOldestOrAnswersEmpty : Prop :=
  ∀ (α : Type) (q : Queue α) (s : State),
    (∀ v, 0 < q.fill → q.cell[q.rd]? = some (some v) → q.deq s = .ok (some v, q.withoutHead)) ∧
    (q.fill = 0 → q.deq s = .ok (none, q))

/-- First in, first out (R111), for any sequence of operations on a queue that meets R35: it raises nothing, and the
items dequeued, then those still queued, are the items there at first, then the items enqueued with `Ok`. -/
def Obligations.QueueIsFirstInFirstOut : Prop :=
  ∀ (α : Type) (ops : List (QueueOp α)) (q : Queue α) (s : State), q.Ok →
    ∃ q' put got, Queue.runOps s ops q = .ok (q', put, got) ∧ q'.Ok ∧ q'.cap = q.cap ∧
      got ++ q'.items = q.items ++ put

/-- A `Full` result leaves the queue unchanged, and after one `Deq` the next `Enq` succeeds (R110). -/
def Obligations.FullLeavesTheQueueUsable : Prop :=
  ∀ (α : Type) (q : Queue α) (v w : α) (s : State), q.Ok → q.fill = q.cell.length →
    q.enq v = .ok (.full, q) ∧
    ∃ x q₁ q₂, q.deq s = .ok (some x, q₁) ∧ q₁.enq w = .ok (.ok, q₂) ∧ q₂.Ok ∧ q₂.items = q₁.items ++ [w]

/-- FRAME_AVAILABLE and PASSTHROUGH_AVAILABLE return the fill count to whichever agent issued them, a count from 0 to the
capacity, and write no state (R104, R106). -/
def Obligations.CountReadsReturnTheFill : Prop :=
  ∀ (a : Agent) (s : State),
    exec (.frameAvailable a) s =
      .next { s with results := s.results ++ [{ agent := a, code := .ok, data := some (.count s.fq.fill) }] } ∧
    exec (.passthroughAvailable a) s =
      .next { s with results := s.results ++ [{ agent := a, code := .ok, data := some (.count s.pq.fill) }] } ∧
    (s.fq.Ok → s.fq.fill ≤ s.fq.cell.length) ∧ (s.pq.Ok → s.pq.fill ≤ s.pq.cell.length)

/-- DEQUEUE_FRAME takes the oldest frame, or answers `Empty` and changes nothing (R105). -/
def Obligations.DequeueFrameTakesTheOldest : Prop :=
  ∀ s : State,
    (∀ fr, 0 < s.fq.fill → s.fq.cell[s.fq.rd]? = some (some fr) →
      exec (.dequeueFrame .fc) s =
        .next { s with
          fq := s.fq.withoutHead,
          results := s.results ++ [{ agent := .fc, code := .ok, data := some (.frame fr) }] }) ∧
    (s.fq.fill = 0 →
      exec (.dequeueFrame .fc) s =
        .next { s with results := s.results ++ [{ agent := .fc, code := .empty, data := none }] })

/-- READ_PASSTHROUGH takes the oldest passthrough byte, or answers `Empty` and changes nothing (R107). -/
def Obligations.ReadPassthroughTakesTheOldest : Prop :=
  ∀ s : State,
    (∀ b, 0 < s.pq.fill → s.pq.cell[s.pq.rd]? = some (some b) →
      exec (.readPassthrough .pc) s =
        .next { s with
          pq := s.pq.withoutHead,
          results := s.results ++ [{ agent := .pc, code := .ok, data := some (.byte b) }] }) ∧
    (s.pq.fill = 0 →
      exec (.readPassthrough .pc) s =
        .next { s with results := s.results ++ [{ agent := .pc, code := .empty, data := none }] })

/-- A dequeue by an agent that is not the queue's consumer is refused, and no operation but the framer's enqueues
(R113). -/
def Obligations.OneConsumerAndOneProducer : Prop :=
  (∀ (a : Agent) (s : State), a ≠ .fc → exec (.dequeueFrame a) s = .next { s with refused := true }) ∧
  (∀ (a : Agent) (s : State), a ≠ .pc → exec (.readPassthrough a) s = .next { s with refused := true }) ∧
  ∀ (i : Instr) (s t : State), notFramer i = true → exec i s = .next t →
    t.pq.wr = s.pq.wr ∧ t.fq.wr = s.fq.wr ∧ t.pq.fill ≤ s.pq.fill ∧ t.fq.fill ≤ s.fq.fill

/-- Each field is written only by the operations of the agents R41 lists. No command but the framer's writes the framer's
registers, a write index or, but at the read position, a cell; only a dequeue by its consumer moves a read index, lowers
a fill count or writes a cell but at the write position; only PROCESS_BYTE removes the head of `rx`; only SEND_FRAME
writes `tx`, at its end; of the commands only RELEASE and the framer's write `live` and `freed`. HOST's moves write none of
these but the end of `rx` and the front of `tx`. (PROCESS_BYTE is the framer's operation whichever agent issues it, and so
SEND_FRAME the sender's, log 7.) -/
def Obligations.FieldsHaveOneWriter : Prop :=
  (∀ (i : Instr) (s t : State), exec i s = .next t →
    (notFramer i = true →
      FramerSame s t ∧ t.pq.wr = s.pq.wr ∧ t.fq.wr = s.fq.wr ∧ t.pq.fill ≤ s.pq.fill ∧ t.fq.fill ≤ s.fq.fill ∧
        CellsSameBut s.pq t.pq s.pq.rd ∧ CellsSameBut s.fq t.fq s.fq.rd) ∧
    (i ≠ .dequeueFrame .fc → t.fq.rd = s.fq.rd ∧ s.fq.fill ≤ t.fq.fill ∧ CellsSameBut s.fq t.fq s.fq.wr) ∧
    (i ≠ .readPassthrough .pc → t.pq.rd = s.pq.rd ∧ s.pq.fill ≤ t.pq.fill ∧ CellsSameBut s.pq t.pq s.pq.wr) ∧
    (notFramer i = true → i ≠ .dequeueFrame .fc → t.fq = s.fq) ∧
    (notFramer i = true → i ≠ .readPassthrough .pc → t.pq = s.pq) ∧
    (t.rx = s.rx ∨ i = .processByte ∧ t.rx = s.rx.tail) ∧
    (t.tx = s.tx ∨ ∃ fr more, i = .sendFrame fr ∧ t.tx = s.tx ++ more) ∧
    (notFramer i = true → (∀ fr, i ≠ .release fr) → t.live = s.live ∧ t.freed = s.freed)) ∧
  ∀ (m : Move) (s t : State), (∀ x, m ≠ .issue x) → m ≠ .replay → applyMove m s = .next t →
    FramerSame s t ∧ t.pq = s.pq ∧ t.fq = s.fq ∧ t.live = s.live ∧ t.freed = s.freed ∧
      (∃ more, t.rx = s.rx ++ more) ∧ (t.tx = s.tx ∨ t.tx = s.tx.tail)

/-! ## The rows of the framing state machine -/

/-- PRE_START (R123). -/
def Obligations.PreStartBeginsAFrame : Prop :=
  ∀ s : State, s.state = .preambleWait → 0 < s.scratch.length →
    exec .preStart s =
      .next { s with pending := false, scratch := s.scratch.set 0 (some 0x0D), scur := 1, state := .versionWait }

/-- PRE_PASS (R124): the byte is offered to `P`, and a full `P` drops it silently. -/
def Obligations.PrePassOffersTheByte : Prop :=
  ∀ (s : State) (b : Byte), s.state = .preambleWait → b ≠ 0x0D →
    (s.pq.fill < s.pq.cell.length → s.pq.wr < s.pq.cell.length →
      exec (.prePass b) s = .next { s with pq := s.pq.withItem b }) ∧
    (s.pq.cell.length ≤ s.pq.fill → exec (.prePass b) s = .next s)

/-- VER_OK (R125). -/
def Obligations.VerOkStoresTheVersion : Prop :=
  ∀ s : State, s.state = .versionWait → s.scur < s.scratch.length →
    exec .verOk s =
      .next { s with
        scratch := s.scratch.set s.scur (some 0x01), scur := s.scur + 1, fVersion := some 0x01, state := .titleWait }

/-- VER_BAD (R126): the byte is captured and the abort is pending. -/
def Obligations.VerBadSetsPending : Prop :=
  ∀ (s : State) (b : Byte), s.state = .versionWait → b ≠ 0x01 → s.scur < s.scratch.length →
    exec (.verBad b) s =
      .next { s with scratch := s.scratch.set s.scur (some b), scur := s.scur + 1, pending := true }

/-- TITLE (R127). -/
def Obligations.TitleStoresAnyByte : Prop :=
  ∀ (s : State) (b : Byte), s.state = .titleWait → s.scur < s.scratch.length →
    exec (.title b) s =
      .next { s with
        scratch := s.scratch.set s.scur (some b), scur := s.scur + 1, fTitle := some b, state := .lengthWait }

/-- LEN_ZERO (R128): no draw, no allocation. -/
def Obligations.LenZeroSkipsThePayload : Prop :=
  ∀ s : State, s.state = .lengthWait → s.scur < s.scratch.length →
    exec .lenZero s =
      .next { s with
        scratch := s.scratch.set s.scur (some 0), scur := s.scur + 1, fLength := some 0, state := .endWait }

/-- LEN_ALLOC (R129), for a draw fixed by the host and for a free one: the handle is fresh. -/
def Obligations.LenAllocTakesAFreshHandle : Prop :=
  ∀ (s : State) (b : Byte) (h : Handle), s.state = .lengthWait → 1 ≤ b.toNat → b.toNat ≤ 49 →
    s.scur < s.scratch.length → s.peekDraw = .ok h →
    ∃ k, k ∉ s.live ∧ k ∉ s.freed ∧ (h ∉ s.live → h ∉ s.freed → k = h) ∧
      exec (.lenAlloc b) s =
        .next { s with
          scratch := s.scratch.set s.scur (some b), scur := s.scur + 1, fLength := some b,
          live := insertHandle k s.live, fHandle := some k, pbuf := clearCells s.pbuf b.toNat, pcur := 0,
          rem := b.toNat, state := .messageWait, nextAlloc := none,
          ticks := if s.nextAlloc.isSome then s.ticks else s.ticks + 1 }

/-- LEN_NOMEM (R130). -/
def Obligations.LenNomemSetsPending : Prop :=
  ∀ (s : State) (b : Byte), s.state = .lengthWait → 1 ≤ b.toNat → b.toNat ≤ 49 →
    s.scur < s.scratch.length → s.peekDraw = .fail →
    exec (.lenNomem b) s =
      .next { s with
        scratch := s.scratch.set s.scur (some b), scur := s.scur + 1, fLength := some b, pending := true,
        nextAlloc := none, ticks := if s.nextAlloc.isSome then s.ticks else s.ticks + 1 }

/-- LEN_BAD (R131): no draw is taken. -/
def Obligations.LenBadSetsPending : Prop :=
  ∀ (s : State) (b : Byte), s.state = .lengthWait → 50 ≤ b.toNat → s.scur < s.scratch.length →
    exec (.lenBad b) s =
      .next { s with
        scratch := s.scratch.set s.scur (some b), scur := s.scur + 1, fLength := some b, pending := true }

/-- MSG_BYTE (R132): the byte is stored whatever its value. MessageWait's pending clause (R134), were it ever taken, would
release the payload if one is held: R134 lets a model keep or leave out that clause, and this one keeps it (log 26). -/
def Obligations.MsgByteStoresAnyByte : Prop :=
  ∀ (s t : State) (b : Byte), s.state = .messageWait → 2 ≤ s.rem → s.scur < s.scratch.length → s.pcur < s.pbuf.length →
    t = { s with
      scratch := s.scratch.set s.scur (some b), scur := s.scur + 1, pbuf := s.pbuf.set s.pcur (some b),
      pcur := s.pcur + 1, rem := s.rem - 1 } →
    (s.pending = false ∨ s.fHandle = none → exec (.msgByte b) s = .next t) ∧
    ∀ h, s.pending = true → s.fHandle = some h →
      exec (.msgByte b) s =
        .next { t with fHandle := none, live := removeHandle h s.live, freed := insertHandle h s.freed }

/-- MSG_LAST (R133): the last payload byte is stored whatever its value, and EndWait follows; the pending clause (R134,
log 26) as in MSG_BYTE. -/
def Obligations.MsgLastMovesToEndWait : Prop :=
  ∀ (s t : State) (b : Byte), s.state = .messageWait → s.rem = 1 → s.scur < s.scratch.length → s.pcur < s.pbuf.length →
    t = { s with
      scratch := s.scratch.set s.scur (some b), scur := s.scur + 1, pbuf := s.pbuf.set s.pcur (some b),
      pcur := s.pcur + 1, rem := 0, state := .endWait } →
    (s.pending = false ∨ s.fHandle = none → exec (.msgLast b) s = .next t) ∧
    ∀ h, s.pending = true → s.fHandle = some h →
      exec (.msgLast b) s =
        .next { t with fHandle := none, live := removeHandle h s.live, freed := insertHandle h s.freed }

/-- END_OK (R135): the record of the frame in progress goes into `F`, and the framer's handle with it. -/
def Obligations.EndOkEnqueuesTheFrame : Prop :=
  ∀ (s : State) (fr : FrameRec), s.state = .endWait → s.scur < s.scratch.length → s.fq.fill < s.fq.cell.length →
    s.fq.wr < s.fq.cell.length → FrameInProgress s fr →
    exec .endOk s =
      .next { s with
        scratch := s.scratch.set s.scur (some 0x1E), scur := s.scur + 1, fq := s.fq.withItem fr, fHandle := none,
        state := .preambleWait }

/-- END_FULL (R136): `F` is unchanged, the abort is pending, and the payload is released if there is one (R138). -/
def Obligations.EndFullReleasesAndAborts : Prop :=
  ∀ (s : State) (fr : FrameRec), s.state = .endWait → s.scur < s.scratch.length → s.fq.cell.length ≤ s.fq.fill →
    FrameInProgress s fr →
    (s.fHandle = none →
      exec .endFull s =
        .next { s with scratch := s.scratch.set s.scur (some 0x1E), scur := s.scur + 1, pending := true }) ∧
    ∀ h, s.fHandle = some h →
      exec .endFull s =
        .next { s with
          scratch := s.scratch.set s.scur (some 0x1E), scur := s.scur + 1, pending := true, fHandle := none,
          live := removeHandle h s.live, freed := insertHandle h s.freed }

/-- END_BAD (R137): the abort is pending, and the payload is released if there is one (R138). -/
def Obligations.EndBadReleasesAndAborts : Prop :=
  ∀ (s : State) (b : Byte), s.state = .endWait → b ≠ 0x1E → s.scur < s.scratch.length →
    (s.fHandle = none →
      exec (.endBad b) s =
        .next { s with scratch := s.scratch.set s.scur (some b), scur := s.scur + 1, pending := true }) ∧
    ∀ h, s.fHandle = some h →
      exec (.endBad b) s =
        .next { s with
          scratch := s.scratch.set s.scur (some b), scur := s.scur + 1, pending := true, fHandle := none,
          live := removeHandle h s.live, freed := insertHandle h s.freed }

/-! ## PROCESS_BYTE -/

/-- A call at a call boundary (R120). With an empty source it changes nothing. Else it reads the head of `rx` and applies
the rule of the row that the state and the byte select, as the row's own statement gives it; and if the call began outside
PreambleWait and the row set `pending`, the replay begins (R139). A state that holds an unused code is recorded as
BadState. -/
def Obligations.ProcessByteRunsTheSelectedRow : Prop :=
  (∀ s : State, s.phase = .idle → s.rx = [] → exec .processByte s = .next s) ∧
  (∀ (s t : State) (b : Byte) (rest : List Byte) (i : Instr), s.phase = .idle → s.faults = [] → s.rx = b :: rest →
    decodeDispatch (dispatchWord s.state b) s.rowCond = .ok i → exec i { s with rx := rest } = .next t → t.faults = [] →
    exec .processByte s =
      .next (if s.state ≠ .preambleWait ∧ t.pending = true then { t with phase := .replay 0 } else t)) ∧
  ∀ (s : State) (b : Byte) (rest : List Byte), s.phase = .idle → s.rx = b :: rest →
    s.state = .unused6 ∨ s.state = .unused7 →
    ∃ t, exec .processByte s = .next t ∧ t.faults = (s.recordFault .badState).faults

/-- In every state that meets the invariant a call with a byte to read completes, whatever the byte: it takes that byte
and no other, raises nothing, refuses nothing, and returns nothing (R77, R83, R120). -/
def Obligations.ProcessByteAcceptsEveryByte : Prop :=
  ∀ (s : State) (b : Byte) (rest : List Byte), s.Inv → s.phase = .idle → s.rx = b :: rest →
    ∃ t, exec .processByte s = .next t ∧ t.rx = rest ∧ t.faults = s.faults ∧ t.refused = s.refused ∧
      t.results = s.results ∧ t.tx = s.tx

/-- A call that finds an unused state code records BadState (R85); the byte it read is gone (log 6). -/
def Obligations.UnusedStateCodeIsRecorded : Prop :=
  ∀ (s : State) (b : Byte) (rest : List Byte), s.phase = .idle → s.faults = [] → s.rx = b :: rest →
    s.state = .unused6 ∨ s.state = .unused7 →
    exec .processByte s = .next { s with rx := rest, faults := [.badState] }

/-- A PROCESS_BYTE issued while `phase` is not Idle, from any agent, is refused and changes no other state (R155). -/
def Obligations.ReentrantCallIsRefused : Prop :=
  ∀ (s : State) (t : Txn), t.cmd = 0x00 → s.phase ≠ .idle → exec (decodeTxn t) s = .next { s with refused := true }

/-- The abort causes are the five of R172: in a state that meets the invariant, a call starts a replay exactly on one of
them, and the payload is released by then. -/
def Obligations.TheFiveAbortCauses : Prop :=
  ∀ (s t : State) (b : Byte) (rest : List Byte), s.Inv → s.phase = .idle → s.rx = b :: rest →
    exec .processByte s = .next t →
    (t.phase = .replay 0 ↔
      (s.state = .versionWait ∧ b ≠ 0x01) ∨
      (s.state = .lengthWait ∧ 1 ≤ b.toNat ∧ b.toNat ≤ 49 ∧ s.peekDraw = .fail) ∨
      (s.state = .lengthWait ∧ 0x32 ≤ b.toNat) ∨
      (s.state = .endWait ∧ b = 0x1E ∧ s.fq.fill = s.fq.cell.length) ∨
      (s.state = .endWait ∧ b ≠ 0x1E)) ∧
    (t.phase ≠ .idle → t.pending = true ∧ t.fHandle = none)

/-- A call makes at most one transition of `state` (R142). Its first step leaves it or moves it along an arrow of R154; in a
state that meets the invariant a first step after which the call goes on leaves it; and a replay step leaves it, but for
the one that ends the call, in PreambleWait. (No other move writes `state`: FieldsHaveOneWriter.) -/
def Obligations.AtMostOneTransition : Prop :=
  (∀ s t : State, exec .processByte s = .next t →
    t.state = s.state ∨
      (s.state, t.state) ∈
        [(FsmState.preambleWait, FsmState.versionWait), (.versionWait, .titleWait), (.titleWait, .lengthWait),
          (.lengthWait, .endWait), (.lengthWait, .messageWait), (.messageWait, .endWait), (.endWait, .preambleWait)]) ∧
  (∀ s t : State, s.Inv → s.phase = .idle → exec .processByte s = .next t → t.phase ≠ .idle → t.state = s.state) ∧
  ∀ s t : State, exec .replay s = .next t → t.state = s.state ∨ t.state = .preambleWait ∧ t.phase = .idle

/-- Bytes are captured in the order they are read (R24, R122, R151): outside PreambleWait a call appends its byte to the
captured bytes; in PreambleWait a preamble starts them afresh, and any other byte leaves them and goes to `P` if it fits. -/
def Obligations.BytesAreCapturedInOrder : Prop :=
  ∀ (s t : State) (b : Byte) (rest : List Byte), s.Inv → s.phase = .idle → s.rx = b :: rest →
    exec .processByte s = .next t →
    (s.state ≠ .preambleWait → t.capturedBytes = s.capturedBytes ++ [b] ∧ t.pq = s.pq) ∧
    (s.state = .preambleWait → b = 0x0D → t.capturedBytes = [0x0D] ∧ t.pq = s.pq) ∧
    (s.state = .preambleWait → b ≠ 0x0D →
      t.capturedBytes = s.capturedBytes ∧ t.fq = s.fq ∧
        t.pq.items = if s.pq.fill < s.pq.cell.length then s.pq.items ++ [b] else s.pq.items)

/-! ## The replay -/

/-- A replay step offers `scratch[i]` to `P`, dropping it silently when `P` is full, and the last step finishes the replay
in the same step (R140). -/
def Obligations.ReplayOffersOneByte : Prop :=
  ∀ (s : State) (i : Nat) (b : Byte) (q : Queue Byte), s.phase = .replay i → i < s.scur →
    s.scratch[i]? = some (some b) →
    (s.pq.fill < s.pq.cell.length ∧ s.pq.wr < s.pq.cell.length ∧ q = s.pq.withItem b ∨
      s.pq.cell.length ≤ s.pq.fill ∧ q = s.pq) →
    (i + 1 ≠ s.scur → exec .replay s = .next { s with pq := q, phase := .replay (i + 1) }) ∧
    (i + 1 = s.scur →
      exec .replay s = .next { s with pq := q, state := .preambleWait, pending := false, phase := .idle })

/-- `Finish()` (R141): `scur` and `scratch` keep their values. -/
def Obligations.FinishReturnsToPreambleWait : Prop :=
  ∀ s : State, exec .finish s = .next { s with state := .preambleWait, pending := false, phase := .idle }

/-- REPLAY is enabled only for `phase = Replay(i)` with `i < scur` (R140); asked for elsewhere it is refused by name
(log 9). -/
def Obligations.ReplayNeedsAReplayInProgress : Prop :=
  ∀ s : State, (∀ i, s.phase = .replay i → s.scur ≤ i) → exec .replay s = .refused .notEnabled

/-- While a call replays, in a state that meets the invariant, the replay step is enabled, and no move but the replay's own
ends it, puts it off or changes what it has left to offer (R156). -/
def Obligations.ReplayStaysEnabled : Prop :=
  ∀ (s : State) (i : Nat), s.Inv → s.phase = .replay i →
    s.replayEnabled = true ∧
    ∀ (m : Move) (t : State), m ≠ .replay → applyMove m s = .next t →
      t.phase = .replay i ∧ t.replayEnabled = true ∧ t.scur = s.scur ∧ t.scratch = s.scratch ∧ t.rx.take s.rx.length = s.rx

/-- Self-healing (R143, R144, R156): from any state that meets the invariant and is replaying, as many replay turns as
bytes remain, at most 54, end the call in PreambleWait with `pending` clear, and with no step between them `P` receives
the remaining captured bytes, in order, as far as it has room. -/
def Obligations.EveryAbortHealsItself : Prop :=
  ∀ (s : State) (i : Nat) (rest : List Move), s.Inv → s.faults = [] → s.phase = .replay i →
    s.sched = List.replicate (s.scur - i) .replay ++ rest →
    s.scur - i ≤ 54 ∧
    ∃ t, Host.Core.run core (s.scur - i) s = .next t ∧ t.sched = rest ∧ t.state = .preambleWait ∧ t.pending = false ∧
      t.phase = .idle ∧
      t.pq.items = s.pq.items ++ (s.capturedBytes.drop i).take (s.pq.cell.length - s.pq.fill) ∧
      t.fq = s.fq ∧ t.live = s.live ∧ t.freed = s.freed ∧ t.rx = s.rx

/-- Once started, a replay finishes (R156, R204): in every run that is weakly fair to the replay, from a state that meets
the invariant, a call that replays reaches its end, in PreambleWait with `pending` clear, and `state` does not change before
it. -/
def Obligations.FairRunsFinishEveryReplay : Prop :=
  ∀ (moves : Nat → Move) (r : Nat → State), FairRun moves r → (r 0).Inv →
    ∀ n i, (r n).phase = .replay i →
      ∃ k, n < k ∧ (r k).phase = .idle ∧ (r k).state = .preambleWait ∧ (r k).pending = false ∧
        ∀ j, n ≤ j → j < k → (r j).phase ≠ .idle ∧ (r j).state = (r n).state

/-- No agent is required ever to issue an operation (R204): from every state that meets the invariant and has recorded no
fault, every sequence of moves is a run, for as long as no fault is recorded; with no RELEASE among them it is a run without
end; and with no move at all but the replay's turns it is a run without end that is fair. -/
def Obligations.EveryScheduleIsARun : Prop :=
  ∀ s : State, s.Inv → s.faults = [] →
    (∀ moves : Nat → Move, ∃ r : Nat → State, r 0 = s ∧ (∀ n, (r n).faults = [] → StepBy (moves n) (r n) (r (n + 1))) ∧
      ((∀ n x fr, moves n = .issue x → decodeTxn x ≠ .release fr) → IsRun moves r)) ∧
    ∃ r : Nat → State, r 0 = s ∧ FairRun (fun _ => .replay) r

/-! ## Sender and release -/

/-- SEND_FRAME writes preamble, version, title, length, payload and terminator, `5 + L` bytes in issue order, for a record
whose payload matches its length (R160, R161), and refuses any other (R162). -/
def Obligations.SendFrameWritesTheWireFormat : Prop :=
  (∀ (s : State) (v t : Byte),
    exec (.sendFrame { version := v, title := t, length := 0, payload := none }) s =
      .next { s with tx := s.tx ++ [0x0D, v, t, 0x00, 0x1E] }) ∧
  (∀ (s : State) (v t len : Byte) (h : Handle) (bs : List Byte), 0 < len.toNat → bs.length = len.toNat →
    exec (.sendFrame { version := v, title := t, length := len, payload := some { handle := h, bytes := bs } }) s =
        .next { s with tx := s.tx ++ ([0x0D, v, t, len] ++ bs ++ [0x1E]) } ∧
      ([0x0D, v, t, len] ++ bs ++ [(0x1E : Byte)]).length = 5 + len.toNat) ∧
  (∀ (s : State) (fr : FrameRec),
    ¬ (fr.payload = none ∧ fr.length = 0 ∨
      ∃ p, fr.payload = some p ∧ 0 < fr.length.toNat ∧ p.bytes.length = fr.length.toNat) →
    exec (.sendFrame fr) s = .next { s with refused := true }) ∧
  ∀ (s t u : State) (fr gr : FrameRec), sendOperandOk fr = true → sendOperandOk gr = true →
    exec (.sendFrame fr) s = .next t → exec (.sendFrame gr) t = .next u → u.tx = s.tx ++ wireBytes fr ++ wireBytes gr

/-- RELEASE (R164), case by case. -/
def Obligations.ReleaseFollowsOwnership : Prop :=
  (∀ (s : State) (fr : FrameRec), fr.payload = none → exec (.release fr) s = .next s) ∧
  ∀ (s : State) (fr : FrameRec) (p : Payload), fr.payload = some p →
    (p.handle ∈ s.live → s.fHandle = some p.handle ∨ p.handle ∈ s.queuedHandles →
      exec (.release fr) s = .next (s.recordFault .releaseNotOwned)) ∧
    (p.handle ∈ s.live → ¬ (s.fHandle = some p.handle ∨ p.handle ∈ s.queuedHandles) →
      exec (.release fr) s =
        .next { s with live := removeHandle p.handle s.live, freed := insertHandle p.handle s.freed }) ∧
    (p.handle ∉ s.live → p.handle ∈ s.freed → exec (.release fr) s = .next (s.recordFault .doubleRelease)) ∧
    (p.handle ∉ s.live → p.handle ∉ s.freed → exec (.release fr) s = .next s)

/-- The allocator's books (R36, R166), in every state: a step only adds to `freed`; what leaves `live` is in `freed`; what
enters `live` was in neither, so a freed handle is never allocated again. -/
def Obligations.FreedHandlesStayFreed : Prop :=
  ∀ s t : State, step s = .next t →
    (∀ h ∈ s.freed, h ∈ t.freed) ∧ (∀ h ∈ s.live, h ∈ t.live ∨ h ∈ t.freed) ∧
      (∀ h ∈ t.live, h ∈ s.live ∨ h ∉ s.freed) ∧ ∀ h ∈ t.freed, h ∈ s.freed ∨ h ∈ s.live ∨ s.fHandle = some h

/-- Leaks (R167), in every state that meets the invariant: a leaked handle was returned to a caller and is not in `freed`;
a step leaks no handle but the one of the frame its own DEQUEUE_FRAME returns; and a leaked handle stays leaked until a
RELEASE of a record that names it frees it. -/
def Obligations.LeakedHandlesWereDequeued : Prop :=
  (∀ (s : State) (h : Handle), s.Inv → s.leaked h → h ∈ s.returnedHandles ∧ h ∉ s.freed) ∧
  ∀ s t : State, s.Inv → step s = .next t →
    (∀ h, t.leaked h → ¬ s.leaked h →
      ∃ x fr, s.nextMove.1 = .issue x ∧ decodeTxn x = .dequeueFrame .fc ∧ fr.handle? = some h ∧
        t.results = s.results ++ [{ agent := .fc, code := .ok, data := some (.frame fr) }]) ∧
    ∀ h, s.leaked h →
      t.leaked h ∨
        h ∈ t.freed ∧ ∃ x fr, s.nextMove.1 = .issue x ∧ decodeTxn x = .release fr ∧ fr.handle? = some h

/-! ## Reset -/

/-- Construction (R190): refused unless every capacity is large enough, and otherwise every field at its value in R47. -/
def Obligations.ConstructionFollowsTheResetTable : Prop :=
  (∀ p f c : Nat, 1 ≤ p → 1 ≤ f → 54 ≤ c → ∃ s, State.construct p f c = .next s ∧
    s.state = .preambleWait ∧ s.pending = false ∧ s.scratch = List.replicate c none ∧ s.scur = 0 ∧
    s.fVersion = none ∧ s.fTitle = none ∧ s.fLength = none ∧ s.fHandle = none ∧ s.pbuf = List.replicate 49 none ∧
    s.pcur = 0 ∧ s.rem = 0 ∧ s.phase = .idle ∧
    s.pq = { cell := List.replicate p none, wr := 0, rd := 0, fill := 0 } ∧
    s.fq = { cell := List.replicate f none, wr := 0, rd := 0, fill := 0 } ∧
    s.live = [] ∧ s.freed = [] ∧ s.faults = [] ∧ s.refused = false) ∧
  ∀ p f c : Nat, ¬ (1 ≤ p ∧ 1 ≤ f ∧ 54 ≤ c) → State.construct p f c = .refused .zeroCapacity

/-- Right after construction either count is 0 and either dequeue answers `Empty` (R192). -/
def Obligations.EmptyQueuesAfterReset : Prop :=
  ∀ (p f c : Nat) (s : State), State.construct p f c = .next s →
    s.state = .preambleWait ∧ s.phase = .idle ∧ s.pending = false ∧
    exec (.frameAvailable .fc) s = .next { s with results := [{ agent := .fc, code := .ok, data := some (.count 0) }] } ∧
    exec (.passthroughAvailable .pc) s =
      .next { s with results := [{ agent := .pc, code := .ok, data := some (.count 0) }] } ∧
    exec (.dequeueFrame .fc) s = .next { s with results := [{ agent := .fc, code := .empty, data := none }] } ∧
    exec (.readPassthrough .pc) s = .next { s with results := [{ agent := .pc, code := .empty, data := none }] }

/-! ## Invariants -/

/-- The invariant of Safety.lean (R11, R20, R34, R35, R44, R45, R46) holds at reset, and after every construction. -/
def Obligations.InvariantHoldsAtReset : Prop :=
  State.reset.Inv ∧ ∀ (p f c : Nat) (s : State), State.construct p f c = .next s → s.Inv

/-- Every step keeps the invariant, whichever agent takes it. -/
def Obligations.EveryStepKeepsTheInvariant : Prop :=
  ∀ s t : State, s.Inv → step s = .next t → t.Inv

/-- From a state that meets the invariant the only faults a step records are those of RELEASE: ReadUnwritten,
ScratchOverflow and BadState are unreachable (R153, R178, R194). -/
def Obligations.OnlyReleaseCanFault : Prop :=
  ∀ s t : State, s.Inv → step s = .next t → ∀ r ∈ t.faults, r = .doubleRelease ∨ r = .releaseNotOwned

/-- From a state that meets the invariant and has recorded no fault, every step completes: no agent's move stops the
machine (R100, R112, R144). -/
def Obligations.NoStepStopsTheMachine : Prop :=
  ∀ s : State, s.Inv → s.faults = [] → ∃ t, step s = .next t

/-- Capacities are fixed at construction (R57, R190): no step changes the size of an array. -/
def Obligations.CapacitiesAreFixed : Prop :=
  ∀ s t : State, step s = .next t →
    t.scratch.length = s.scratch.length ∧ t.pbuf.length = s.pbuf.length ∧
      t.pq.cell.length = s.pq.cell.length ∧ t.fq.cell.length = s.fq.cell.length

/-! ## Round trip -/

/-- Round trip (R150): feed the bytes SEND_FRAME writes for a well-formed record, one per call, to a framer in PreambleWait
at a call boundary, with a draw that answers `ok` and a free cell in `F`. Exactly one frame is enqueued, with the record's
version, title, length and payload bytes and a fresh handle, and nothing is offered to `P`. -/
def Obligations.SentFrameComesBack : Prop :=
  ∀ (s s₀ : State) (fr : FrameRec) (bytes : List Byte) (rest : List Move),
    FrameRec.wellFormed fr = true → exec (.sendFrame fr) s₀ = .next { s₀ with tx := s₀.tx ++ bytes } →
    s.Inv → s.faults = [] → s.phase = .idle → s.state = .preambleWait → s.rx = [] →
    (0 < fr.length.toNat → s.drawOk = true) → s.fq.fill < s.fq.cell.length → s.sched = feed bytes ++ rest →
    ∃ t gr, Host.Core.run core (2 * bytes.length) s = .next t ∧ t.sched = rest ∧ t.state = .preambleWait ∧
      t.phase = .idle ∧ t.faults = [] ∧ t.refused = s.refused ∧ t.pq = s.pq ∧ t.fq.items = s.fq.items ++ [gr] ∧
      gr.version = fr.version ∧ gr.title = fr.title ∧ gr.length = fr.length ∧ payloadBytes gr = payloadBytes fr ∧
      ∀ h ∈ gr.handle?, h ∉ s.live ∧ h ∉ s.freed
end

