-- ==== Sys2Proof/Laws/State.lean ====
section
/-! SUPPORT. What each named update of State leaves in each field, one simp lemma a field, so that no proof unfolds a
record update. -/

namespace Sys2Proof.Machine

/-! ### setPending -/

@[simp] theorem setPending_state (s : State) : (s.setPending).state = s.state := rfl
@[simp] theorem setPending_pending (s : State) : (s.setPending).pending = true := rfl
@[simp] theorem setPending_scratch (s : State) : (s.setPending).scratch = s.scratch := rfl
@[simp] theorem setPending_scur (s : State) : (s.setPending).scur = s.scur := rfl
@[simp] theorem setPending_fVersion (s : State) : (s.setPending).fVersion = s.fVersion := rfl
@[simp] theorem setPending_fTitle (s : State) : (s.setPending).fTitle = s.fTitle := rfl
@[simp] theorem setPending_fLength (s : State) : (s.setPending).fLength = s.fLength := rfl
@[simp] theorem setPending_fHandle (s : State) : (s.setPending).fHandle = s.fHandle := rfl
@[simp] theorem setPending_pbuf (s : State) : (s.setPending).pbuf = s.pbuf := rfl
@[simp] theorem setPending_pcur (s : State) : (s.setPending).pcur = s.pcur := rfl
@[simp] theorem setPending_rem (s : State) : (s.setPending).rem = s.rem := rfl
@[simp] theorem setPending_phase (s : State) : (s.setPending).phase = s.phase := rfl
@[simp] theorem setPending_pq (s : State) : (s.setPending).pq = s.pq := rfl
@[simp] theorem setPending_fq (s : State) : (s.setPending).fq = s.fq := rfl
@[simp] theorem setPending_live (s : State) : (s.setPending).live = s.live := rfl
@[simp] theorem setPending_freed (s : State) : (s.setPending).freed = s.freed := rfl
@[simp] theorem setPending_rx (s : State) : (s.setPending).rx = s.rx := rfl
@[simp] theorem setPending_tx (s : State) : (s.setPending).tx = s.tx := rfl
@[simp] theorem setPending_faults (s : State) : (s.setPending).faults = s.faults := rfl
@[simp] theorem setPending_refused (s : State) : (s.setPending).refused = s.refused := rfl
@[simp] theorem setPending_sched (s : State) : (s.setPending).sched = s.sched := rfl
@[simp] theorem setPending_nextAlloc (s : State) : (s.setPending).nextAlloc = s.nextAlloc := rfl
@[simp] theorem setPending_ticks (s : State) : (s.setPending).ticks = s.ticks := rfl
@[simp] theorem setPending_results (s : State) : (s.setPending).results = s.results := rfl

/-! ### clearPending -/

@[simp] theorem clearPending_state (s : State) : (s.clearPending).state = s.state := rfl
@[simp] theorem clearPending_pending (s : State) : (s.clearPending).pending = false := rfl
@[simp] theorem clearPending_scratch (s : State) : (s.clearPending).scratch = s.scratch := rfl
@[simp] theorem clearPending_scur (s : State) : (s.clearPending).scur = s.scur := rfl
@[simp] theorem clearPending_fVersion (s : State) : (s.clearPending).fVersion = s.fVersion := rfl
@[simp] theorem clearPending_fTitle (s : State) : (s.clearPending).fTitle = s.fTitle := rfl
@[simp] theorem clearPending_fLength (s : State) : (s.clearPending).fLength = s.fLength := rfl
@[simp] theorem clearPending_fHandle (s : State) : (s.clearPending).fHandle = s.fHandle := rfl
@[simp] theorem clearPending_pbuf (s : State) : (s.clearPending).pbuf = s.pbuf := rfl
@[simp] theorem clearPending_pcur (s : State) : (s.clearPending).pcur = s.pcur := rfl
@[simp] theorem clearPending_rem (s : State) : (s.clearPending).rem = s.rem := rfl
@[simp] theorem clearPending_phase (s : State) : (s.clearPending).phase = s.phase := rfl
@[simp] theorem clearPending_pq (s : State) : (s.clearPending).pq = s.pq := rfl
@[simp] theorem clearPending_fq (s : State) : (s.clearPending).fq = s.fq := rfl
@[simp] theorem clearPending_live (s : State) : (s.clearPending).live = s.live := rfl
@[simp] theorem clearPending_freed (s : State) : (s.clearPending).freed = s.freed := rfl
@[simp] theorem clearPending_rx (s : State) : (s.clearPending).rx = s.rx := rfl
@[simp] theorem clearPending_tx (s : State) : (s.clearPending).tx = s.tx := rfl
@[simp] theorem clearPending_faults (s : State) : (s.clearPending).faults = s.faults := rfl
@[simp] theorem clearPending_refused (s : State) : (s.clearPending).refused = s.refused := rfl
@[simp] theorem clearPending_sched (s : State) : (s.clearPending).sched = s.sched := rfl
@[simp] theorem clearPending_nextAlloc (s : State) : (s.clearPending).nextAlloc = s.nextAlloc := rfl
@[simp] theorem clearPending_ticks (s : State) : (s.clearPending).ticks = s.ticks := rfl
@[simp] theorem clearPending_results (s : State) : (s.clearPending).results = s.results := rfl

/-! ### refuse -/

@[simp] theorem refuse_state (w : RefuseReason) (s : State) : (s.refuse w).state = s.state := rfl
@[simp] theorem refuse_pending (w : RefuseReason) (s : State) : (s.refuse w).pending = s.pending := rfl
@[simp] theorem refuse_scratch (w : RefuseReason) (s : State) : (s.refuse w).scratch = s.scratch := rfl
@[simp] theorem refuse_scur (w : RefuseReason) (s : State) : (s.refuse w).scur = s.scur := rfl
@[simp] theorem refuse_fVersion (w : RefuseReason) (s : State) : (s.refuse w).fVersion = s.fVersion := rfl
@[simp] theorem refuse_fTitle (w : RefuseReason) (s : State) : (s.refuse w).fTitle = s.fTitle := rfl
@[simp] theorem refuse_fLength (w : RefuseReason) (s : State) : (s.refuse w).fLength = s.fLength := rfl
@[simp] theorem refuse_fHandle (w : RefuseReason) (s : State) : (s.refuse w).fHandle = s.fHandle := rfl
@[simp] theorem refuse_pbuf (w : RefuseReason) (s : State) : (s.refuse w).pbuf = s.pbuf := rfl
@[simp] theorem refuse_pcur (w : RefuseReason) (s : State) : (s.refuse w).pcur = s.pcur := rfl
@[simp] theorem refuse_rem (w : RefuseReason) (s : State) : (s.refuse w).rem = s.rem := rfl
@[simp] theorem refuse_phase (w : RefuseReason) (s : State) : (s.refuse w).phase = s.phase := rfl
@[simp] theorem refuse_pq (w : RefuseReason) (s : State) : (s.refuse w).pq = s.pq := rfl
@[simp] theorem refuse_fq (w : RefuseReason) (s : State) : (s.refuse w).fq = s.fq := rfl
@[simp] theorem refuse_live (w : RefuseReason) (s : State) : (s.refuse w).live = s.live := rfl
@[simp] theorem refuse_freed (w : RefuseReason) (s : State) : (s.refuse w).freed = s.freed := rfl
@[simp] theorem refuse_rx (w : RefuseReason) (s : State) : (s.refuse w).rx = s.rx := rfl
@[simp] theorem refuse_tx (w : RefuseReason) (s : State) : (s.refuse w).tx = s.tx := rfl
@[simp] theorem refuse_faults (w : RefuseReason) (s : State) : (s.refuse w).faults = s.faults := rfl
@[simp] theorem refuse_refused (w : RefuseReason) (s : State) : (s.refuse w).refused = true := rfl
@[simp] theorem refuse_sched (w : RefuseReason) (s : State) : (s.refuse w).sched = s.sched := rfl
@[simp] theorem refuse_nextAlloc (w : RefuseReason) (s : State) : (s.refuse w).nextAlloc = s.nextAlloc := rfl
@[simp] theorem refuse_ticks (w : RefuseReason) (s : State) : (s.refuse w).ticks = s.ticks := rfl
@[simp] theorem refuse_results (w : RefuseReason) (s : State) : (s.refuse w).results = s.results := rfl

/-! ### recordFault -/

@[simp] theorem recordFault_state (r : FaultReason) (s : State) : (s.recordFault r).state = s.state := rfl
@[simp] theorem recordFault_pending (r : FaultReason) (s : State) : (s.recordFault r).pending = s.pending := rfl
@[simp] theorem recordFault_scratch (r : FaultReason) (s : State) : (s.recordFault r).scratch = s.scratch := rfl
@[simp] theorem recordFault_scur (r : FaultReason) (s : State) : (s.recordFault r).scur = s.scur := rfl
@[simp] theorem recordFault_fVersion (r : FaultReason) (s : State) : (s.recordFault r).fVersion = s.fVersion := rfl
@[simp] theorem recordFault_fTitle (r : FaultReason) (s : State) : (s.recordFault r).fTitle = s.fTitle := rfl
@[simp] theorem recordFault_fLength (r : FaultReason) (s : State) : (s.recordFault r).fLength = s.fLength := rfl
@[simp] theorem recordFault_fHandle (r : FaultReason) (s : State) : (s.recordFault r).fHandle = s.fHandle := rfl
@[simp] theorem recordFault_pbuf (r : FaultReason) (s : State) : (s.recordFault r).pbuf = s.pbuf := rfl
@[simp] theorem recordFault_pcur (r : FaultReason) (s : State) : (s.recordFault r).pcur = s.pcur := rfl
@[simp] theorem recordFault_rem (r : FaultReason) (s : State) : (s.recordFault r).rem = s.rem := rfl
@[simp] theorem recordFault_phase (r : FaultReason) (s : State) : (s.recordFault r).phase = s.phase := rfl
@[simp] theorem recordFault_pq (r : FaultReason) (s : State) : (s.recordFault r).pq = s.pq := rfl
@[simp] theorem recordFault_fq (r : FaultReason) (s : State) : (s.recordFault r).fq = s.fq := rfl
@[simp] theorem recordFault_live (r : FaultReason) (s : State) : (s.recordFault r).live = s.live := rfl
@[simp] theorem recordFault_freed (r : FaultReason) (s : State) : (s.recordFault r).freed = s.freed := rfl
@[simp] theorem recordFault_rx (r : FaultReason) (s : State) : (s.recordFault r).rx = s.rx := rfl
@[simp] theorem recordFault_tx (r : FaultReason) (s : State) : (s.recordFault r).tx = s.tx := rfl
@[simp] theorem recordFault_faults (r : FaultReason) (s : State) : (s.recordFault r).faults = addFault r s.faults := rfl
@[simp] theorem recordFault_refused (r : FaultReason) (s : State) : (s.recordFault r).refused = s.refused := rfl
@[simp] theorem recordFault_sched (r : FaultReason) (s : State) : (s.recordFault r).sched = s.sched := rfl
@[simp] theorem recordFault_nextAlloc (r : FaultReason) (s : State) : (s.recordFault r).nextAlloc = s.nextAlloc := rfl
@[simp] theorem recordFault_ticks (r : FaultReason) (s : State) : (s.recordFault r).ticks = s.ticks := rfl
@[simp] theorem recordFault_results (r : FaultReason) (s : State) : (s.recordFault r).results = s.results := rfl

/-! ### respond -/

@[simp] theorem respond_state (a : Agent) (c : ResultCode) (d : Option Datum) (s : State) : (s.respond a c d).state = s.state := rfl
@[simp] theorem respond_pending (a : Agent) (c : ResultCode) (d : Option Datum) (s : State) : (s.respond a c d).pending = s.pending := rfl
@[simp] theorem respond_scratch (a : Agent) (c : ResultCode) (d : Option Datum) (s : State) : (s.respond a c d).scratch = s.scratch := rfl
@[simp] theorem respond_scur (a : Agent) (c : ResultCode) (d : Option Datum) (s : State) : (s.respond a c d).scur = s.scur := rfl
@[simp] theorem respond_fVersion (a : Agent) (c : ResultCode) (d : Option Datum) (s : State) : (s.respond a c d).fVersion = s.fVersion := rfl
@[simp] theorem respond_fTitle (a : Agent) (c : ResultCode) (d : Option Datum) (s : State) : (s.respond a c d).fTitle = s.fTitle := rfl
@[simp] theorem respond_fLength (a : Agent) (c : ResultCode) (d : Option Datum) (s : State) : (s.respond a c d).fLength = s.fLength := rfl
@[simp] theorem respond_fHandle (a : Agent) (c : ResultCode) (d : Option Datum) (s : State) : (s.respond a c d).fHandle = s.fHandle := rfl
@[simp] theorem respond_pbuf (a : Agent) (c : ResultCode) (d : Option Datum) (s : State) : (s.respond a c d).pbuf = s.pbuf := rfl
@[simp] theorem respond_pcur (a : Agent) (c : ResultCode) (d : Option Datum) (s : State) : (s.respond a c d).pcur = s.pcur := rfl
@[simp] theorem respond_rem (a : Agent) (c : ResultCode) (d : Option Datum) (s : State) : (s.respond a c d).rem = s.rem := rfl
@[simp] theorem respond_phase (a : Agent) (c : ResultCode) (d : Option Datum) (s : State) : (s.respond a c d).phase = s.phase := rfl
@[simp] theorem respond_pq (a : Agent) (c : ResultCode) (d : Option Datum) (s : State) : (s.respond a c d).pq = s.pq := rfl
@[simp] theorem respond_fq (a : Agent) (c : ResultCode) (d : Option Datum) (s : State) : (s.respond a c d).fq = s.fq := rfl
@[simp] theorem respond_live (a : Agent) (c : ResultCode) (d : Option Datum) (s : State) : (s.respond a c d).live = s.live := rfl
@[simp] theorem respond_freed (a : Agent) (c : ResultCode) (d : Option Datum) (s : State) : (s.respond a c d).freed = s.freed := rfl
@[simp] theorem respond_rx (a : Agent) (c : ResultCode) (d : Option Datum) (s : State) : (s.respond a c d).rx = s.rx := rfl
@[simp] theorem respond_tx (a : Agent) (c : ResultCode) (d : Option Datum) (s : State) : (s.respond a c d).tx = s.tx := rfl
@[simp] theorem respond_faults (a : Agent) (c : ResultCode) (d : Option Datum) (s : State) : (s.respond a c d).faults = s.faults := rfl
@[simp] theorem respond_refused (a : Agent) (c : ResultCode) (d : Option Datum) (s : State) : (s.respond a c d).refused = s.refused := rfl
@[simp] theorem respond_sched (a : Agent) (c : ResultCode) (d : Option Datum) (s : State) : (s.respond a c d).sched = s.sched := rfl
@[simp] theorem respond_nextAlloc (a : Agent) (c : ResultCode) (d : Option Datum) (s : State) : (s.respond a c d).nextAlloc = s.nextAlloc := rfl
@[simp] theorem respond_ticks (a : Agent) (c : ResultCode) (d : Option Datum) (s : State) : (s.respond a c d).ticks = s.ticks := rfl
@[simp] theorem respond_results (a : Agent) (c : ResultCode) (d : Option Datum) (s : State) : (s.respond a c d).results = s.results ++ [{ agent := a, code := c, data := d }] := rfl

/-! ### hostRx -/

@[simp] theorem hostRx_state (b : Byte) (s : State) : (s.hostRx b).state = s.state := rfl
@[simp] theorem hostRx_pending (b : Byte) (s : State) : (s.hostRx b).pending = s.pending := rfl
@[simp] theorem hostRx_scratch (b : Byte) (s : State) : (s.hostRx b).scratch = s.scratch := rfl
@[simp] theorem hostRx_scur (b : Byte) (s : State) : (s.hostRx b).scur = s.scur := rfl
@[simp] theorem hostRx_fVersion (b : Byte) (s : State) : (s.hostRx b).fVersion = s.fVersion := rfl
@[simp] theorem hostRx_fTitle (b : Byte) (s : State) : (s.hostRx b).fTitle = s.fTitle := rfl
@[simp] theorem hostRx_fLength (b : Byte) (s : State) : (s.hostRx b).fLength = s.fLength := rfl
@[simp] theorem hostRx_fHandle (b : Byte) (s : State) : (s.hostRx b).fHandle = s.fHandle := rfl
@[simp] theorem hostRx_pbuf (b : Byte) (s : State) : (s.hostRx b).pbuf = s.pbuf := rfl
@[simp] theorem hostRx_pcur (b : Byte) (s : State) : (s.hostRx b).pcur = s.pcur := rfl
@[simp] theorem hostRx_rem (b : Byte) (s : State) : (s.hostRx b).rem = s.rem := rfl
@[simp] theorem hostRx_phase (b : Byte) (s : State) : (s.hostRx b).phase = s.phase := rfl
@[simp] theorem hostRx_pq (b : Byte) (s : State) : (s.hostRx b).pq = s.pq := rfl
@[simp] theorem hostRx_fq (b : Byte) (s : State) : (s.hostRx b).fq = s.fq := rfl
@[simp] theorem hostRx_live (b : Byte) (s : State) : (s.hostRx b).live = s.live := rfl
@[simp] theorem hostRx_freed (b : Byte) (s : State) : (s.hostRx b).freed = s.freed := rfl
@[simp] theorem hostRx_rx (b : Byte) (s : State) : (s.hostRx b).rx = s.rx ++ [b] := rfl
@[simp] theorem hostRx_tx (b : Byte) (s : State) : (s.hostRx b).tx = s.tx := rfl
@[simp] theorem hostRx_faults (b : Byte) (s : State) : (s.hostRx b).faults = s.faults := rfl
@[simp] theorem hostRx_refused (b : Byte) (s : State) : (s.hostRx b).refused = s.refused := rfl
@[simp] theorem hostRx_sched (b : Byte) (s : State) : (s.hostRx b).sched = s.sched := rfl
@[simp] theorem hostRx_nextAlloc (b : Byte) (s : State) : (s.hostRx b).nextAlloc = s.nextAlloc := rfl
@[simp] theorem hostRx_ticks (b : Byte) (s : State) : (s.hostRx b).ticks = s.ticks := rfl
@[simp] theorem hostRx_results (b : Byte) (s : State) : (s.hostRx b).results = s.results := rfl

/-! ### hostTakeTx -/

@[simp] theorem hostTakeTx_state (s : State) : (s.hostTakeTx).state = s.state := rfl
@[simp] theorem hostTakeTx_pending (s : State) : (s.hostTakeTx).pending = s.pending := rfl
@[simp] theorem hostTakeTx_scratch (s : State) : (s.hostTakeTx).scratch = s.scratch := rfl
@[simp] theorem hostTakeTx_scur (s : State) : (s.hostTakeTx).scur = s.scur := rfl
@[simp] theorem hostTakeTx_fVersion (s : State) : (s.hostTakeTx).fVersion = s.fVersion := rfl
@[simp] theorem hostTakeTx_fTitle (s : State) : (s.hostTakeTx).fTitle = s.fTitle := rfl
@[simp] theorem hostTakeTx_fLength (s : State) : (s.hostTakeTx).fLength = s.fLength := rfl
@[simp] theorem hostTakeTx_fHandle (s : State) : (s.hostTakeTx).fHandle = s.fHandle := rfl
@[simp] theorem hostTakeTx_pbuf (s : State) : (s.hostTakeTx).pbuf = s.pbuf := rfl
@[simp] theorem hostTakeTx_pcur (s : State) : (s.hostTakeTx).pcur = s.pcur := rfl
@[simp] theorem hostTakeTx_rem (s : State) : (s.hostTakeTx).rem = s.rem := rfl
@[simp] theorem hostTakeTx_phase (s : State) : (s.hostTakeTx).phase = s.phase := rfl
@[simp] theorem hostTakeTx_pq (s : State) : (s.hostTakeTx).pq = s.pq := rfl
@[simp] theorem hostTakeTx_fq (s : State) : (s.hostTakeTx).fq = s.fq := rfl
@[simp] theorem hostTakeTx_live (s : State) : (s.hostTakeTx).live = s.live := rfl
@[simp] theorem hostTakeTx_freed (s : State) : (s.hostTakeTx).freed = s.freed := rfl
@[simp] theorem hostTakeTx_rx (s : State) : (s.hostTakeTx).rx = s.rx := rfl
@[simp] theorem hostTakeTx_tx (s : State) : (s.hostTakeTx).tx = s.tx.drop 1 := rfl
@[simp] theorem hostTakeTx_faults (s : State) : (s.hostTakeTx).faults = s.faults := rfl
@[simp] theorem hostTakeTx_refused (s : State) : (s.hostTakeTx).refused = s.refused := rfl
@[simp] theorem hostTakeTx_sched (s : State) : (s.hostTakeTx).sched = s.sched := rfl
@[simp] theorem hostTakeTx_nextAlloc (s : State) : (s.hostTakeTx).nextAlloc = s.nextAlloc := rfl
@[simp] theorem hostTakeTx_ticks (s : State) : (s.hostTakeTx).ticks = s.ticks := rfl
@[simp] theorem hostTakeTx_results (s : State) : (s.hostTakeTx).results = s.results := rfl

/-! ### hostAlloc -/

@[simp] theorem hostAlloc_state (d : AllocDraw) (s : State) : (s.hostAlloc d).state = s.state := rfl
@[simp] theorem hostAlloc_pending (d : AllocDraw) (s : State) : (s.hostAlloc d).pending = s.pending := rfl
@[simp] theorem hostAlloc_scratch (d : AllocDraw) (s : State) : (s.hostAlloc d).scratch = s.scratch := rfl
@[simp] theorem hostAlloc_scur (d : AllocDraw) (s : State) : (s.hostAlloc d).scur = s.scur := rfl
@[simp] theorem hostAlloc_fVersion (d : AllocDraw) (s : State) : (s.hostAlloc d).fVersion = s.fVersion := rfl
@[simp] theorem hostAlloc_fTitle (d : AllocDraw) (s : State) : (s.hostAlloc d).fTitle = s.fTitle := rfl
@[simp] theorem hostAlloc_fLength (d : AllocDraw) (s : State) : (s.hostAlloc d).fLength = s.fLength := rfl
@[simp] theorem hostAlloc_fHandle (d : AllocDraw) (s : State) : (s.hostAlloc d).fHandle = s.fHandle := rfl
@[simp] theorem hostAlloc_pbuf (d : AllocDraw) (s : State) : (s.hostAlloc d).pbuf = s.pbuf := rfl
@[simp] theorem hostAlloc_pcur (d : AllocDraw) (s : State) : (s.hostAlloc d).pcur = s.pcur := rfl
@[simp] theorem hostAlloc_rem (d : AllocDraw) (s : State) : (s.hostAlloc d).rem = s.rem := rfl
@[simp] theorem hostAlloc_phase (d : AllocDraw) (s : State) : (s.hostAlloc d).phase = s.phase := rfl
@[simp] theorem hostAlloc_pq (d : AllocDraw) (s : State) : (s.hostAlloc d).pq = s.pq := rfl
@[simp] theorem hostAlloc_fq (d : AllocDraw) (s : State) : (s.hostAlloc d).fq = s.fq := rfl
@[simp] theorem hostAlloc_live (d : AllocDraw) (s : State) : (s.hostAlloc d).live = s.live := rfl
@[simp] theorem hostAlloc_freed (d : AllocDraw) (s : State) : (s.hostAlloc d).freed = s.freed := rfl
@[simp] theorem hostAlloc_rx (d : AllocDraw) (s : State) : (s.hostAlloc d).rx = s.rx := rfl
@[simp] theorem hostAlloc_tx (d : AllocDraw) (s : State) : (s.hostAlloc d).tx = s.tx := rfl
@[simp] theorem hostAlloc_faults (d : AllocDraw) (s : State) : (s.hostAlloc d).faults = s.faults := rfl
@[simp] theorem hostAlloc_refused (d : AllocDraw) (s : State) : (s.hostAlloc d).refused = s.refused := rfl
@[simp] theorem hostAlloc_sched (d : AllocDraw) (s : State) : (s.hostAlloc d).sched = s.sched := rfl
@[simp] theorem hostAlloc_nextAlloc (d : AllocDraw) (s : State) : (s.hostAlloc d).nextAlloc = some d := rfl
@[simp] theorem hostAlloc_ticks (d : AllocDraw) (s : State) : (s.hostAlloc d).ticks = s.ticks := rfl
@[simp] theorem hostAlloc_results (d : AllocDraw) (s : State) : (s.hostAlloc d).results = s.results := rfl

/-! ### capture -/

@[simp] theorem capture_state (b : Byte) (s : State) : (s.capture b).state = s.state := rfl
@[simp] theorem capture_pending (b : Byte) (s : State) : (s.capture b).pending = s.pending := rfl
@[simp] theorem capture_scratch (b : Byte) (s : State) : (s.capture b).scratch = s.scratch.set s.scur (some b) := rfl
@[simp] theorem capture_scur (b : Byte) (s : State) : (s.capture b).scur = s.scur + 1 := rfl
@[simp] theorem capture_fVersion (b : Byte) (s : State) : (s.capture b).fVersion = s.fVersion := rfl
@[simp] theorem capture_fTitle (b : Byte) (s : State) : (s.capture b).fTitle = s.fTitle := rfl
@[simp] theorem capture_fLength (b : Byte) (s : State) : (s.capture b).fLength = s.fLength := rfl
@[simp] theorem capture_fHandle (b : Byte) (s : State) : (s.capture b).fHandle = s.fHandle := rfl
@[simp] theorem capture_pbuf (b : Byte) (s : State) : (s.capture b).pbuf = s.pbuf := rfl
@[simp] theorem capture_pcur (b : Byte) (s : State) : (s.capture b).pcur = s.pcur := rfl
@[simp] theorem capture_rem (b : Byte) (s : State) : (s.capture b).rem = s.rem := rfl
@[simp] theorem capture_phase (b : Byte) (s : State) : (s.capture b).phase = s.phase := rfl
@[simp] theorem capture_pq (b : Byte) (s : State) : (s.capture b).pq = s.pq := rfl
@[simp] theorem capture_fq (b : Byte) (s : State) : (s.capture b).fq = s.fq := rfl
@[simp] theorem capture_live (b : Byte) (s : State) : (s.capture b).live = s.live := rfl
@[simp] theorem capture_freed (b : Byte) (s : State) : (s.capture b).freed = s.freed := rfl
@[simp] theorem capture_rx (b : Byte) (s : State) : (s.capture b).rx = s.rx := rfl
@[simp] theorem capture_tx (b : Byte) (s : State) : (s.capture b).tx = s.tx := rfl
@[simp] theorem capture_faults (b : Byte) (s : State) : (s.capture b).faults = s.faults := rfl
@[simp] theorem capture_refused (b : Byte) (s : State) : (s.capture b).refused = s.refused := rfl
@[simp] theorem capture_sched (b : Byte) (s : State) : (s.capture b).sched = s.sched := rfl
@[simp] theorem capture_nextAlloc (b : Byte) (s : State) : (s.capture b).nextAlloc = s.nextAlloc := rfl
@[simp] theorem capture_ticks (b : Byte) (s : State) : (s.capture b).ticks = s.ticks := rfl
@[simp] theorem capture_results (b : Byte) (s : State) : (s.capture b).results = s.results := rfl

/-! ### withRx -/

@[simp] theorem withRx_state (l : List Byte) (s : State) : (s.withRx l).state = s.state := rfl
@[simp] theorem withRx_pending (l : List Byte) (s : State) : (s.withRx l).pending = s.pending := rfl
@[simp] theorem withRx_scratch (l : List Byte) (s : State) : (s.withRx l).scratch = s.scratch := rfl
@[simp] theorem withRx_scur (l : List Byte) (s : State) : (s.withRx l).scur = s.scur := rfl
@[simp] theorem withRx_fVersion (l : List Byte) (s : State) : (s.withRx l).fVersion = s.fVersion := rfl
@[simp] theorem withRx_fTitle (l : List Byte) (s : State) : (s.withRx l).fTitle = s.fTitle := rfl
@[simp] theorem withRx_fLength (l : List Byte) (s : State) : (s.withRx l).fLength = s.fLength := rfl
@[simp] theorem withRx_fHandle (l : List Byte) (s : State) : (s.withRx l).fHandle = s.fHandle := rfl
@[simp] theorem withRx_pbuf (l : List Byte) (s : State) : (s.withRx l).pbuf = s.pbuf := rfl
@[simp] theorem withRx_pcur (l : List Byte) (s : State) : (s.withRx l).pcur = s.pcur := rfl
@[simp] theorem withRx_rem (l : List Byte) (s : State) : (s.withRx l).rem = s.rem := rfl
@[simp] theorem withRx_phase (l : List Byte) (s : State) : (s.withRx l).phase = s.phase := rfl
@[simp] theorem withRx_pq (l : List Byte) (s : State) : (s.withRx l).pq = s.pq := rfl
@[simp] theorem withRx_fq (l : List Byte) (s : State) : (s.withRx l).fq = s.fq := rfl
@[simp] theorem withRx_live (l : List Byte) (s : State) : (s.withRx l).live = s.live := rfl
@[simp] theorem withRx_freed (l : List Byte) (s : State) : (s.withRx l).freed = s.freed := rfl
@[simp] theorem withRx_rx (l : List Byte) (s : State) : (s.withRx l).rx = l := rfl
@[simp] theorem withRx_tx (l : List Byte) (s : State) : (s.withRx l).tx = s.tx := rfl
@[simp] theorem withRx_faults (l : List Byte) (s : State) : (s.withRx l).faults = s.faults := rfl
@[simp] theorem withRx_refused (l : List Byte) (s : State) : (s.withRx l).refused = s.refused := rfl
@[simp] theorem withRx_sched (l : List Byte) (s : State) : (s.withRx l).sched = s.sched := rfl
@[simp] theorem withRx_nextAlloc (l : List Byte) (s : State) : (s.withRx l).nextAlloc = s.nextAlloc := rfl
@[simp] theorem withRx_ticks (l : List Byte) (s : State) : (s.withRx l).ticks = s.ticks := rfl
@[simp] theorem withRx_results (l : List Byte) (s : State) : (s.withRx l).results = s.results := rfl

/-! ### freeHandle -/

@[simp] theorem freeHandle_state (h : Handle) (s : State) : (s.freeHandle h).state = s.state := rfl
@[simp] theorem freeHandle_pending (h : Handle) (s : State) : (s.freeHandle h).pending = s.pending := rfl
@[simp] theorem freeHandle_scratch (h : Handle) (s : State) : (s.freeHandle h).scratch = s.scratch := rfl
@[simp] theorem freeHandle_scur (h : Handle) (s : State) : (s.freeHandle h).scur = s.scur := rfl
@[simp] theorem freeHandle_fVersion (h : Handle) (s : State) : (s.freeHandle h).fVersion = s.fVersion := rfl
@[simp] theorem freeHandle_fTitle (h : Handle) (s : State) : (s.freeHandle h).fTitle = s.fTitle := rfl
@[simp] theorem freeHandle_fLength (h : Handle) (s : State) : (s.freeHandle h).fLength = s.fLength := rfl
@[simp] theorem freeHandle_fHandle (h : Handle) (s : State) : (s.freeHandle h).fHandle = s.fHandle := rfl
@[simp] theorem freeHandle_pbuf (h : Handle) (s : State) : (s.freeHandle h).pbuf = s.pbuf := rfl
@[simp] theorem freeHandle_pcur (h : Handle) (s : State) : (s.freeHandle h).pcur = s.pcur := rfl
@[simp] theorem freeHandle_rem (h : Handle) (s : State) : (s.freeHandle h).rem = s.rem := rfl
@[simp] theorem freeHandle_phase (h : Handle) (s : State) : (s.freeHandle h).phase = s.phase := rfl
@[simp] theorem freeHandle_pq (h : Handle) (s : State) : (s.freeHandle h).pq = s.pq := rfl
@[simp] theorem freeHandle_fq (h : Handle) (s : State) : (s.freeHandle h).fq = s.fq := rfl
@[simp] theorem freeHandle_live (h : Handle) (s : State) : (s.freeHandle h).live = removeHandle h s.live := rfl
@[simp] theorem freeHandle_freed (h : Handle) (s : State) : (s.freeHandle h).freed = insertHandle h s.freed := rfl
@[simp] theorem freeHandle_rx (h : Handle) (s : State) : (s.freeHandle h).rx = s.rx := rfl
@[simp] theorem freeHandle_tx (h : Handle) (s : State) : (s.freeHandle h).tx = s.tx := rfl
@[simp] theorem freeHandle_faults (h : Handle) (s : State) : (s.freeHandle h).faults = s.faults := rfl
@[simp] theorem freeHandle_refused (h : Handle) (s : State) : (s.freeHandle h).refused = s.refused := rfl
@[simp] theorem freeHandle_sched (h : Handle) (s : State) : (s.freeHandle h).sched = s.sched := rfl
@[simp] theorem freeHandle_nextAlloc (h : Handle) (s : State) : (s.freeHandle h).nextAlloc = s.nextAlloc := rfl
@[simp] theorem freeHandle_ticks (h : Handle) (s : State) : (s.freeHandle h).ticks = s.ticks := rfl
@[simp] theorem freeHandle_results (h : Handle) (s : State) : (s.freeHandle h).results = s.results := rfl

/-! ### allocate -/

@[simp] theorem allocate_state (b : Byte) (h : Handle) (s : State) : (allocate b h s).state = .messageWait := rfl
@[simp] theorem allocate_pending (b : Byte) (h : Handle) (s : State) : (allocate b h s).pending = s.pending := rfl
@[simp] theorem allocate_scratch (b : Byte) (h : Handle) (s : State) : (allocate b h s).scratch = s.scratch := rfl
@[simp] theorem allocate_scur (b : Byte) (h : Handle) (s : State) : (allocate b h s).scur = s.scur := rfl
@[simp] theorem allocate_fVersion (b : Byte) (h : Handle) (s : State) : (allocate b h s).fVersion = s.fVersion := rfl
@[simp] theorem allocate_fTitle (b : Byte) (h : Handle) (s : State) : (allocate b h s).fTitle = s.fTitle := rfl
@[simp] theorem allocate_fLength (b : Byte) (h : Handle) (s : State) : (allocate b h s).fLength = s.fLength := rfl
@[simp] theorem allocate_fHandle (b : Byte) (h : Handle) (s : State) : (allocate b h s).fHandle = some h := rfl
@[simp] theorem allocate_pbuf (b : Byte) (h : Handle) (s : State) : (allocate b h s).pbuf = clearCells s.pbuf b.toNat := rfl
@[simp] theorem allocate_pcur (b : Byte) (h : Handle) (s : State) : (allocate b h s).pcur = 0 := rfl
@[simp] theorem allocate_rem (b : Byte) (h : Handle) (s : State) : (allocate b h s).rem = b.toNat := rfl
@[simp] theorem allocate_phase (b : Byte) (h : Handle) (s : State) : (allocate b h s).phase = s.phase := rfl
@[simp] theorem allocate_pq (b : Byte) (h : Handle) (s : State) : (allocate b h s).pq = s.pq := rfl
@[simp] theorem allocate_fq (b : Byte) (h : Handle) (s : State) : (allocate b h s).fq = s.fq := rfl
@[simp] theorem allocate_live (b : Byte) (h : Handle) (s : State) : (allocate b h s).live = insertHandle h s.live := rfl
@[simp] theorem allocate_freed (b : Byte) (h : Handle) (s : State) : (allocate b h s).freed = s.freed := rfl
@[simp] theorem allocate_rx (b : Byte) (h : Handle) (s : State) : (allocate b h s).rx = s.rx := rfl
@[simp] theorem allocate_tx (b : Byte) (h : Handle) (s : State) : (allocate b h s).tx = s.tx := rfl
@[simp] theorem allocate_faults (b : Byte) (h : Handle) (s : State) : (allocate b h s).faults = s.faults := rfl
@[simp] theorem allocate_refused (b : Byte) (h : Handle) (s : State) : (allocate b h s).refused = s.refused := rfl
@[simp] theorem allocate_sched (b : Byte) (h : Handle) (s : State) : (allocate b h s).sched = s.sched := rfl
@[simp] theorem allocate_nextAlloc (b : Byte) (h : Handle) (s : State) : (allocate b h s).nextAlloc = s.nextAlloc := rfl
@[simp] theorem allocate_ticks (b : Byte) (h : Handle) (s : State) : (allocate b h s).ticks = s.ticks := rfl
@[simp] theorem allocate_results (b : Byte) (h : Handle) (s : State) : (allocate b h s).results = s.results := rfl

/-! ### finishReplay -/

@[simp] theorem finishReplay_state (s : State) : (finishReplay s).state = .preambleWait := rfl
@[simp] theorem finishReplay_pending (s : State) : (finishReplay s).pending = false := rfl
@[simp] theorem finishReplay_scratch (s : State) : (finishReplay s).scratch = s.scratch := rfl
@[simp] theorem finishReplay_scur (s : State) : (finishReplay s).scur = s.scur := rfl
@[simp] theorem finishReplay_fVersion (s : State) : (finishReplay s).fVersion = s.fVersion := rfl
@[simp] theorem finishReplay_fTitle (s : State) : (finishReplay s).fTitle = s.fTitle := rfl
@[simp] theorem finishReplay_fLength (s : State) : (finishReplay s).fLength = s.fLength := rfl
@[simp] theorem finishReplay_fHandle (s : State) : (finishReplay s).fHandle = s.fHandle := rfl
@[simp] theorem finishReplay_pbuf (s : State) : (finishReplay s).pbuf = s.pbuf := rfl
@[simp] theorem finishReplay_pcur (s : State) : (finishReplay s).pcur = s.pcur := rfl
@[simp] theorem finishReplay_rem (s : State) : (finishReplay s).rem = s.rem := rfl
@[simp] theorem finishReplay_phase (s : State) : (finishReplay s).phase = .idle := rfl
@[simp] theorem finishReplay_pq (s : State) : (finishReplay s).pq = s.pq := rfl
@[simp] theorem finishReplay_fq (s : State) : (finishReplay s).fq = s.fq := rfl
@[simp] theorem finishReplay_live (s : State) : (finishReplay s).live = s.live := rfl
@[simp] theorem finishReplay_freed (s : State) : (finishReplay s).freed = s.freed := rfl
@[simp] theorem finishReplay_rx (s : State) : (finishReplay s).rx = s.rx := rfl
@[simp] theorem finishReplay_tx (s : State) : (finishReplay s).tx = s.tx := rfl
@[simp] theorem finishReplay_faults (s : State) : (finishReplay s).faults = s.faults := rfl
@[simp] theorem finishReplay_refused (s : State) : (finishReplay s).refused = s.refused := rfl
@[simp] theorem finishReplay_sched (s : State) : (finishReplay s).sched = s.sched := rfl
@[simp] theorem finishReplay_nextAlloc (s : State) : (finishReplay s).nextAlloc = s.nextAlloc := rfl
@[simp] theorem finishReplay_ticks (s : State) : (finishReplay s).ticks = s.ticks := rfl
@[simp] theorem finishReplay_results (s : State) : (finishReplay s).results = s.results := rfl

/-! ### takeDraw -/

@[simp] theorem takeDraw_state (s : State) : (s.takeDraw).state = s.state := by
  unfold State.takeDraw; split <;> rfl
@[simp] theorem takeDraw_pending (s : State) : (s.takeDraw).pending = s.pending := by
  unfold State.takeDraw; split <;> rfl
@[simp] theorem takeDraw_scratch (s : State) : (s.takeDraw).scratch = s.scratch := by
  unfold State.takeDraw; split <;> rfl
@[simp] theorem takeDraw_scur (s : State) : (s.takeDraw).scur = s.scur := by
  unfold State.takeDraw; split <;> rfl
@[simp] theorem takeDraw_fVersion (s : State) : (s.takeDraw).fVersion = s.fVersion := by
  unfold State.takeDraw; split <;> rfl
@[simp] theorem takeDraw_fTitle (s : State) : (s.takeDraw).fTitle = s.fTitle := by
  unfold State.takeDraw; split <;> rfl
@[simp] theorem takeDraw_fLength (s : State) : (s.takeDraw).fLength = s.fLength := by
  unfold State.takeDraw; split <;> rfl
@[simp] theorem takeDraw_fHandle (s : State) : (s.takeDraw).fHandle = s.fHandle := by
  unfold State.takeDraw; split <;> rfl
@[simp] theorem takeDraw_pbuf (s : State) : (s.takeDraw).pbuf = s.pbuf := by
  unfold State.takeDraw; split <;> rfl
@[simp] theorem takeDraw_pcur (s : State) : (s.takeDraw).pcur = s.pcur := by
  unfold State.takeDraw; split <;> rfl
@[simp] theorem takeDraw_rem (s : State) : (s.takeDraw).rem = s.rem := by
  unfold State.takeDraw; split <;> rfl
@[simp] theorem takeDraw_phase (s : State) : (s.takeDraw).phase = s.phase := by
  unfold State.takeDraw; split <;> rfl
@[simp] theorem takeDraw_pq (s : State) : (s.takeDraw).pq = s.pq := by
  unfold State.takeDraw; split <;> rfl
@[simp] theorem takeDraw_fq (s : State) : (s.takeDraw).fq = s.fq := by
  unfold State.takeDraw; split <;> rfl
@[simp] theorem takeDraw_live (s : State) : (s.takeDraw).live = s.live := by
  unfold State.takeDraw; split <;> rfl
@[simp] theorem takeDraw_freed (s : State) : (s.takeDraw).freed = s.freed := by
  unfold State.takeDraw; split <;> rfl
@[simp] theorem takeDraw_rx (s : State) : (s.takeDraw).rx = s.rx := by
  unfold State.takeDraw; split <;> rfl
@[simp] theorem takeDraw_tx (s : State) : (s.takeDraw).tx = s.tx := by
  unfold State.takeDraw; split <;> rfl
@[simp] theorem takeDraw_faults (s : State) : (s.takeDraw).faults = s.faults := by
  unfold State.takeDraw; split <;> rfl
@[simp] theorem takeDraw_refused (s : State) : (s.takeDraw).refused = s.refused := by
  unfold State.takeDraw; split <;> rfl
@[simp] theorem takeDraw_sched (s : State) : (s.takeDraw).sched = s.sched := by
  unfold State.takeDraw; split <;> rfl
@[simp] theorem takeDraw_results (s : State) : (s.takeDraw).results = s.results := by
  unfold State.takeDraw; split <;> rfl

/-! ### resetCheck -/

@[simp] theorem resetCheck_state (s : State) : (resetCheck s).state = s.state := by
  unfold resetCheck; split <;> rfl
@[simp] theorem resetCheck_pending (s : State) : (resetCheck s).pending = s.pending := by
  unfold resetCheck; split <;> rfl
@[simp] theorem resetCheck_scratch (s : State) : (resetCheck s).scratch = s.scratch := by
  unfold resetCheck; split <;> rfl
@[simp] theorem resetCheck_scur (s : State) : (resetCheck s).scur = s.scur := by
  unfold resetCheck; split <;> rfl
@[simp] theorem resetCheck_fVersion (s : State) : (resetCheck s).fVersion = s.fVersion := by
  unfold resetCheck; split <;> rfl
@[simp] theorem resetCheck_fTitle (s : State) : (resetCheck s).fTitle = s.fTitle := by
  unfold resetCheck; split <;> rfl
@[simp] theorem resetCheck_fLength (s : State) : (resetCheck s).fLength = s.fLength := by
  unfold resetCheck; split <;> rfl
@[simp] theorem resetCheck_fHandle (s : State) : (resetCheck s).fHandle = s.fHandle := by
  unfold resetCheck; split <;> rfl
@[simp] theorem resetCheck_pbuf (s : State) : (resetCheck s).pbuf = s.pbuf := by
  unfold resetCheck; split <;> rfl
@[simp] theorem resetCheck_pcur (s : State) : (resetCheck s).pcur = s.pcur := by
  unfold resetCheck; split <;> rfl
@[simp] theorem resetCheck_rem (s : State) : (resetCheck s).rem = s.rem := by
  unfold resetCheck; split <;> rfl
@[simp] theorem resetCheck_phase (s : State) : (resetCheck s).phase = if s.pending then .replay 0 else s.phase := by
  unfold resetCheck; split <;> rfl
@[simp] theorem resetCheck_pq (s : State) : (resetCheck s).pq = s.pq := by
  unfold resetCheck; split <;> rfl
@[simp] theorem resetCheck_fq (s : State) : (resetCheck s).fq = s.fq := by
  unfold resetCheck; split <;> rfl
@[simp] theorem resetCheck_live (s : State) : (resetCheck s).live = s.live := by
  unfold resetCheck; split <;> rfl
@[simp] theorem resetCheck_freed (s : State) : (resetCheck s).freed = s.freed := by
  unfold resetCheck; split <;> rfl
@[simp] theorem resetCheck_rx (s : State) : (resetCheck s).rx = s.rx := by
  unfold resetCheck; split <;> rfl
@[simp] theorem resetCheck_tx (s : State) : (resetCheck s).tx = s.tx := by
  unfold resetCheck; split <;> rfl
@[simp] theorem resetCheck_faults (s : State) : (resetCheck s).faults = s.faults := by
  unfold resetCheck; split <;> rfl
@[simp] theorem resetCheck_refused (s : State) : (resetCheck s).refused = s.refused := by
  unfold resetCheck; split <;> rfl
@[simp] theorem resetCheck_sched (s : State) : (resetCheck s).sched = s.sched := by
  unfold resetCheck; split <;> rfl
@[simp] theorem resetCheck_nextAlloc (s : State) : (resetCheck s).nextAlloc = s.nextAlloc := by
  unfold resetCheck; split <;> rfl
@[simp] theorem resetCheck_ticks (s : State) : (resetCheck s).ticks = s.ticks := by
  unfold resetCheck; split <;> rfl
@[simp] theorem resetCheck_results (s : State) : (resetCheck s).results = s.results := by
  unfold resetCheck; split <;> rfl

/-! ### dropPayload -/

@[simp] theorem dropPayload_state (s : State) : (s.dropPayload).state = s.state := by
  unfold State.dropPayload; split <;> simp [*]
@[simp] theorem dropPayload_pending (s : State) : (s.dropPayload).pending = s.pending := by
  unfold State.dropPayload; split <;> simp [*]
@[simp] theorem dropPayload_scratch (s : State) : (s.dropPayload).scratch = s.scratch := by
  unfold State.dropPayload; split <;> simp [*]
@[simp] theorem dropPayload_scur (s : State) : (s.dropPayload).scur = s.scur := by
  unfold State.dropPayload; split <;> simp [*]
@[simp] theorem dropPayload_fVersion (s : State) : (s.dropPayload).fVersion = s.fVersion := by
  unfold State.dropPayload; split <;> simp [*]
@[simp] theorem dropPayload_fTitle (s : State) : (s.dropPayload).fTitle = s.fTitle := by
  unfold State.dropPayload; split <;> simp [*]
@[simp] theorem dropPayload_fLength (s : State) : (s.dropPayload).fLength = s.fLength := by
  unfold State.dropPayload; split <;> simp [*]
@[simp] theorem dropPayload_fHandle (s : State) : (s.dropPayload).fHandle = none := by
  unfold State.dropPayload; split <;> simp [*]
@[simp] theorem dropPayload_pbuf (s : State) : (s.dropPayload).pbuf = s.pbuf := by
  unfold State.dropPayload; split <;> simp [*]
@[simp] theorem dropPayload_pcur (s : State) : (s.dropPayload).pcur = s.pcur := by
  unfold State.dropPayload; split <;> simp [*]
@[simp] theorem dropPayload_rem (s : State) : (s.dropPayload).rem = s.rem := by
  unfold State.dropPayload; split <;> simp [*]
@[simp] theorem dropPayload_phase (s : State) : (s.dropPayload).phase = s.phase := by
  unfold State.dropPayload; split <;> simp [*]
@[simp] theorem dropPayload_pq (s : State) : (s.dropPayload).pq = s.pq := by
  unfold State.dropPayload; split <;> simp [*]
@[simp] theorem dropPayload_fq (s : State) : (s.dropPayload).fq = s.fq := by
  unfold State.dropPayload; split <;> simp [*]
@[simp] theorem dropPayload_rx (s : State) : (s.dropPayload).rx = s.rx := by
  unfold State.dropPayload; split <;> simp [*]
@[simp] theorem dropPayload_tx (s : State) : (s.dropPayload).tx = s.tx := by
  unfold State.dropPayload; split <;> simp [*]
@[simp] theorem dropPayload_faults (s : State) : (s.dropPayload).faults = s.faults := by
  unfold State.dropPayload; split <;> simp [*]
@[simp] theorem dropPayload_refused (s : State) : (s.dropPayload).refused = s.refused := by
  unfold State.dropPayload; split <;> simp [*]
@[simp] theorem dropPayload_sched (s : State) : (s.dropPayload).sched = s.sched := by
  unfold State.dropPayload; split <;> simp [*]
@[simp] theorem dropPayload_nextAlloc (s : State) : (s.dropPayload).nextAlloc = s.nextAlloc := by
  unfold State.dropPayload; split <;> simp [*]
@[simp] theorem dropPayload_ticks (s : State) : (s.dropPayload).ticks = s.ticks := by
  unfold State.dropPayload; split <;> simp [*]
@[simp] theorem dropPayload_results (s : State) : (s.dropPayload).results = s.results := by
  unfold State.dropPayload; split <;> simp [*]

/-! ### endRelease -/

@[simp] theorem endRelease_state (s : State) : (endRelease s).state = s.state := by
  unfold endRelease; split <;> simp
@[simp] theorem endRelease_pending (s : State) : (endRelease s).pending = s.pending := by
  unfold endRelease; split <;> simp
@[simp] theorem endRelease_scratch (s : State) : (endRelease s).scratch = s.scratch := by
  unfold endRelease; split <;> simp
@[simp] theorem endRelease_scur (s : State) : (endRelease s).scur = s.scur := by
  unfold endRelease; split <;> simp
@[simp] theorem endRelease_fVersion (s : State) : (endRelease s).fVersion = s.fVersion := by
  unfold endRelease; split <;> simp
@[simp] theorem endRelease_fTitle (s : State) : (endRelease s).fTitle = s.fTitle := by
  unfold endRelease; split <;> simp
@[simp] theorem endRelease_fLength (s : State) : (endRelease s).fLength = s.fLength := by
  unfold endRelease; split <;> simp
@[simp] theorem endRelease_fHandle (s : State) : (endRelease s).fHandle = if s.pending then none else s.fHandle := by
  unfold endRelease; split <;> simp
@[simp] theorem endRelease_pbuf (s : State) : (endRelease s).pbuf = s.pbuf := by
  unfold endRelease; split <;> simp
@[simp] theorem endRelease_pcur (s : State) : (endRelease s).pcur = s.pcur := by
  unfold endRelease; split <;> simp
@[simp] theorem endRelease_rem (s : State) : (endRelease s).rem = s.rem := by
  unfold endRelease; split <;> simp
@[simp] theorem endRelease_phase (s : State) : (endRelease s).phase = s.phase := by
  unfold endRelease; split <;> simp
@[simp] theorem endRelease_pq (s : State) : (endRelease s).pq = s.pq := by
  unfold endRelease; split <;> simp
@[simp] theorem endRelease_fq (s : State) : (endRelease s).fq = s.fq := by
  unfold endRelease; split <;> simp
@[simp] theorem endRelease_rx (s : State) : (endRelease s).rx = s.rx := by
  unfold endRelease; split <;> simp
@[simp] theorem endRelease_tx (s : State) : (endRelease s).tx = s.tx := by
  unfold endRelease; split <;> simp
@[simp] theorem endRelease_faults (s : State) : (endRelease s).faults = s.faults := by
  unfold endRelease; split <;> simp
@[simp] theorem endRelease_refused (s : State) : (endRelease s).refused = s.refused := by
  unfold endRelease; split <;> simp
@[simp] theorem endRelease_sched (s : State) : (endRelease s).sched = s.sched := by
  unfold endRelease; split <;> simp
@[simp] theorem endRelease_nextAlloc (s : State) : (endRelease s).nextAlloc = s.nextAlloc := by
  unfold endRelease; split <;> simp
@[simp] theorem endRelease_ticks (s : State) : (endRelease s).ticks = s.ticks := by
  unfold endRelease; split <;> simp
@[simp] theorem endRelease_results (s : State) : (endRelease s).results = s.results := by
  unfold endRelease; split <;> simp

/-! ### nextMove -/

@[simp] theorem nextMove_state (s : State) : (s.nextMove.2).state = s.state := by
  unfold State.nextMove; split <;> rfl
@[simp] theorem nextMove_pending (s : State) : (s.nextMove.2).pending = s.pending := by
  unfold State.nextMove; split <;> rfl
@[simp] theorem nextMove_scratch (s : State) : (s.nextMove.2).scratch = s.scratch := by
  unfold State.nextMove; split <;> rfl
@[simp] theorem nextMove_scur (s : State) : (s.nextMove.2).scur = s.scur := by
  unfold State.nextMove; split <;> rfl
@[simp] theorem nextMove_fVersion (s : State) : (s.nextMove.2).fVersion = s.fVersion := by
  unfold State.nextMove; split <;> rfl
@[simp] theorem nextMove_fTitle (s : State) : (s.nextMove.2).fTitle = s.fTitle := by
  unfold State.nextMove; split <;> rfl
@[simp] theorem nextMove_fLength (s : State) : (s.nextMove.2).fLength = s.fLength := by
  unfold State.nextMove; split <;> rfl
@[simp] theorem nextMove_fHandle (s : State) : (s.nextMove.2).fHandle = s.fHandle := by
  unfold State.nextMove; split <;> rfl
@[simp] theorem nextMove_pbuf (s : State) : (s.nextMove.2).pbuf = s.pbuf := by
  unfold State.nextMove; split <;> rfl
@[simp] theorem nextMove_pcur (s : State) : (s.nextMove.2).pcur = s.pcur := by
  unfold State.nextMove; split <;> rfl
@[simp] theorem nextMove_rem (s : State) : (s.nextMove.2).rem = s.rem := by
  unfold State.nextMove; split <;> rfl
@[simp] theorem nextMove_phase (s : State) : (s.nextMove.2).phase = s.phase := by
  unfold State.nextMove; split <;> rfl
@[simp] theorem nextMove_pq (s : State) : (s.nextMove.2).pq = s.pq := by
  unfold State.nextMove; split <;> rfl
@[simp] theorem nextMove_fq (s : State) : (s.nextMove.2).fq = s.fq := by
  unfold State.nextMove; split <;> rfl
@[simp] theorem nextMove_live (s : State) : (s.nextMove.2).live = s.live := by
  unfold State.nextMove; split <;> rfl
@[simp] theorem nextMove_freed (s : State) : (s.nextMove.2).freed = s.freed := by
  unfold State.nextMove; split <;> rfl
@[simp] theorem nextMove_rx (s : State) : (s.nextMove.2).rx = s.rx := by
  unfold State.nextMove; split <;> rfl
@[simp] theorem nextMove_tx (s : State) : (s.nextMove.2).tx = s.tx := by
  unfold State.nextMove; split <;> rfl
@[simp] theorem nextMove_faults (s : State) : (s.nextMove.2).faults = s.faults := by
  unfold State.nextMove; split <;> rfl
@[simp] theorem nextMove_refused (s : State) : (s.nextMove.2).refused = s.refused := by
  unfold State.nextMove; split <;> rfl
@[simp] theorem nextMove_nextAlloc (s : State) : (s.nextMove.2).nextAlloc = s.nextAlloc := by
  unfold State.nextMove; split <;> rfl
@[simp] theorem nextMove_results (s : State) : (s.nextMove.2).results = s.results := by
  unfold State.nextMove; split <;> rfl

end Sys2Proof.Machine
end

