-- ==== Sys2Proof/Laws/Ops.lean ====
section
/-! SUPPORT. One lemma for each shared operation: everything it can do. -/

namespace Sys2Proof.Machine

/-! ### Results inside a step -/

@[simp] theorem bind_ok {α β : Type} (a : α) (k : α → Res β) : (Res.ok a).bind k = k a := rfl
@[simp] theorem bind_raised {α β : Type} (r : FaultReason) (s : State) (k : α → Res β) :
    (Res.raised r s).bind k = .raised r s := rfl
@[simp] theorem bind_stuck {α β : Type} (f : Fault) (k : α → Res β) : (Res.stuck f).bind k = .stuck f := rfl
@[simp] theorem bind_refused {α β : Type} (r : Refusal) (k : α → Res β) : (Res.refused r).bind k = .refused r := rfl
@[simp] theorem outcome_ok (s : State) : (Res.ok s).outcome = .next s := rfl
@[simp] theorem outcome_raised (r : FaultReason) (s : State) :
    (Res.raised r s : Res State).outcome = .next (s.recordFault r) := rfl
@[simp] theorem outcome_stuck (f : Fault) : (Res.stuck f : Res State).outcome = .fault f := rfl
@[simp] theorem outcome_refused (r : Refusal) : (Res.refused r : Res State).outcome = .refused r := rfl

/-- A sequence that answers a value has passed through a value. -/
theorem bind_eq_ok {α β : Type} {x : Res α} {k : α → Res β} {b : β} :
    x.bind k = .ok b ↔ ∃ a, x = .ok a ∧ k a = .ok b := by
  cases x <;> simp

/-- A sequence that raises has raised at once, or after a value. -/
theorem bind_eq_raised {α β : Type} {x : Res α} {k : α → Res β} {r : FaultReason} {s : State} :
    x.bind k = .raised r s ↔ x = .raised r s ∨ ∃ a, x = .ok a ∧ k a = .raised r s := by
  cases x <;> simp

/-- A step goes on exactly when its operations gave a state, or raised a fault that is then recorded. -/
theorem outcome_eq_next {x : Res State} {t : State} :
    x.outcome = .next t ↔ x = .ok t ∨ ∃ r s, x = .raised r s ∧ t = s.recordFault r := by
  cases x <;> simp [Res.outcome, eq_comm]

theorem selected_eq_ok {c : Bool} {x : Res State} {t : State} : selected c x = .ok t ↔ c = true ∧ x = .ok t := by
  cases c <;> simp [selected]

theorem selected_eq_raised {c : Bool} {x : Res State} {r : FaultReason} {t : State} :
    selected c x = .raised r t ↔ c = true ∧ x = .raised r t := by
  cases c <;> simp [selected]

theorem selected_of {c : Bool} (h : c = true) (x : Res State) : selected c x = x := by subst h; rfl

@[simp] theorem selected_true (x : Res State) : selected true x = x := rfl

/-! ### Storage arrays -/

theorem memRead_some {α : Type} {l : List (Option α)} {i : Nat} {v : α} (s : State) (h : l[i]? = some (some v)) :
    memRead l i s = .ok v := by
  simp [memRead, readCell, h]

theorem memRead_eq_ok {α : Type} {l : List (Option α)} {i : Nat} {v : α} {s : State} :
    memRead l i s = .ok v ↔ l[i]? = some (some v) := by
  unfold memRead readCell
  rcases h : l[i]? with _ | _ | w <;> simp

theorem memRead_eq_raised {α : Type} {l : List (Option α)} {i : Nat} {r : FaultReason} {s t : State} :
    memRead l i s = .raised r t ↔ l[i]? = some none ∧ r = .readUnwritten ∧ t = s := by
  unfold memRead readCell
  rcases h : l[i]? with _ | _ | w <;> simp [eq_comm]

theorem memWrite_lt {α : Type} {l : List (Option α)} {i : Nat} (v : α) (h : i < l.length) :
    memWrite l i v = .ok (l.set i (some v)) := by
  simp [memWrite, h]

theorem memWrite_eq_ok {α : Type} {l m : List (Option α)} {i : Nat} {v : α} :
    memWrite l i v = .ok m ↔ i < l.length ∧ m = l.set i (some v) := by
  unfold memWrite
  split <;> simp [*, eq_comm]

@[simp] theorem memWrite_ne_raised {α : Type} {l : List (Option α)} {i : Nat} {v : α} {r : FaultReason} {s : State} :
    memWrite l i v ≠ .raised r s := by
  unfold memWrite
  split <;> simp

@[simp] theorem clearCells_length {α : Type} (l : List (Option α)) (n : Nat) : (clearCells l n).length = l.length := by
  simp [clearCells]; omega

@[simp] theorem collect_map_some {α : Type} (vs : List α) : collect (vs.map some) = some vs := by
  induction vs with
  | nil => rfl
  | cons v vs ih => simp [collect, ih]

theorem collect_eq_some {α : Type} {l : List (Option α)} {vs : List α} : collect l = some vs ↔ l = vs.map some := by
  induction l generalizing vs with
  | nil => cases vs <;> simp [collect]
  | cons c l ih =>
    cases c with
    | none => cases vs <;> simp [collect]
    | some v => cases vs <;> simp [collect, ih, and_comm]

/-- Elements that all hold a value are collected whole. -/
theorem collect_of_all {α : Type} {l : List (Option α)} (h : ∀ c ∈ l, c.isSome = true) :
    ∃ vs, collect l = some vs ∧ l = vs.map some := by
  induction l with
  | nil => exact ⟨[], rfl, rfl⟩
  | cons c l ih =>
    obtain ⟨vs, hv, hl⟩ := ih fun d hd => h d (List.mem_cons_of_mem _ hd)
    obtain ⟨v, rfl⟩ := Option.isSome_iff_exists.mp (h c List.mem_cons_self)
    exact ⟨v :: vs, by simp [collect, hv], by simp [hl]⟩

/-! ### The scratch buffer -/

theorem record_lt {b : Byte} {s : State} (h : s.scur < s.scratch.length) :
    record b s = .ok (s.capture b) := by
  simp [record, Nat.not_le.mpr h]

theorem record_eq_ok {b : Byte} {s t : State} :
    record b s = .ok t ↔ s.scur < s.scratch.length ∧ t = s.capture b := by
  unfold record
  split
  · simp; omega
  · simp [eq_comm]; omega

theorem record_eq_raised {b : Byte} {s t : State} {r : FaultReason} :
    record b s = .raised r t ↔ s.scratch.length ≤ s.scur ∧ r = .scratchOverflow ∧ t = s := by
  unfold record
  split <;> simp [*, eq_comm]

/-! ### Sets of handles -/

@[simp] theorem mem_insertHandle {h x : Handle} {l : List Handle} : x ∈ insertHandle h l ↔ x = h ∨ x ∈ l := by
  induction l with
  | nil => simp [insertHandle]
  | cons y l ih =>
    unfold insertHandle
    split
    · simp
    · split
      · simp_all
      · simp [ih]; tauto

@[simp] theorem mem_removeHandle {h x : Handle} {l : List Handle} : x ∈ removeHandle h l ↔ x ∈ l ∧ x ≠ h := by
  simp [removeHandle]

theorem insertHandle_rises {h : Handle} {l : List Handle} (hl : l.Pairwise (· < ·)) :
    (insertHandle h l).Pairwise (· < ·) := by
  induction l with
  | nil => simp [insertHandle]
  | cons y l ih =>
    rw [List.pairwise_cons] at hl
    unfold insertHandle
    split
    · rename_i hy
      rw [List.pairwise_cons]
      exact ⟨fun z hz => by
        rcases List.mem_cons.mp hz with rfl | hz
        · exact hy
        · exact lt_trans hy (hl.1 z hz), List.pairwise_cons.mpr hl⟩
    · split
      · exact List.pairwise_cons.mpr hl
      · rename_i h1 h2
        rw [List.pairwise_cons]
        refine ⟨fun z hz => ?_, ih hl.2⟩
        rcases mem_insertHandle.mp hz with rfl | hz
        · exact lt_of_le_of_ne (not_lt.mp h1) (Ne.symm h2)
        · exact hl.1 z hz

theorem removeHandle_rises {h : Handle} {l : List Handle} (hl : l.Pairwise (· < ·)) :
    (removeHandle h l).Pairwise (· < ·) := hl.filter _

theorem lt_aboveAll {x : Nat} {l : List Nat} (h : x ∈ l) : x < aboveAll l := by
  induction l with
  | nil => simp at h
  | cons y l ih =>
    simp only [aboveAll, List.foldr_cons]
    rcases List.mem_cons.mp h with rfl | h
    · omega
    · have := ih h
      unfold aboveAll at this
      omega

/-- A drawn handle is in neither `live` nor `freed`. -/
theorem freshen_fresh (h : Handle) (s : State) : freshen h s ∉ s.live ∧ freshen h s ∉ s.freed := by
  unfold freshen isFresh
  split
  · simp_all
  · exact ⟨fun hm => absurd (lt_aboveAll (List.mem_append_left s.freed hm)) (Nat.not_lt.mpr (Nat.le_add_right _ _)),
      fun hm => absurd (lt_aboveAll (List.mem_append_right s.live hm)) (Nat.not_lt.mpr (Nat.le_add_right _ _))⟩

/-- Every fresh handle can be drawn. -/
theorem freshen_of_fresh {h : Handle} {s : State} (h1 : h ∉ s.live) (h2 : h ∉ s.freed) : freshen h s = h := by
  simp [freshen, isFresh, h1, h2]

/-! ### Queues -/

theorem enq_room {α : Type} {q : Queue α} (v : α) (h : q.fill < q.cap) (hw : q.wr < q.cap) :
    q.enq v = .ok (.ok, { cell := q.cell.set q.wr (some v), wr := (q.wr + 1) % q.cap, rd := q.rd, fill := q.fill + 1 }) := by
  simp [Queue.enq, h, memWrite_lt v (show q.wr < q.cell.length from hw)]

theorem enq_full {α : Type} {q : Queue α} (v : α) (h : ¬ q.fill < q.cap) : q.enq v = .ok (.full, q) := by
  simp [Queue.enq, h]

theorem deq_item {α : Type} {q : Queue α} {v : α} (s : State) (h : 0 < q.fill) (hv : q.cell[q.rd]? = some (some v)) :
    q.deq s = .ok (some v, { cell := q.cell.set q.rd none, wr := q.wr, rd := (q.rd + 1) % q.cap, fill := q.fill - 1 }) := by
  simp [Queue.deq, h, memRead_some s hv]

theorem deq_empty {α : Type} {q : Queue α} (s : State) (h : ¬ 0 < q.fill) : q.deq s = .ok (none, q) := by
  simp [Queue.deq, h]

/-- In a queue that meets R35, the cell at `rd` holds an item when the queue is not empty. -/
theorem head_cell {α : Type} {q : Queue α} (hq : q.Ok) (h : 0 < q.fill) : ∃ v, q.cell[q.rd]? = some (some v) := by
  obtain ⟨h1, h2, h3, h4, h5, h6⟩ := hq
  have := h6 0 (by omega)
  rw [Nat.add_zero, Nat.mod_eq_of_lt h4, decide_eq_true h] at this
  rcases hc : q.cell[q.rd]? with _ | _ | v
  · simp [hc] at this
  · simp [hc] at this
  · exact ⟨v, rfl⟩

theorem mod_inj {N a i j : Nat} (hi : i < N) (hj : j < N) (h : (a + i) % N = (a + j) % N) : i = j := by
  have h' : (a + i) ≡ (a + j) [MOD N] := h
  have := Nat.ModEq.add_left_cancel' a h'
  rwa [Nat.ModEq, Nat.mod_eq_of_lt hi, Nat.mod_eq_of_lt hj] at this

/-- `Enq` keeps the queue invariant, whatever its answer. -/
theorem enq_ok {α : Type} {q : Queue α} (v : α) (hq : q.Ok) : ∃ r, q.enq v = .ok r ∧ r.2.Ok ∧ r.2.cap = q.cap := by
  obtain ⟨h1, h2, h3, h4, h5, h6⟩ := hq
  by_cases h : q.fill < q.cap
  · refine ⟨_, enq_room v h h3, ?_, by simp [Queue.cap]⟩
    refine ⟨by simpa [Queue.cap] using h1, by simp [Queue.cap] at *; omega, ?_, by simpa [Queue.cap] using h4, ?_, ?_⟩
    · simp only [Queue.cap, List.length_set]; exact Nat.mod_lt _ h1
    · simp only [Queue.cap, List.length_set] at *
      rw [h5, ← Nat.add_assoc, Nat.mod_add_mod]
    · intro k hk
      simp only [Queue.cap, List.length_set] at *
      have := h6 k hk
      by_cases hkf : k = q.fill
      · subst hkf
        rw [← h5, List.getElem?_set_self h3]; simp
      · rw [List.getElem?_set_ne, this]
        · simp; omega
        · rw [h5]; exact fun hc => hkf (mod_inj hk h hc.symm)
  · exact ⟨_, enq_full v h, ⟨h1, h2, h3, h4, h5, h6⟩, rfl⟩

/-- `Deq` on a queue that meets the invariant raises nothing and keeps the invariant. -/
theorem deq_ok {α : Type} {q : Queue α} (s : State) (hq : q.Ok) :
    ∃ r, q.deq s = .ok r ∧ r.2.Ok ∧ r.2.cap = q.cap := by
  by_cases h : 0 < q.fill
  · obtain ⟨v, hv⟩ := head_cell hq h
    obtain ⟨h1, h2, h3, h4, h5, h6⟩ := hq
    refine ⟨_, deq_item s h hv, ?_, by simp [Queue.cap]⟩
    simp only [Queue.Ok, Queue.cap, List.length_set] at *
    refine ⟨h1, by omega, h3, Nat.mod_lt _ h1, ?_, ?_⟩
    · rw [h5, Nat.mod_add_mod]; congr 1; omega
    · intro k hk
      rw [Nat.mod_add_mod]
      by_cases hlast : k + 1 = q.cell.length
      · have : (q.rd + 1 + k) % q.cell.length = q.rd := by
          rw [show q.rd + 1 + k = q.rd + q.cell.length by omega, Nat.add_mod_right, Nat.mod_eq_of_lt h4]
        rw [this, List.getElem?_set_self h4]
        simp; omega
      · have hne : (q.rd + 1 + k) % q.cell.length ≠ q.rd := by
          intro hc
          have : (q.rd + (k + 1)) % q.cell.length = (q.rd + 0) % q.cell.length := by
            rw [show q.rd + (k + 1) = q.rd + 1 + k by omega, hc]; exact (Nat.mod_eq_of_lt h4).symm
          have := mod_inj (by omega) h1 this
          omega
        rw [List.getElem?_set_ne hne.symm, show q.rd + 1 + k = q.rd + (k + 1) by omega, h6 (k + 1) (by omega)]
        simp; omega
  · exact ⟨_, deq_empty s h, hq, rfl⟩

end Sys2Proof.Machine
end

