-- ==== Sys2Proof/Laws/Decode.lean ====
section
/-! SUPPORT. The dispatch word gives back its two parts, so a proof about dispatch splits on the framing state and never
on the bits of the word. -/

namespace Sys2Proof

@[simp] theorem ofCode_code (st : FsmState) : FsmState.ofCode st.code = st := by cases st <;> decide

theorem dispatchWord_code (st : FsmState) (b : Byte) : (dispatchWord st b).extractLsb' 8 3 = st.code := by
  unfold dispatchWord
  exact BitVec.extractLsb'_append_eq_left

theorem dispatchWord_byte (st : FsmState) (b : Byte) : (dispatchWord st b).extractLsb' 0 8 = b := by
  unfold dispatchWord
  exact BitVec.extractLsb'_append_eq_right

/-- Decoding the dispatch word of a state and a byte selects the row of that state and that byte. -/
@[simp] theorem decodeDispatch_word (st : FsmState) (b : Byte) (c : RowCond) :
    decodeDispatch (dispatchWord st b) c = decodeRow st b c := by
  simp [decodeDispatch, dispatchWord_code, dispatchWord_byte]

namespace Machine

@[simp] theorem dispatch_eq (s : State) (b : Byte) : s.dispatch b = decodeRow s.state b s.rowCond := by
  simp [State.dispatch]

@[simp] theorem withRx_rowCond (l : List Byte) (s : State) : (s.withRx l).rowCond = s.rowCond := rfl

/-- The meaning of a dispatch row is its rule, recorded as a step. -/
theorem exec_row {i : Instr} {st : FsmState} {b : Byte} {c : RowCond} (h : decodeRow st b c = .ok i) (s : State) :
    exec i s = (rowRule i s).outcome := by
  unfold decodeRow at h
  cases st <;> simp only at h <;> (try split_ifs at h) <;> cases h <;> rfl

/-- A call on a byte whose row's rule goes through. -/
theorem processRead_of_rule {s t : State} {b : Byte} {i : Instr} (hd : decodeRow s.state b s.rowCond = .ok i)
    (ht : rowRule i s = .ok t) :
    processRead b s = .ok (if s.state = .preambleWait then t else resetCheck t) := by
  simp [processRead, hd, ht]

/-- A call with a byte to read, at a call boundary. -/
theorem processByte_read {s : State} {b : Byte} {rest : List Byte} (hp : s.phase = .idle) (hr : s.rx = b :: rest) :
    exec .processByte s = (processRead b (s.withRx rest)).outcome := by
  simp [exec, execProcessByte, hp, hr]

end Machine

end Sys2Proof
end

