-- ==== Sys2Proof/Laws/Framer.lean ====
section
/-! SUPPORT. What each rule of the framing state machine can do: if it answers a state, which one; and the one or two
ways it can raise. -/

namespace Sys2Proof.Machine

theorem enqPassthrough_eq_ok {b : Byte} {s t : State} :
    enqPassthrough b s = .ok t ↔
      (s.pq.fill < s.pq.cap ∧ s.pq.wr < s.pq.cap ∧ t = { s with pq := s.pq.withItem b }) ∨
        (¬ s.pq.fill < s.pq.cap ∧ t = s) := by
  unfold enqPassthrough Queue.enq memWrite
  by_cases h1 : s.pq.fill < s.pq.cap
  · by_cases h2 : s.pq.wr < s.pq.cell.length <;> simp [h1, h2, eq_comm]
  · simp only [h1, if_false, bind_ok, Res.ok.injEq, false_and, not_false_eq_true, true_and, false_or]
    exact eq_comm

@[simp] theorem enqPassthrough_ne_raised {b : Byte} {s t : State} {r : FaultReason} :
    enqPassthrough b s ≠ .raised r t := by
  unfold enqPassthrough Queue.enq memWrite
  by_cases h1 : s.pq.fill < s.pq.cap <;> by_cases h2 : s.pq.wr < s.pq.cell.length <;> simp [h1, h2]

theorem enqFrame_eq_ok {q : Queue FrameRec} {fr : FrameRec} {r : ResultCode × Queue FrameRec} :
    q.enq fr = .ok r ↔
      (q.fill < q.cap ∧ q.wr < q.cap ∧ r = (.ok, q.withItem fr)) ∨ (¬ q.fill < q.cap ∧ r = (.full, q)) := by
  unfold Queue.enq memWrite
  by_cases h1 : q.fill < q.cap <;> by_cases h2 : q.wr < q.cell.length <;> simp [h1, h2, eq_comm]

@[simp] theorem enq_ne_raised {α : Type} {q : Queue α} {v : α} {r : FaultReason} {t : State} :
    q.enq v ≠ .raised r t := by
  unfold Queue.enq memWrite
  by_cases h1 : q.fill < q.cap <;> by_cases h2 : q.wr < q.cell.length <;> simp [h1, h2]

theorem readField_eq_ok {α : Type} {f : Option α} {s : State} {v : α} : readField f s = .ok v ↔ f = some v := by
  cases f <;> simp [readField]

theorem readField_eq_raised {α : Type} {f : Option α} {s t : State} {r : FaultReason} :
    readField f s = .raised r t ↔ f = none ∧ r = .readUnwritten ∧ t = s := by
  cases f <;> simp [readField, eq_comm]

theorem memReadRange_eq_ok {α : Type} {l : List (Option α)} {n : Nat} {s : State} {vs : List α} :
    memReadRange l n s = .ok vs ↔ n ≤ l.length ∧ l.take n = vs.map some := by
  unfold memReadRange
  by_cases h : n ≤ l.length
  · simp only [h, if_true, true_and, ← collect_eq_some]
    cases collect (l.take n) <;> simp
  · simp [h]

theorem memReadRange_eq_raised {α : Type} {l : List (Option α)} {n : Nat} {s t : State} {r : FaultReason}
    (h : memReadRange l n s = .raised r t) : r = .readUnwritten ∧ t = s := by
  unfold memReadRange at h
  split at h
  · split at h <;> cases h
    exact ⟨rfl, rfl⟩
  · cases h

/-- The record the framer builds is the record of the frame in progress, and it builds no other. -/
theorem frameRecord_eq_ok {s : State} {fr : FrameRec} : frameRecord s = .ok fr ↔ FrameInProgress s fr := by
  constructor
  · intro h
    simp only [frameRecord, framePayload, bind_eq_ok, readField_eq_ok] at h
    obtain ⟨v, hv, t, ht, len, hl, p, hp, h⟩ := h
    cases h
    refine ⟨hv, ht, hl, fun h0 => ?_, fun h0 => ?_⟩
    · have h0' : len.toNat = 0 := h0
      rw [if_neg (by omega)] at hp
      cases hp; rfl
    · have h0' : 0 < len.toNat := h0
      rw [if_pos h0'] at hp
      simp only [bind_eq_ok, readField_eq_ok, memReadRange_eq_ok] at hp
      obtain ⟨k, hk, bs, ⟨hle, hbs⟩, hp⟩ := hp
      cases hp
      refine ⟨_, rfl, hk, hbs, ?_⟩
      have := congrArg List.length hbs
      simp only [List.length_take, List.length_map] at this
      show bs.length = len.toNat
      omega
  · rintro ⟨h1, h2, h3, h4, h5⟩
    simp only [frameRecord, h1, h2, h3, readField, bind_ok, framePayload]
    by_cases hz : 0 < fr.length.toNat
    · obtain ⟨p, hp, hh, hb, hlen⟩ := h5 hz
      have : fr.length.toNat ≤ s.pbuf.length := by
        have := congrArg List.length hb
        simp only [List.length_take, List.length_map] at this
        omega
      simp [hz, hh, memReadRange, this, hb, ← hp]
    · simp [hz, ← h4 (by omega)]

theorem frameRecord_eq_raised {s t : State} {r : FaultReason} (h : frameRecord s = .raised r t) :
    r = .readUnwritten ∧ t = s := by
  simp only [frameRecord, framePayload, bind_eq_raised, readField_eq_raised] at h
  rcases h with ⟨_, h⟩ | ⟨_, _, ⟨_, h⟩ | ⟨_, _, ⟨_, h⟩ | ⟨len, _, h | ⟨_, _, h⟩⟩⟩⟩
  · exact h
  · exact h
  · exact h
  · split at h
    · simp only [bind_eq_raised, readField_eq_raised] at h
      rcases h with ⟨_, h⟩ | ⟨_, _, h | ⟨_, _, h⟩⟩
      · exact h
      · exact memReadRange_eq_raised h
      · cases h
    · cases h
  · cases h

theorem storePayloadByte_eq_ok {b : Byte} {s t : State} :
    storePayloadByte b s = .ok t ↔
      s.scur < s.scratch.length ∧ s.pcur < s.pbuf.length ∧
        t = { s.capture b with pbuf := s.pbuf.set s.pcur (some b), pcur := s.pcur + 1, rem := s.rem - 1 } := by
  simp only [storePayloadByte, bind_eq_ok, record_eq_ok, memWrite_eq_ok]
  constructor
  · rintro ⟨u, ⟨h1, rfl⟩, c, ⟨h2, rfl⟩, h⟩
    cases h
    exact ⟨h1, h2, rfl⟩
  · rintro ⟨h1, h2, rfl⟩
    exact ⟨_, ⟨h1, rfl⟩, _, ⟨h2, rfl⟩, rfl⟩

theorem storePayloadByte_eq_raised {b : Byte} {s t : State} {r : FaultReason}
    (h : storePayloadByte b s = .raised r t) : s.scratch.length ≤ s.scur ∧ r = .scratchOverflow ∧ t = s := by
  simp only [storePayloadByte, bind_eq_raised, record_eq_raised] at h
  rcases h with h | ⟨_, _, h | ⟨_, _, h⟩⟩
  · exact h
  · exact absurd h memWrite_ne_raised
  · cases h

/-! ### The rules, inverted -/

theorem rulePreStart_eq_ok {s t : State} :
    rulePreStart s = .ok t ↔ s.state = .preambleWait ∧ 0 < s.scratch.length ∧
      t = { s with
        pending := false, scratch := s.scratch.set 0 (some Config.preamble), scur := 1, state := .versionWait } := by
  simp only [rulePreStart, selected_eq_ok, bind_eq_ok, record_eq_ok, decide_eq_true_eq]
  constructor
  · rintro ⟨h1, u, ⟨h2, rfl⟩, h⟩
    cases h
    exact ⟨h1, h2, rfl⟩
  · rintro ⟨h1, h2, rfl⟩
    exact ⟨h1, _, ⟨h2, rfl⟩, rfl⟩

theorem rulePrePass_eq_ok {b : Byte} {s t : State} :
    rulePrePass b s = .ok t ↔ (s.state = .preambleWait ∧ b ≠ Config.preamble) ∧ enqPassthrough b s = .ok t := by
  simp [rulePrePass, selected_eq_ok]

theorem ruleVerOk_eq_ok {s t : State} :
    ruleVerOk s = .ok t ↔ s.state = .versionWait ∧ s.scur < s.scratch.length ∧
      t = { s.capture Config.version with fVersion := some Config.version, state := .titleWait } := by
  simp only [ruleVerOk, selected_eq_ok, bind_eq_ok, record_eq_ok, decide_eq_true_eq]
  constructor
  · rintro ⟨h1, u, ⟨h2, rfl⟩, h⟩
    cases h
    exact ⟨h1, h2, rfl⟩
  · rintro ⟨h1, h2, rfl⟩
    exact ⟨h1, _, ⟨h2, rfl⟩, rfl⟩

theorem ruleVerBad_eq_ok {b : Byte} {s t : State} :
    ruleVerBad b s = .ok t ↔ (s.state = .versionWait ∧ b ≠ Config.version) ∧ s.scur < s.scratch.length ∧
      t = (s.capture b).setPending := by
  simp only [ruleVerBad, selected_eq_ok, bind_eq_ok, record_eq_ok, decide_eq_true_eq]
  constructor
  · rintro ⟨h1, u, ⟨h2, rfl⟩, h⟩
    cases h
    exact ⟨h1, h2, rfl⟩
  · rintro ⟨h1, h2, rfl⟩
    exact ⟨h1, _, ⟨h2, rfl⟩, rfl⟩

theorem ruleTitle_eq_ok {b : Byte} {s t : State} :
    ruleTitle b s = .ok t ↔ s.state = .titleWait ∧ s.scur < s.scratch.length ∧
      t = { s.capture b with fTitle := some b, state := .lengthWait } := by
  simp only [ruleTitle, selected_eq_ok, bind_eq_ok, record_eq_ok, decide_eq_true_eq]
  constructor
  · rintro ⟨h1, u, ⟨h2, rfl⟩, h⟩
    cases h
    exact ⟨h1, h2, rfl⟩
  · rintro ⟨h1, h2, rfl⟩
    exact ⟨h1, _, ⟨h2, rfl⟩, rfl⟩

theorem ruleLenZero_eq_ok {s t : State} :
    ruleLenZero s = .ok t ↔ s.state = .lengthWait ∧ s.scur < s.scratch.length ∧
      t = { s.capture 0 with fLength := some 0, state := .endWait } := by
  simp only [ruleLenZero, selected_eq_ok, bind_eq_ok, record_eq_ok, decide_eq_true_eq]
  constructor
  · rintro ⟨h1, u, ⟨h2, rfl⟩, h⟩
    cases h
    exact ⟨h1, h2, rfl⟩
  · rintro ⟨h1, h2, rfl⟩
    exact ⟨h1, _, ⟨h2, rfl⟩, rfl⟩

theorem ruleLenAlloc_eq_ok {b : Byte} {s t : State} :
    ruleLenAlloc b s = .ok t ↔ s.state = .lengthWait ∧ payloadLength b = true ∧ s.scur < s.scratch.length ∧
      ∃ h, s.peekDraw = .ok h ∧
        t = allocate b (freshen h s) { s.capture b with fLength := some b }.takeDraw := by
  unfold ruleLenAlloc State.drawnHandle
  cases hd : s.peekDraw with
  | fail => simp
  | ok h =>
    simp only [selected_eq_ok, bind_eq_ok, record_eq_ok, Bool.and_eq_true, decide_eq_true_eq]
    constructor
    · rintro ⟨⟨h1, h2⟩, u, ⟨h3, rfl⟩, h⟩
      cases h
      exact ⟨h1, h2, h3, _, rfl, rfl⟩
    · rintro ⟨h1, h2, h3, k, hk, rfl⟩
      cases hk
      exact ⟨⟨h1, h2⟩, _, ⟨h3, rfl⟩, rfl⟩

theorem ruleLenNomem_eq_ok {b : Byte} {s t : State} :
    ruleLenNomem b s = .ok t ↔ s.state = .lengthWait ∧ payloadLength b = true ∧ s.scur < s.scratch.length ∧
      s.drawOk = false ∧ t = { s.capture b with fLength := some b }.takeDraw.setPending := by
  simp only [ruleLenNomem, selected_eq_ok, bind_eq_ok, record_eq_ok, Bool.and_eq_true, decide_eq_true_eq,
    Bool.not_eq_true']
  constructor
  · rintro ⟨⟨⟨h1, h2⟩, h3⟩, u, ⟨h4, rfl⟩, h⟩
    cases h
    exact ⟨h1, h2, h4, h3, rfl⟩
  · rintro ⟨h1, h2, h4, h3, rfl⟩
    exact ⟨⟨⟨h1, h2⟩, h3⟩, _, ⟨h4, rfl⟩, rfl⟩

theorem ruleLenBad_eq_ok {b : Byte} {s t : State} :
    ruleLenBad b s = .ok t ↔ (s.state = .lengthWait ∧ Config.maxLength ≤ b.toNat) ∧ s.scur < s.scratch.length ∧
      t = { s.capture b with fLength := some b }.setPending := by
  simp only [ruleLenBad, selected_eq_ok, bind_eq_ok, record_eq_ok, decide_eq_true_eq]
  constructor
  · rintro ⟨h1, u, ⟨h2, rfl⟩, h⟩
    cases h
    exact ⟨h1, h2, rfl⟩
  · rintro ⟨h1, h2, rfl⟩
    exact ⟨h1, _, ⟨h2, rfl⟩, rfl⟩

theorem ruleMsgByte_eq_ok {b : Byte} {s t : State} :
    ruleMsgByte b s = .ok t ↔ (s.state = .messageWait ∧ 2 ≤ s.rem) ∧
      ∃ u, storePayloadByte b s = .ok u ∧ t = releasePayloadIfPending u := by
  simp only [ruleMsgByte, selected_eq_ok, bind_eq_ok, decide_eq_true_eq, Res.ok.injEq, eq_comm (b := t)]

theorem ruleMsgLast_eq_ok {b : Byte} {s t : State} :
    ruleMsgLast b s = .ok t ↔ (s.state = .messageWait ∧ s.rem = 1) ∧
      ∃ u, storePayloadByte b s = .ok u ∧ t = releasePayloadIfPending { u with state := .endWait } := by
  simp only [ruleMsgLast, selected_eq_ok, bind_eq_ok, decide_eq_true_eq, Res.ok.injEq, eq_comm (b := t)]

theorem ruleEndOk_eq_ok {s t : State} :
    ruleEndOk s = .ok t ↔ (s.state = .endWait ∧ s.fq.fill < s.fq.cap) ∧ s.scur < s.scratch.length ∧
      s.fq.wr < s.fq.cap ∧ ∃ fr, FrameInProgress s fr ∧
        t = { s.capture Config.terminator with fq := s.fq.withItem fr, fHandle := none, state := .preambleWait } := by
  simp only [ruleEndOk, selected_eq_ok, bind_eq_ok, record_eq_ok, decide_eq_true_eq, frameRecord_eq_ok, enqFrame_eq_ok]
  constructor
  · rintro ⟨h1, u, ⟨h2, rfl⟩, fr, h3, r, ⟨_, h4, rfl⟩ | ⟨h4, rfl⟩, h⟩
    · cases h
      exact ⟨h1, h2, h4, fr, h3, rfl⟩
    · exact absurd h1.2 h4
  · rintro ⟨h1, h2, h4, fr, h3, rfl⟩
    exact ⟨h1, _, ⟨h2, rfl⟩, fr, h3, _, .inl ⟨h1.2, h4, rfl⟩, rfl⟩

theorem ruleEndFull_eq_ok {s t : State} :
    ruleEndFull s = .ok t ↔ (s.state = .endWait ∧ ¬ s.fq.fill < s.fq.cap) ∧ s.scur < s.scratch.length ∧
      (∃ fr, FrameInProgress s fr) ∧ t = endRelease (s.capture Config.terminator).setPending := by
  simp only [ruleEndFull, selected_eq_ok, bind_eq_ok, record_eq_ok, decide_eq_true_eq, frameRecord_eq_ok,
    enqFrame_eq_ok]
  constructor
  · rintro ⟨h1, u, ⟨h2, rfl⟩, fr, h3, r, ⟨h4, _, rfl⟩ | ⟨h4, rfl⟩, h⟩
    · exact absurd h4 h1.2
    · cases h
      exact ⟨h1, h2, ⟨fr, h3⟩, rfl⟩
  · rintro ⟨h1, h2, ⟨fr, h3⟩, rfl⟩
    exact ⟨h1, _, ⟨h2, rfl⟩, fr, h3, _, .inr ⟨h1.2, rfl⟩, rfl⟩

theorem ruleEndBad_eq_ok {b : Byte} {s t : State} :
    ruleEndBad b s = .ok t ↔ (s.state = .endWait ∧ b ≠ Config.terminator) ∧ s.scur < s.scratch.length ∧
      t = endRelease (s.capture b).setPending := by
  simp only [ruleEndBad, selected_eq_ok, bind_eq_ok, record_eq_ok, decide_eq_true_eq]
  constructor
  · rintro ⟨h1, u, ⟨h2, rfl⟩, h⟩
    cases h
    exact ⟨h1, h2, rfl⟩
  · rintro ⟨h1, h2, rfl⟩
    exact ⟨h1, _, ⟨h2, rfl⟩, rfl⟩

/-- A row raises only ScratchOverflow, with nothing captured, or, at a terminator, ReadUnwritten after the capture. -/
theorem rowRule_eq_raised {i : Instr} {s t : State} {r : FaultReason} (h : rowRule i s = .raised r t) :
    (r = .scratchOverflow ∧ (t = s ∨ t = { s with pending := false, scur := 0 })) ∨
      (r = .readUnwritten ∧ t = s.capture Config.terminator) := by
  cases i <;> simp only [rowRule, reduceCtorEq] at h
  case preStart =>
    simp only [rulePreStart, selected_eq_raised, bind_eq_raised, record_eq_raised] at h
    rcases h with ⟨_, h | ⟨_, _, h⟩⟩
    · exact .inl ⟨h.2.1, .inr h.2.2⟩
    · cases h
  case prePass b =>
    simp [rulePrePass, selected_eq_raised] at h
  case lenAlloc b =>
    unfold ruleLenAlloc at h
    split at h
    · simp only [selected_eq_raised, bind_eq_raised, record_eq_raised] at h
      rcases h with ⟨_, h | ⟨_, _, h⟩⟩
      · exact .inl ⟨h.2.1, .inl h.2.2⟩
      · cases h
    · cases h
  case msgByte b =>
    simp only [ruleMsgByte, selected_eq_raised, bind_eq_raised] at h
    rcases h with ⟨_, h | ⟨_, _, h⟩⟩
    · have := storePayloadByte_eq_raised h
      exact .inl ⟨this.2.1, .inl this.2.2⟩
    · cases h
  case msgLast b =>
    simp only [ruleMsgLast, selected_eq_raised, bind_eq_raised] at h
    rcases h with ⟨_, h | ⟨_, _, h⟩⟩
    · have := storePayloadByte_eq_raised h
      exact .inl ⟨this.2.1, .inl this.2.2⟩
    · cases h
  case endOk =>
    simp only [ruleEndOk, selected_eq_raised, bind_eq_raised, record_eq_raised, record_eq_ok] at h
    rcases h with ⟨_, h | ⟨_, ⟨_, rfl⟩, h | ⟨_, _, h | ⟨_, _, h⟩⟩⟩⟩
    · exact .inl ⟨h.2.1, .inl h.2.2⟩
    · exact .inr (frameRecord_eq_raised h)
    · exact absurd h enq_ne_raised
    · cases h
  case endFull =>
    simp only [ruleEndFull, selected_eq_raised, bind_eq_raised, record_eq_raised, record_eq_ok] at h
    rcases h with ⟨_, h | ⟨_, ⟨_, rfl⟩, h | ⟨_, _, h | ⟨_, _, h⟩⟩⟩⟩
    · exact .inl ⟨h.2.1, .inl h.2.2⟩
    · exact .inr (frameRecord_eq_raised h)
    · exact absurd h enq_ne_raised
    · cases h
  all_goals
    simp only [ruleVerOk, ruleVerBad, ruleTitle, ruleLenZero, ruleLenNomem, ruleLenBad, ruleEndBad, selected_eq_raised,
      bind_eq_raised, record_eq_raised] at h
    rcases h with ⟨_, h | ⟨_, _, h⟩⟩
    · exact .inl ⟨h.2.1, .inl h.2.2⟩
    · cases h

/-- What the first step's work on a byte can do: a row's rule goes through, or a fault is raised, or there is no row. -/
theorem processRead_cases {b : Byte} {s : State} :
    (∃ i t, decodeRow s.state b s.rowCond = .ok i ∧ rowRule i s = .ok t ∧
      processRead b s = .ok (if s.state = .preambleWait then t else resetCheck t)) ∨
    (∃ i r t, decodeRow s.state b s.rowCond = .ok i ∧ rowRule i s = .raised r t ∧ processRead b s = .raised r t) ∨
    (processRead b s = .raised .badState s ∧ (s.state = .unused6 ∨ s.state = .unused7)) ∨
    (∃ f, processRead b s = .stuck f) ∨ ∃ r, processRead b s = .refused r := by
  cases hd : decodeRow s.state b s.rowCond with
  | error e =>
    unfold decodeRow at hd
    cases hs : s.state <;> simp only [hs] at hd
    case unused6 => exact .inr (.inr (.inl ⟨by simp [processRead, hs, decodeRow], .inl rfl⟩))
    case unused7 => exact .inr (.inr (.inl ⟨by simp [processRead, hs, decodeRow], .inr rfl⟩))
    case messageWait =>
      split_ifs at hd
      rename_i h1 h2
      exact .inr (.inr (.inr (.inl ⟨.noRow, by simp [processRead, hs, decodeRow, h1, h2]⟩)))
    case titleWait => cases hd
    all_goals split_ifs at hd
  | ok i =>
    cases hr : rowRule i s with
    | ok t => exact .inl ⟨i, t, rfl, hr, processRead_of_rule hd hr⟩
    | raised r t => exact .inr (.inl ⟨i, r, t, rfl, hr, by simp [processRead, hd, hr]⟩)
    | stuck f => exact .inr (.inr (.inr (.inl ⟨f, by simp [processRead, hd, hr]⟩)))
    | refused r => exact .inr (.inr (.inr (.inr ⟨r, by simp [processRead, hd, hr]⟩)))

/-- One replay step, inverted. -/
theorem replayStep_eq_ok {i : Nat} {s t : State} :
    replayStep i s = .ok t ↔ ∃ b u, s.scratch[i]? = some (some b) ∧ enqPassthrough b s = .ok u ∧
      t = if i + 1 = s.scur then finishReplay { u with phase := .replay (i + 1) } else { u with phase := .replay (i + 1) } := by
  simp only [replayStep, bind_eq_ok, memRead_eq_ok]
  constructor
  · rintro ⟨b, h1, u, h2, h⟩
    cases h
    exact ⟨b, u, h1, h2, rfl⟩
  · rintro ⟨b, u, h1, h2, rfl⟩
    exact ⟨b, h1, u, h2, rfl⟩

theorem replayStep_eq_raised {i : Nat} {s t : State} {r : FaultReason} (h : replayStep i s = .raised r t) :
    s.scratch[i]? = some none ∧ r = .readUnwritten ∧ t = s := by
  simp only [replayStep, bind_eq_raised, memRead_eq_raised] at h
  rcases h with h | ⟨_, _, h | ⟨_, _, h⟩⟩
  · exact h
  · exact absurd h enqPassthrough_ne_raised
  · cases h

/-! ### The consumers and the owner, inverted -/

theorem deq_eq_ok {α : Type} {q : Queue α} {s : State} {r : Option α × Queue α} :
    q.deq s = .ok r ↔
      (∃ v, 0 < q.fill ∧ q.cell[q.rd]? = some (some v) ∧ r = (some v, q.withoutHead)) ∨ (¬ 0 < q.fill ∧ r = (none, q)) := by
  unfold Queue.deq
  by_cases h : 0 < q.fill
  · simp only [h, if_true, bind_eq_ok, memRead_eq_ok, not_true, false_and, or_false, true_and]
    constructor
    · rintro ⟨v, h1, h2⟩
      cases h2
      exact ⟨v, h1, rfl⟩
    · rintro ⟨v, h1, rfl⟩
      exact ⟨v, h1, rfl⟩
  · simp [h, eq_comm]

theorem deq_eq_raised {α : Type} {q : Queue α} {s t : State} {r : FaultReason} (h : q.deq s = .raised r t) :
    0 < q.fill ∧ q.cell[q.rd]? = some none ∧ r = .readUnwritten ∧ t = s := by
  unfold Queue.deq at h
  split at h
  · rename_i h0
    simp only [bind_eq_raised, memRead_eq_raised] at h
    rcases h with ⟨h1, h2, h3⟩ | ⟨_, _, h⟩
    · exact ⟨h0, h1, h2, h3⟩
    · cases h
  · cases h

theorem takeFrame_eq_ok {a : Agent} {s t : State} :
    takeFrame a s = .ok t ↔
      (∃ fr, 0 < s.fq.fill ∧ s.fq.cell[s.fq.rd]? = some (some fr) ∧
        t = { s with fq := s.fq.withoutHead }.respond a .ok (some (.frame fr))) ∨
      (¬ 0 < s.fq.fill ∧ t = s.respond a .empty none) := by
  simp only [takeFrame, bind_eq_ok, deq_eq_ok]
  constructor
  · rintro ⟨r, ⟨v, h1, h2, rfl⟩ | ⟨h1, rfl⟩, h⟩ <;> cases h
    · exact .inl ⟨v, h1, h2, rfl⟩
    · exact .inr ⟨h1, rfl⟩
  · rintro (⟨v, h1, h2, rfl⟩ | ⟨h1, rfl⟩)
    · exact ⟨_, .inl ⟨v, h1, h2, rfl⟩, rfl⟩
    · exact ⟨_, .inr ⟨h1, rfl⟩, rfl⟩

theorem takePassthrough_eq_ok {a : Agent} {s t : State} :
    takePassthrough a s = .ok t ↔
      (∃ b, 0 < s.pq.fill ∧ s.pq.cell[s.pq.rd]? = some (some b) ∧
        t = { s with pq := s.pq.withoutHead }.respond a .ok (some (.byte b))) ∨
      (¬ 0 < s.pq.fill ∧ t = s.respond a .empty none) := by
  simp only [takePassthrough, bind_eq_ok, deq_eq_ok]
  constructor
  · rintro ⟨r, ⟨v, h1, h2, rfl⟩ | ⟨h1, rfl⟩, h⟩ <;> cases h
    · exact .inl ⟨v, h1, h2, rfl⟩
    · exact .inr ⟨h1, rfl⟩
  · rintro (⟨v, h1, h2, rfl⟩ | ⟨h1, rfl⟩)
    · exact ⟨_, .inl ⟨v, h1, h2, rfl⟩, rfl⟩
    · exact ⟨_, .inr ⟨h1, rfl⟩, rfl⟩

theorem takeFrame_eq_raised {a : Agent} {s t : State} {r : FaultReason} (h : takeFrame a s = .raised r t) :
    0 < s.fq.fill ∧ s.fq.cell[s.fq.rd]? = some none ∧ r = .readUnwritten ∧ t = s := by
  simp only [takeFrame, bind_eq_raised] at h
  rcases h with h | ⟨⟨v, q⟩, _, h⟩
  · exact deq_eq_raised h
  · cases v <;> cases h

theorem takePassthrough_eq_raised {a : Agent} {s t : State} {r : FaultReason}
    (h : takePassthrough a s = .raised r t) :
    0 < s.pq.fill ∧ s.pq.cell[s.pq.rd]? = some none ∧ r = .readUnwritten ∧ t = s := by
  simp only [takePassthrough, bind_eq_raised] at h
  rcases h with h | ⟨⟨v, q⟩, _, h⟩
  · exact deq_eq_raised h
  · cases v <;> cases h

theorem releaseHandle_eq_ok {h : Handle} {s t : State} :
    releaseHandle h s = .ok t ↔
      (h ∈ s.live ∧ heldInside h s = false ∧ t = s.freeHandle h) ∨ (h ∉ s.live ∧ h ∉ s.freed ∧ t = s) := by
  unfold releaseHandle
  by_cases h1 : h ∈ s.live <;> by_cases h2 : h ∈ s.freed <;> cases h3 : heldInside h s <;> simp [h1, h2, eq_comm]

theorem releaseHandle_eq_raised {h : Handle} {s t : State} {r : FaultReason} :
    releaseHandle h s = .raised r t ↔
      t = s ∧ ((h ∈ s.live ∧ heldInside h s = true ∧ r = .releaseNotOwned) ∨
        (h ∉ s.live ∧ h ∈ s.freed ∧ r = .doubleRelease)) := by
  unfold releaseHandle
  by_cases h1 : h ∈ s.live <;> by_cases h2 : h ∈ s.freed <;> cases h3 : heldInside h s <;>
    simp [h1, h2, eq_comm, and_comm]

end Sys2Proof.Machine
end

