-- ==== Sys2Proof/Laws/Queues.lean ====
section
/-! SUPPORT. What the two queue operations do to the items of a queue, and what writing one cell does to the captured
bytes and to the handles held by `F`. -/

namespace Sys2Proof.Machine

/-! ### The items of a queue -/

theorem cap_withItem {α : Type} (q : Queue α) (v : α) : (q.withItem v).cap = q.cap := by simp [Queue.cap]

theorem cap_withoutHead {α : Type} (q : Queue α) : q.withoutHead.cap = q.cap := by simp [Queue.cap]

theorem withItem_ok {α : Type} {q : Queue α} (v : α) (hq : q.Ok) (h : q.fill < q.cap) : (q.withItem v).Ok := by
  obtain ⟨r, hr, hk, _⟩ := enq_ok v hq
  rw [enq_room v h hq.2.2.1] at hr
  cases hr
  exact hk

theorem withoutHead_ok {α : Type} {q : Queue α} {v : α} (hq : q.Ok) (h : 0 < q.fill)
    (hv : q.cell[q.rd]? = some (some v)) : q.withoutHead.Ok := by
  obtain ⟨r, hr, hk, _⟩ := deq_ok (default : State) hq
  rw [deq_item _ h hv] at hr
  cases hr
  exact hk

/-- A queue that meets R35 has `fill` items, and the k-th stands k places on from `rd`. -/
theorem items_get {α : Type} {q : Queue α} (hq : q.Ok) :
    q.items.length = q.fill ∧ ∀ k < q.fill, q.items[k]? = (q.cell[(q.rd + k) % q.cap]?).join := by
  obtain ⟨_, h2, _, _, _, h6⟩ := hq
  have key : ∀ n ≤ q.fill, ((List.range n).filterMap fun k => (q.cell[(q.rd + k) % q.cap]?).join).map some =
      (List.range n).map fun k => (q.cell[(q.rd + k) % q.cap]?).join := by
    intro n hn
    induction n with
    | zero => rfl
    | succ n ih =>
      rw [List.range_succ, List.filterMap_append, List.map_append, List.map_append, ih (by omega)]
      congr 1
      have := h6 n (by omega)
      rw [decide_eq_true (by omega)] at this
      obtain ⟨v, hv⟩ := Option.isSome_iff_exists.mp this
      simp [hv]
  have hk := key q.fill le_rfl
  constructor
  · have := congrArg List.length hk
    simpa [Queue.items] using this
  · intro k hkf
    have := congrArg (fun l => l[k]?) hk
    simp only [List.getElem?_map, List.getElem?_range hkf, Option.map_some] at this
    unfold Queue.items
    revert this
    generalize ((List.range q.fill).filterMap fun k => (q.cell[(q.rd + k) % q.cap]?).join)[k]? = z
    cases z <;> simp

/-- An item enqueued with `Ok` is the newest. -/
theorem items_enq {α : Type} {q : Queue α} (v : α) (hq : q.Ok) (h : q.fill < q.cap) :
    (q.withItem v).items = q.items ++ [v] := by
  have a := items_get hq
  have b := items_get (withItem_ok v hq h)
  apply List.ext_getElem?
  intro k
  by_cases hk : k < q.fill + 1
  · rw [b.2 k hk, cap_withItem]
    show ((q.cell.set q.wr (some v))[(q.rd + k) % q.cap]?).join = _
    by_cases hk2 : k = q.fill
    · subst hk2
      rw [List.getElem?_append_right (by omega), ← hq.2.2.2.2.1, List.getElem?_set_self hq.2.2.1]
      simp [a.1]
    · rw [List.getElem?_append_left (by omega), a.2 k (by omega), List.getElem?_set_ne]
      rw [hq.2.2.2.2.1]
      exact fun hc => hk2 (mod_inj (by omega) h hc.symm)
  · rw [List.getElem?_eq_none (by rw [b.1]; show q.fill + 1 ≤ k; omega), List.getElem?_eq_none (by simp [a.1]; omega)]

/-- The item dequeued is the oldest. -/
theorem items_deq {α : Type} {q : Queue α} {v : α} (hq : q.Ok) (h : 0 < q.fill)
    (hv : q.cell[q.rd]? = some (some v)) : q.items = v :: q.withoutHead.items := by
  have a := items_get hq
  have b := items_get (withoutHead_ok hq h hv)
  obtain ⟨h1, h2, h3, h4, h5, h6⟩ := hq
  apply List.ext_getElem?
  intro k
  by_cases hk : k < q.fill
  · rw [a.2 k hk]
    cases k with
    | zero =>
      rw [Nat.add_zero, Nat.mod_eq_of_lt h4, hv]
      simp
    | succ k =>
      rw [List.getElem?_cons_succ, b.2 k (by show k < q.fill - 1; omega), cap_withoutHead]
      show _ = ((q.cell.set q.rd none)[((q.rd + 1) % q.cap + k) % q.cap]?).join
      rw [Nat.mod_add_mod]
      have hne : (q.rd + 1 + k) % q.cap ≠ q.rd := by
        intro hc
        have : (q.rd + (k + 1)) % q.cap = (q.rd + 0) % q.cap := by
          rw [show q.rd + (k + 1) = q.rd + 1 + k by omega, hc]
          exact (Nat.mod_eq_of_lt h4).symm
        have := mod_inj (by unfold Queue.cap at *; omega) h1 this
        omega
      rw [List.getElem?_set_ne hne.symm, show q.rd + 1 + k = q.rd + (k + 1) by omega]
  · rw [List.getElem?_eq_none (by omega)]
    cases k with
    | zero => omega
    | succ k =>
      rw [List.getElem?_cons_succ, List.getElem?_eq_none]
      rw [b.1]
      show q.fill - 1 ≤ k
      omega

/-! ### Cells written one at a time -/

/-- Writing the cell after the first `n` adds it to them. -/
theorem take_set_succ {α : Type} (l : List α) (n : Nat) (v : α) (h : n < l.length) :
    (l.set n v).take (n + 1) = l.take n ++ [v] := by
  rw [List.take_add_one, List.take_set_of_le (le_refl _)]
  simp [h]

/-- Captured bytes stay captured when one more is written. -/
theorem all_take_set {α : Type} (l : List (Option α)) (n : Nat) (v : α) (h : n < l.length)
    (ha : ∀ c ∈ l.take n, c.isSome = true) : ∀ c ∈ (l.set n (some v)).take (n + 1), c.isSome = true := by
  rw [take_set_succ _ _ _ h]
  intro c hc
  rcases List.mem_append.mp hc with hc | hc
  · exact ha c hc
  · simp at hc
    subst hc
    rfl

/-- What `g` reads from the cells, when the item at `i` is taken out. -/
theorem filterMap_set_none {α β : Type} (g : Option α → Option β) (hg : g none = none) (l : List (Option α)) (i : Nat)
    (v : α) (h : l[i]? = some (some v)) :
    (l.filterMap g).Perm ((g (some v)).toList ++ (l.set i none).filterMap g) := by
  induction l generalizing i with
  | nil => simp at h
  | cons x l ih =>
    cases i with
    | zero =>
      simp at h
      subst h
      cases hv : g (some v) <;> simp [hg, hv]
    | succ i =>
      simp at h
      have := ih i h
      cases hx : g x
      · simpa [hx] using this
      · simp only [List.filterMap_cons, hx, List.set_cons_succ]
        exact (List.Perm.cons _ this).trans (List.perm_middle).symm

/-- What `g` reads from the cells, when an item is put into the empty cell at `i`. -/
theorem filterMap_set_some {α β : Type} (g : Option α → Option β) (hg : g none = none) (l : List (Option α)) (i : Nat)
    (v : α) (h : l[i]? = some none) :
    ((l.set i (some v)).filterMap g).Perm ((g (some v)).toList ++ l.filterMap g) := by
  have hi : i < l.length := by
    by_contra hc
    simp [List.getElem?_eq_none (not_lt.mp hc)] at h
  have := filterMap_set_none g hg (l.set i (some v)) i v (by simp [hi])
  rw [List.set_set] at this
  have e : l.set i none = l := by
    apply List.ext_getElem?
    intro j
    by_cases hj : i = j
    · subst hj
      simp [hi]
      simpa [List.getElem?_eq_getElem hi] using h.symm
    · simp [List.getElem?_set_ne hj]
  rwa [e] at this

end Sys2Proof.Machine
end

