-- ==== Sys2Proof/Laws/Ownership.lean ====
section
/-! SUPPORT. Ownership (R46) is kept by each thing a step can do to a handle: nothing, a move from one place to another,
an allocation, a release. -/

namespace Sys2Proof.Machine

/-- Handles may move between places: `live` and `freed` stay, no place is new, and what is held was held. -/
theorem ownership_of_move (s t : State) (h : OwnershipOk s) (hp : t.ownedHandles.Perm s.ownedHandles)
    (hl : t.live = s.live) (hf : t.freed = s.freed)
    (hh : ∀ x ∈ t.fHandle.toList ++ t.queuedHandles, x ∈ s.fHandle.toList ++ s.queuedHandles)
    (hr : ∀ x ∈ t.returnedHandles, x ∈ s.returnedHandles ∨ x ∈ s.live) : OwnershipOk t := by
  refine ⟨hp.symm.nodup h.onePlace, ?_, ?_, ?_, ?_, ?_, ?_⟩ <;> try rw [hl]
  · exact fun x hx => hp.mem_iff.mpr (h.placed x hx)
  · exact fun x hx => h.heldLive x (hh x hx)
  · intro x hx
    rw [hf]
    rcases hr x hx with h1 | h1
    · exact h.returnedKnown x h1
    · exact .inl h1
  · rw [hf]
    exact h.apart
  · exact h.liveRises
  · rw [hf]
    exact h.freedRises

/-- A step that touches no handle keeps ownership. -/
theorem ownership_of_same (s t : State) (h : OwnershipOk s) (hl : t.live = s.live) (hf : t.freed = s.freed)
    (hh : t.fHandle = s.fHandle) (hq : t.queuedHandles = s.queuedHandles)
    (hr : t.returnedHandles = s.returnedHandles) : OwnershipOk t :=
  ownership_of_move s t h (by simp [State.ownedHandles, hh, hq, hr]) hl hf (by simp [hh, hq]) (by simp [hr]; tauto)

/-- A release of the framer's handle, or of one held neither by the framer nor by `F`, keeps ownership. -/
theorem ownership_of_free (s t : State) (k : Handle) (h : OwnershipOk s) (hl : t.live = removeHandle k s.live)
    (hf : t.freed = insertHandle k s.freed) (hq : t.queuedHandles = s.queuedHandles)
    (hr : t.returnedHandles = s.returnedHandles)
    (hh : (s.fHandle = some k ∧ t.fHandle = none) ∨
      (t.fHandle = s.fHandle ∧ s.fHandle ≠ some k ∧ k ∉ s.queuedHandles)) : OwnershipOk t := by
  obtain ⟨h1, h2, h3, h4, h5, h6, h7⟩ := h
  simp only [State.ownedHandles] at *
  rcases hh with ⟨e1, e2⟩ | ⟨e1, e2, e3⟩
  · rw [e1] at h1 h2 h3
    simp only [Option.toList_some, List.cons_append, List.nil_append, List.nodup_cons, List.mem_cons,
      List.mem_append] at h1 h2 h3
    refine ⟨?_, ?_, ?_, ?_, ?_, ?_, ?_⟩ <;> simp only [State.ownedHandles, hl, hf, hq, hr, e2]
    · simpa using h1.2
    · simp only [mem_removeHandle]
      intro x hx
      have := h2 x hx.1
      simp_all
    · simp only [Option.toList_none, List.nil_append, mem_removeHandle]
      intro x hx
      refine ⟨h3 x (.inr hx), ?_⟩
      rintro rfl
      simp_all
    · simp only [mem_removeHandle, mem_insertHandle]
      intro x hx
      rcases h4 x hx with h | h <;> tauto
    · simp only [mem_removeHandle, mem_insertHandle, not_or]
      exact fun x hx => ⟨hx.2, h5 x hx.1⟩
    · exact removeHandle_rises h6
    · exact insertHandle_rises h7
  · refine ⟨?_, ?_, ?_, ?_, ?_, ?_, ?_⟩ <;> simp only [State.ownedHandles, hl, hf, hq, hr, e1]
    · exact h1
    · intro x hx
      exact h2 x (mem_removeHandle.mp hx).1
    · intro x hx
      refine mem_removeHandle.mpr ⟨h3 x hx, ?_⟩
      rintro rfl
      rcases List.mem_append.mp hx with h | h
      · exact e2 (by simpa using h)
      · exact e3 h
    · simp only [mem_removeHandle, mem_insertHandle]
      intro x hx
      rcases h4 x hx with h | h <;> tauto
    · simp only [mem_removeHandle, mem_insertHandle, not_or]
      exact fun x hx => ⟨hx.2, h5 x hx.1⟩
    · exact removeHandle_rises h6
    · exact insertHandle_rises h7

/-- An allocation of a fresh handle to a framer that holds none keeps ownership. -/
theorem ownership_of_alloc (s t : State) (k : Handle) (h : OwnershipOk s) (hl : t.live = insertHandle k s.live)
    (hf : t.freed = s.freed) (hq : t.queuedHandles = s.queuedHandles) (hr : t.returnedHandles = s.returnedHandles)
    (hs : s.fHandle = none) (ht : t.fHandle = some k) (k1 : k ∉ s.live) (k2 : k ∉ s.freed) : OwnershipOk t := by
  obtain ⟨h1, h2, h3, h4, h5, h6, h7⟩ := h
  simp only [State.ownedHandles, hs] at *
  refine ⟨?_, ?_, ?_, ?_, ?_, ?_, ?_⟩ <;> simp only [State.ownedHandles, hl, hf, hq, hr, ht]
  · simp only [Option.toList_some, List.cons_append, List.nil_append, List.nodup_cons]
    refine ⟨?_, by simpa using h1⟩
    intro hk
    rcases List.mem_append.mp hk with h | h
    · exact k1 (h3 k (by simpa using h))
    · rcases h4 k h with h | h <;> tauto
  · intro x hx
    rcases mem_insertHandle.mp hx with rfl | hx
    · simp
    · have := h2 x hx
      simp at this
      simp
      tauto
  · simp only [Option.toList_some, List.cons_append, List.nil_append, List.mem_cons, mem_insertHandle]
    intro x hx
    rcases hx with rfl | hx
    · exact .inl rfl
    · exact .inr (h3 x (by simpa using hx))
  · simp only [mem_insertHandle]
    intro x hx
    rcases h4 x hx with h | h <;> tauto
  · intro x hx
    rcases mem_insertHandle.mp hx with rfl | hx
    · exact k2
    · exact h5 x hx
  · exact insertHandle_rises h6
  · exact h7

end Sys2Proof.Machine
end

