-- ==== Sys2Proof/Laws/PerInstr.lean ====
section
/-! SUPPORT. One law of every instruction as syntax: the words of a dispatch row fit the row's `match` and `mask` (R74),
and only dispatch rows have them. -/

namespace Sys2Proof.Laws.Fits

/-- A dispatch word masked by its row's mask gives the row's match; a port operation and an internal step have neither
column. -/
def Statement (i : Instr) : Prop :=
  i.wellFormed = true →
    match encode i with
    | .port _ => i.matchMask = none
    | .dispatch w => ∃ m k, i.matchMask = some (m, k) ∧ w &&& k = m
    | .internal => i.matchMask = none

/-- A word of state code `c` keeps that code under the mask 0x700. -/
theorem word_fits : ∀ (c : BitVec 3) (b : Byte), (c ++ b) &&& 0x700#11 = c ++ 0#8 := by decide

theorem processByte : Statement .processByte := fun _ => rfl
theorem frameAvailable (a : Agent) : Statement (.frameAvailable a) := fun _ => rfl
theorem dequeueFrame (a : Agent) : Statement (.dequeueFrame a) := fun _ => rfl
theorem passthroughAvailable (a : Agent) : Statement (.passthroughAvailable a) := fun _ => rfl
theorem readPassthrough (a : Agent) : Statement (.readPassthrough a) := fun _ => rfl
theorem sendFrame (fr : FrameRec) : Statement (.sendFrame fr) := fun _ => rfl
theorem release (fr : FrameRec) : Statement (.release fr) := fun _ => rfl
theorem reserved (cmd : Byte) : Statement (.reserved cmd) := fun _ => rfl
theorem preStart : Statement .preStart := fun _ => ⟨_, _, rfl, by decide⟩
theorem prePass (b : Byte) : Statement (.prePass b) := fun _ => ⟨_, _, rfl, word_fits _ b⟩
theorem verOk : Statement .verOk := fun _ => ⟨_, _, rfl, by decide⟩
theorem verBad (b : Byte) : Statement (.verBad b) := fun _ => ⟨_, _, rfl, word_fits _ b⟩
theorem title (b : Byte) : Statement (.title b) := fun _ => ⟨_, _, rfl, word_fits _ b⟩
theorem lenZero : Statement .lenZero := fun _ => ⟨_, _, rfl, by decide⟩
theorem lenAlloc (b : Byte) : Statement (.lenAlloc b) := fun _ => ⟨_, _, rfl, word_fits _ b⟩
theorem lenNomem (b : Byte) : Statement (.lenNomem b) := fun _ => ⟨_, _, rfl, word_fits _ b⟩
theorem lenBad (b : Byte) : Statement (.lenBad b) := fun _ => ⟨_, _, rfl, word_fits _ b⟩
theorem msgByte (b : Byte) : Statement (.msgByte b) := fun _ => ⟨_, _, rfl, word_fits _ b⟩
theorem msgLast (b : Byte) : Statement (.msgLast b) := fun _ => ⟨_, _, rfl, word_fits _ b⟩
theorem endOk : Statement .endOk := fun _ => ⟨_, _, rfl, by decide⟩
theorem endFull : Statement .endFull := fun _ => ⟨_, _, rfl, by decide⟩
theorem endBad (b : Byte) : Statement (.endBad b) := fun _ => ⟨_, _, rfl, word_fits _ b⟩
theorem replay : Statement .replay := fun _ => rfl
theorem finish : Statement .finish := fun _ => rfl

end Sys2Proof.Laws.Fits
end

