-- ==== Sys2Proof/Tests/Slice0.lean ====
section
/-! SUPPORT. The model's own tests: ill-formed terms, words written out from the encodings, one step of each instruction
on a small state with the result that spec/95_test_vectors.md gives, and a witness for the hypotheses of each
obligation. -/

namespace Sys2Proof.Tests

open Sys2Proof Sys2Proof.Machine

/-! ### Well-formedness: one term for each check, which the check refuses -/

theorem test_wf_reserved : (Instr.reserved 0x06).wellFormed = false := by decide
theorem test_wf_prePass : (Instr.prePass 0x0D).wellFormed = false := by decide
theorem test_wf_verBad : (Instr.verBad 0x01).wellFormed = false := by decide
theorem test_wf_lenAlloc_low : (Instr.lenAlloc 0x00).wellFormed = false := by decide
theorem test_wf_lenAlloc_high : (Instr.lenAlloc 0x32).wellFormed = false := by decide
theorem test_wf_lenNomem : (Instr.lenNomem 0x32).wellFormed = false := by decide
theorem test_wf_lenBad : (Instr.lenBad 0x31).wellFormed = false := by decide
theorem test_wf_endBad : (Instr.endBad 0x1E).wellFormed = false := by decide
theorem test_wf_record_version : FrameRec.wellFormed { version := 2, title := 0, length := 0, payload := none } = false := by
  decide
theorem test_wf_record_length : FrameRec.wellFormed { version := 1, title := 0, length := 50, payload := none } = false := by
  decide
theorem test_wf_record_payload : FrameRec.wellFormed { version := 1, title := 0, length := 3, payload := none } = false := by
  decide

/-! ### Decoding: words written out from R74 and R80 -/

/-- R80, the seven operations. -/
theorem test_decode_port :
    (List.range 7).map (decodeTableWord 8) =
      [some .processByte, some (.frameAvailable .fc), some (.dequeueFrame .fc), some (.passthroughAvailable .pc),
        some (.readPassthrough .pc), some (.sendFrame .zero), some (.release .zero)] := by decide

/-- V-E1, V-E2, V-E3. -/
theorem test_decode_reserved :
    [0x07, 0x08, 0xFF].map (decodeTableWord 8) =
      [some (.reserved 0x07), some (.reserved 0x08), some (.reserved 0xFF)] := by decide

/-- R74: state 000, then 001, then 010. -/
theorem test_decode_preamble_version_title :
    [0b00000001101, 0b00000011110, 0b00100000001, 0b00100001101, 0b01000001101].map (decodeTableWord 16) =
      [some .preStart, some (.prePass 0x1E), some .verOk, some (.verBad 0x0D), some (.title 0x0D)] := by decide

/-- R74, R72: state 011. -/
theorem test_decode_length :
    [0b01100000000, 0b01100000001, 0b01100110001, 0b01100110010, 0b01111111111].map (decodeTableWord 16) =
      [some .lenZero, some (.lenAlloc 0x01), some (.lenAlloc 0x31), some (.lenBad 0x32), some (.lenBad 0xFF)] := by
  decide

/-- R74: the word 0x302 when the draw fails. -/
theorem test_decode_nomem :
    (match decodeDispatch 0b01100000010 { allocOk := false, rem := 2, room := true } with
      | .ok i => some i
      | .error _ => none) = some (.lenNomem 0x02) := by decide

/-- R74: states 100 and 101 (V-E8). -/
theorem test_decode_message_end :
    [0b10000011110, 0b10100011110, 0b10100001101].map (decodeTableWord 16) =
      [some (.msgByte 0x1E), some .endOk, some (.endBad 0x0D)] := by decide

/-- R74: 0x41E with one byte remaining, and 0x51E with `F` full. -/
theorem test_decode_last_full :
    (match decodeDispatch 0b10000011110 { allocOk := true, rem := 1, room := true } with
      | .ok i => some i
      | .error _ => none) = some (.msgLast 0x1E) ∧
    (match decodeDispatch 0b10100011110 { allocOk := true, rem := 1, room := false } with
      | .ok i => some i
      | .error _ => none) = some .endFull := by decide

/-- R85: no row has an unused state code; no word is wider than 11 bits. -/
theorem test_decode_refused :
    [0x600, 0x7FF, 0x800].map (decodeTableWord 16) = [none, none, none] := by decide

/-! ### Small states -/

/-- What a step leaves, where it goes on. -/
def after {α : Type} (o : Host.Outcome State Fault Refusal) (f : State → α) : Option α :=
  match o with
  | .next t => some (f t)
  | .fault _ => none
  | .refused _ => none

/-- A frame in progress: the framing state and the bytes captured so far. -/
def frame (st : FsmState) (bs : List Byte) : State :=
  { State.reset with
    state := st, scratch := bs.map some ++ List.replicate (54 - bs.length) none, scur := bs.length,
    fVersion := bs[1]?, fTitle := bs[2]?, fLength := bs[3]? }

/-- The same with an allocation, the handle 7, and the payload bytes captured after the header. -/
def withPayload (len : Nat) (s : State) : State :=
  { s with
    fHandle := some 7, live := [7], pcur := s.scur - 4, rem := len - (s.scur - 4),
    pbuf := (s.scratch.drop 4).take (s.scur - 4) ++ List.replicate (49 - (s.scur - 4)) none }

/-- The state with one byte to read and a PROCESS_BYTE call to read it. -/
def feeding (b : Byte) (s : State) : State := { s with rx := [b], sched := [.issue processTxn] }

/-- The state with one command issued. -/
def issuing (a : Agent) (cmd : Byte) (fr : FrameRec) (s : State) : State :=
  { s with sched := [.issue { agent := a, cmd := cmd, operand := fr }] }

/-- A queue of four bytes with one in the last cell (V-Q5). -/
def lastCell : Queue Byte := { cell := [none, none, none, some 0x7A], wr := 0, rd := 3, fill := 1 }

/-- The record of V-D23. -/
def rec2 : FrameRec := { version := 1, title := 0x41, length := 2, payload := some { handle := 7, bytes := [0x10, 0x20] } }

/-- The record of V-Z1. -/
def rec0 : FrameRec := { version := 1, title := 0x07, length := 0, payload := none }

/-- `F` holds the record of V-D23. -/
def holding2 : State :=
  { State.reset with fq := { cell := [some rec2, none], wr := 1, rd := 0, fill := 1 }, live := [7] }

/-- `F` is full with one zero-length record, its capacity 1 (V-D24). -/
def fullF : Queue FrameRec := { cell := [some rec0], wr := 0, rd := 0, fill := 1 }

/-- `P` is full with one byte, its capacity 1 (V-D5). -/
def fullP : Queue Byte := { cell := [some 0x61], wr := 0, rd := 0, fill := 1 }

/-- LengthWait after `0D 01 41`. -/
def inLength : State := frame .lengthWait [0x0D, 0x01, 0x41]

/-- MessageWait after `0D 01 41 02`. -/
def inMessage : State := withPayload 2 (frame .messageWait [0x0D, 0x01, 0x41, 0x02])

/-- MessageWait after `0D 01 41 02 10`. -/
def lastByte : State := withPayload 2 (frame .messageWait [0x0D, 0x01, 0x41, 0x02, 0x10])

/-- EndWait after `0D 01 41 02 10 20`. -/
def inEnd : State := withPayload 2 (frame .endWait [0x0D, 0x01, 0x41, 0x02, 0x10, 0x20])

/-- EndWait after `0D 01 07 00`. -/
def inEnd0 : State := frame .endWait [0x0D, 0x01, 0x07, 0x00]

/-- A replay of `0D 02` about to begin. -/
def replaying : State := { frame .versionWait [0x0D, 0x02] with pending := true, phase := .replay 0 }

/-! ### One step of each instruction -/

/-- V-D29: an empty source changes nothing. -/
theorem test_processByte_empty :
    after (step { feeding 0 (frame .titleWait [0x0D, 0x01]) with rx := [] }) (fun t => (t.state, t.scur)) =
      some (.titleWait, 2) := by decide

/-- V-D30: one byte is read, the next is left. -/
theorem test_processByte_one_byte :
    after (step { feeding 0 State.reset with rx := [0x0D, 0x01] }) (fun t => (t.state, t.rx)) =
      some (.versionWait, [0x01]) := by decide

/-- V-D31: a second call during the replay is refused and reads nothing. -/
theorem test_processByte_reentrant :
    after (step (feeding 0xFF replaying)) (fun t => (t.refused, t.phase, t.rx)) = some (true, .replay 0, [0xFF]) := by
  decide

/-- V-Z1. -/
theorem test_frameAvailable :
    after (step (issuing .fc 0x01 .zero { State.reset with fq := fullF })) (fun t => t.results) =
      some [{ agent := .fc, code := .ok, data := some (.count 1) }] := by decide

/-- V-Z1: the frame, and the cell emptied. -/
theorem test_dequeueFrame :
    after (step (issuing .fc 0x02 .zero { State.reset with fq := fullF })) (fun t => (t.results, t.fq)) =
      some ([{ agent := .fc, code := .ok, data := some (.frame rec0) }], { cell := [none], wr := 0, rd := 0, fill := 0 }) := by
  decide

/-- V-Q13. -/
theorem test_dequeueFrame_notConsumer :
    after (step (issuing .pc 0x02 .zero { State.reset with fq := fullF })) (fun t => (t.refused, t.fq, t.results)) =
      some (true, fullF, []) := by decide

/-- V-Q12: any agent may read a count. -/
theorem test_passthroughAvailable :
    after (step (issuing .fc 0x03 .zero State.reset)) (fun t => t.results) =
      some [{ agent := .fc, code := .ok, data := some (.count 0) }] := by decide

/-- V-Q5: `rd` wraps and the consumed cell is emptied. -/
theorem test_readPassthrough :
    after (step (issuing .pc 0x04 .zero { State.reset with pq := lastCell })) (fun t => (t.results, t.pq)) =
      some ([{ agent := .pc, code := .ok, data := some (.byte 0x7A) }],
        { cell := [none, none, none, none], wr := 0, rd := 0, fill := 0 }) := by decide

/-- V-Q9. -/
theorem test_readPassthrough_empty :
    after (step (issuing .pc 0x04 .zero State.reset)) (fun t => t.results) =
      some [{ agent := .pc, code := .empty, data := none }] := by decide

/-- V-T1. -/
theorem test_sendFrame :
    after (step (issuing .sn 0x05 rec2 State.reset)) (fun t => t.tx) =
      some [0x0D, 0x01, 0x41, 0x02, 0x10, 0x20, 0x1E] := by decide

/-- V-T7: a payload beside a length of 0 is refused. -/
theorem test_sendFrame_refused :
    after (step (issuing .sn 0x05 { rec2 with length := 0 } State.reset)) (fun t => (t.tx, t.refused)) =
      some ([], true) := by decide

/-- V-R1: the handle of a dequeued frame. -/
theorem test_release :
    after (step (issuing .fc 0x06 rec2 { State.reset with live := [7] })) (fun t => (t.live, t.freed, t.faults)) =
      some ([], [7], []) := by decide

/-- V-R4: the frame is still in `F`. -/
theorem test_release_notOwned :
    after (step (issuing .fc 0x06 rec2 holding2)) (fun t => (t.live, t.faults)) = some ([7], [.releaseNotOwned]) := by
  decide

/-- V-E2: `cmd[7:3]` non-zero is not PROCESS_BYTE. -/
theorem test_reserved :
    after (step { issuing .fr 0x08 .zero State.reset with rx := [0x0D] }) (fun t => (t.refused, t.rx, t.state)) =
      some (true, [0x0D], .preambleWait) := by decide

/-- V-D2: the stale captured bytes stay. -/
theorem test_preStart :
    after (step (feeding 0x0D (frame .preambleWait [0x0D, 0x01, 0x41, 0x32])))
      (fun t => (t.state, t.scur, t.scratch.take 4)) =
        some (.versionWait, 1, [some 0x0D, some 0x01, some 0x41, some 0x32]) := by decide

/-- V-D3: a terminator outside a frame passes through. -/
theorem test_prePass : after (step (feeding 0x1E State.reset)) (fun t => (t.state, t.pq.items)) =
    some (.preambleWait, [0x1E]) := by decide

/-- V-D5: a full `P` drops the byte. -/
theorem test_prePass_full :
    after (step (feeding 0x62 { State.reset with pq := fullP })) (fun t => (t.pq, t.refused, t.faults)) =
      some (fullP, false, []) := by decide

/-- V-D6. -/
theorem test_verOk :
    after (step (feeding 0x01 (frame .versionWait [0x0D]))) (fun t => (t.state, t.fVersion, t.scur)) =
      some (.titleWait, some 0x01, 2) := by decide

/-- V-D9, first step: a second preamble is a bad version. -/
theorem test_verBad :
    after (step (feeding 0x0D (frame .versionWait [0x0D]))) (fun t => (t.pending, t.phase, t.scratch.take 2)) =
      some (true, .replay 0, [some 0x0D, some 0x0D]) := by decide

/-- V-D10. -/
theorem test_title :
    after (step (feeding 0x0D (frame .titleWait [0x0D, 0x01]))) (fun t => (t.state, t.fTitle, t.scur)) =
      some (.lengthWait, some 0x0D, 3) := by decide

/-- V-D12. -/
theorem test_lenZero :
    after (step (feeding 0x00 inLength)) (fun t => (t.state, t.fLength, t.fHandle, t.live)) =
      some (.endWait, some 0x00, none, []) := by decide

/-- V-D14: the largest length. -/
theorem test_lenAlloc :
    after (step (feeding 0x31 { inLength with nextAlloc := some (.ok 7) }))
      (fun t => (t.state, t.rem, t.pcur, t.live, t.fHandle)) =
        some (.messageWait, 49, 0, [7], some 7) := by decide

/-- R129: a draw that names a handle once freed gives another. -/
theorem test_lenAlloc_fresh :
    after (step (feeding 0x01 { inLength with nextAlloc := some (.ok 3), freed := [3] })) (fun t => decide (3 ∈ t.live)) =
      some false := by decide

/-- V-D16, first step. -/
theorem test_lenNomem :
    after (step (feeding 0x02 { inLength with nextAlloc := some .fail })) (fun t => (t.phase, t.scur, t.live, t.freed)) =
      some (.replay 0, 4, [], []) := by decide

/-- V-D17, first step: no draw is taken. -/
theorem test_lenBad :
    after (step (feeding 0x32 { inLength with nextAlloc := some (.ok 7) }))
      (fun t => (t.phase, t.scur, t.live, t.nextAlloc)) =
        some (.replay 0, 4, [], some (.ok 7)) := by decide

/-- V-D19: a preamble value is payload data. -/
theorem test_msgByte :
    after (step (feeding 0x0D (withPayload 3 (frame .messageWait [0x0D, 0x01, 0x41, 0x03]))))
      (fun t => (t.state, t.pbuf.take 2, t.rem, t.pcur)) =
        some (.messageWait, [some 0x0D, none], 2, 1) := by decide

/-- V-D21: a terminator value is payload data. -/
theorem test_msgLast :
    after (step (feeding 0x1E lastByte)) (fun t => (t.state, t.pbuf.take 2, t.rem, t.pcur)) =
      some (.endWait, [some 0x10, some 0x1E], 0, 2) := by decide

/-- V-D23. -/
theorem test_endOk :
    after (step (feeding 0x1E inEnd)) (fun t => (t.state, t.fq.items, t.fHandle, t.live)) =
      some (.preambleWait, [rec2], none, [7]) := by decide

/-- V-S1. -/
theorem test_endOk_zero :
    after (step (feeding 0x1E inEnd0)) (fun t => (t.state, t.fq.items, t.fq.wr)) = some (.preambleWait, [rec0], 1) := by
  decide

/-- V-S4, first step of the last call: the payload is freed, `F` is unchanged. -/
theorem test_endFull :
    after (step (feeding 0x1E { inEnd with fq := fullF })) (fun t => (t.fq, t.phase, t.live, t.freed, t.scur)) =
      some (fullF, .replay 0, [], [7], 7) := by decide

/-- V-S2, first step of the last call. -/
theorem test_endBad :
    after (step (feeding 0xFF inEnd)) (fun t => (t.phase, t.live, t.freed, t.fHandle, t.scur)) =
      some (.replay 0, [], [7], none, 7) := by decide

/-- P4, line 6: `41` meets a full `P` and is dropped, and the replay goes on. -/
theorem test_replay_drops :
    after (step { frame .lengthWait [0x0D, 0x01, 0x41, 0xFF] with
        pending := true, phase := .replay 2, sched := [.replay],
        pq := { cell := [some 0x0D, some 0x01], wr := 0, rd := 0, fill := 2 } })
      (fun t => (t.phase, t.pq.items)) = some (.replay 3, [0x0D, 0x01]) := by decide

/-- P4, line 8: the last replay step enqueues `FF` and finishes. -/
theorem test_replay_finishes :
    after (step { frame .lengthWait [0x0D, 0x01, 0x41, 0xFF] with
        pending := true, phase := .replay 3, sched := [.replay],
        pq := { cell := [none, some 0x01], wr := 0, rd := 1, fill := 1 } })
      (fun t => (t.phase, t.state, t.pending, t.pq.items, t.pq.wr)) =
        some (.idle, .preambleWait, false, [0x01, 0xFF], 1) := by decide

/-- R141. -/
theorem test_finish :
    after (exec .finish replaying) (fun t => (t.state, t.pending, t.phase, t.scur)) =
      some (.preambleWait, false, .idle, 2) := by decide

/-- V-R2: after a fault nothing is enabled. -/
theorem test_halted :
    after (step { issuing .fc 0x01 .zero State.reset with faults := [.doubleRelease] }) (fun t => t.results) = none := by
  decide

/-- V-E6, V-E7. -/
theorem test_construct :
    after (State.construct 8 2 53) (fun _ => ()) = none ∧
      after (State.construct 1 1 54) (fun t => (t.state, t.scratch.length, t.pq.cell, t.fq.cell)) =
        some (.preambleWait, 54, [none], [none]) := by decide

/-! ### The host's two questions, on one word of each kind -/

theorem test_fetch_command :
    after (step (State.reset.withFetchWord 8 0x04)) (fun t => t.results) =
      some [{ agent := .pc, code := .empty, data := none }] := by decide

theorem test_fetch_dispatch :
    after (step (State.reset.withFetchWord 16 0x41E)) (fun t => (t.state, t.pbuf.take 1, t.rem)) =
      some (.messageWait, [some 0x1E], 1) := by decide

/-! ### The invariant on concrete states -/

/-- The parts of the invariant that do not depend on `phase`. -/
abbrev CommonOk (s : State) : Prop :=
  InRange s ∧ s.pq.Ok ∧ s.fq.Ok ∧ FramesOk s ∧ s.ownedHandles.Nodup ∧ (∀ h ∈ s.live, h ∈ s.ownedHandles) ∧
    (∀ h ∈ s.fHandle.toList ++ s.queuedHandles, h ∈ s.live) ∧ (∀ h ∈ s.returnedHandles, h ∈ s.live ∨ h ∈ s.freed) ∧
    (∀ h ∈ s.live, h ∉ s.freed) ∧ s.live.Pairwise (· < ·) ∧ s.freed.Pairwise (· < ·)

theorem inv_of_idle {s : State} (h : CommonOk s) (hp : s.phase = .idle) (hi : IdleOk s) : s.Inv :=
  ⟨h.1, h.2.1, h.2.2.1, h.2.2.2.1, fun _ => hi, (by simp [hp]),
    ⟨h.2.2.2.2.1, h.2.2.2.2.2.1, h.2.2.2.2.2.2.1, h.2.2.2.2.2.2.2.1, h.2.2.2.2.2.2.2.2.1, h.2.2.2.2.2.2.2.2.2.1,
      h.2.2.2.2.2.2.2.2.2.2⟩⟩

theorem inv_of_replay {s : State} {i : Nat} (h : CommonOk s) (hp : s.phase = .replay i) (hr : ReplayOk s i) : s.Inv :=
  ⟨h.1, h.2.1, h.2.2.1, h.2.2.2.1, (by simp [hp]), (by rintro j hj; rw [hp] at hj; cases hj; exact hr),
    ⟨h.2.2.2.2.1, h.2.2.2.2.2.1, h.2.2.2.2.2.2.1, h.2.2.2.2.2.2.2.1, h.2.2.2.2.2.2.2.2.1, h.2.2.2.2.2.2.2.2.2.1,
      h.2.2.2.2.2.2.2.2.2.2⟩⟩

theorem test_inv_reset : State.reset.Inv :=
  inv_of_idle (by decide) rfl
    ⟨by decide, by decide, by decide, by decide, by decide, by decide, by decide, by decide⟩

theorem test_inv_fullP : State.Inv { State.reset with pq := fullP } :=
  inv_of_idle (by decide) rfl
    ⟨by decide, by decide, by decide, by decide, by decide, by decide, by decide, by decide⟩

theorem test_inv_version : (frame .versionWait [0x0D]).Inv :=
  inv_of_idle (by decide) rfl
    ⟨by decide, by decide, by decide, by decide, by decide, by decide, by decide, by decide⟩

theorem test_inv_length : inLength.Inv :=
  inv_of_idle (by decide) rfl
    ⟨by decide, by decide, by decide, by decide, by decide, by decide, by decide, by decide⟩

set_option maxRecDepth 4000 in
theorem test_inv_message : inMessage.Inv :=
  inv_of_idle (by decide) rfl
    ⟨by decide, by decide, by decide, by decide, by decide, by decide, by decide, by decide⟩

set_option maxRecDepth 4000 in
theorem test_inv_end : inEnd.Inv :=
  inv_of_idle (by decide) rfl
    ⟨by decide, by decide, by decide, by decide, by decide, by decide, by decide, by decide⟩

set_option maxRecDepth 4000 in
theorem test_inv_end_full : State.Inv { inEnd with fq := fullF } :=
  inv_of_idle (by decide) rfl
    ⟨by decide, by decide, by decide, by decide, by decide, by decide, by decide, by decide⟩

set_option maxRecDepth 4000 in
theorem test_inv_replay : replaying.Inv :=
  inv_of_replay (by decide) rfl ⟨by decide, by decide, by decide, by decide, by decide, by decide⟩

/-- A frame was dequeued and never released (V-R7). -/
def leaking : State :=
  { State.reset with live := [7], results := [{ agent := .fc, code := .ok, data := some (.frame rec2) }] }

theorem test_inv_leaking : leaking.Inv :=
  inv_of_idle (by decide) rfl
    ⟨by decide, by decide, by decide, by decide, by decide, by decide, by decide, by decide⟩

/-! ### A witness for the hypotheses of each obligation -/

theorem test_hyp_DecodeOfEncode :
    (Instr.lenNomem 0x31).wellFormed = true ∧
      (Instr.lenNomem 0x31).condHolds { allocOk := false, rem := 0, room := false } = true ∧
      Instr.lenNomem 0x31 ≠ .replay ∧ Instr.lenNomem 0x31 ≠ .finish := by decide

theorem test_hyp_EveryByteSelectsOneRow :
    FsmState.messageWait ≠ .unused6 ∧ FsmState.messageWait ≠ .unused7 ∧
      (FsmState.messageWait = .messageWait → 1 ≤ (RowCond.mk true 1 true).rem) ∧
      (Instr.msgLast 0xFF).wellFormed = true ∧ (Instr.msgLast 0xFF).condHolds { allocOk := true, rem := 1, room := true } = true ∧
      encode (.msgLast 0xFF) = .dispatch (dispatchWord .messageWait 0xFF) := by decide

theorem test_hyp_ReservedCommandsAreRefused :
    (0x07 : Byte).extractLsb' 0 3 = 0b111#3 ∧ (0x08 : Byte).extractLsb' 3 5 ≠ 0b00000#5 ∧
      ¬ ((0x06 : Byte).extractLsb' 0 3 = 0b111#3 ∨ (0x06 : Byte).extractLsb' 3 5 ≠ 0b00000#5) := by decide

theorem test_hyp_StepRunsTheIssuedCommand :
    (feeding 0 State.reset).faults = [] ∧ (feeding 0 State.reset).sched = .issue processTxn :: [] := ⟨rfl, rfl⟩

theorem test_hyp_StepTakesTheReplayTurn :
    State.reset.faults = [] ∧ replaying.phase = .replay 0 ∧ 0 < replaying.scur ∧
      (∀ i, State.reset.phase = .replay i → ¬ i < State.reset.scur) := by
  refine ⟨rfl, rfl, by decide, ?_⟩
  intro i h
  cases h

theorem test_hyp_HostMovesActOutsideTheBlock :
    ([[Move.rx 0x0D], [.takeTx], [.alloc .fail], [.reset]].map fun l =>
        after (step { State.reset with sched := l, tx := [0x1E], nextAlloc := some (.ok 0) }) fun t =>
          (t.rx, t.tx, t.nextAlloc, t.refused)) =
      [some ([0x0D], [0x1E], some (.ok 0), false), some ([], [], some (.ok 0), false), some ([], [0x1E], some .fail, false),
        some ([], [0x1E], some (.ok 0), true)] ∧
    after (step { State.reset with sched := [.takeTx] }) (fun t => (t.tx, t.sched)) = some ([], []) := by decide

theorem test_hyp_AnyAgentMayMoveNext :
    State.reset.faults = [] ∧ State.reset.sched = [] ∧
      ({ State.reset with sched := [.takeTx] } : State).sched = .takeTx :: [] := ⟨rfl, rfl, rfl⟩

theorem test_hyp_NoStepAfterAFault : (State.recordFault .badState State.reset).faults ≠ [] := by decide

theorem test_hyp_MarksAreNeverCleared :
    ∃ s t, exec (.reserved 0x07) s = .next t ∧ applyMove .reset s = .next t ∧ FaultReason.badState ∈ s.faults ∧
      s.refused = true :=
  ⟨{ State.reset with faults := [.badState], refused := true }, _, rfl, rfl, by decide, rfl⟩

theorem test_hyp_EnqAppendsOrAnswersFull :
    (lastCell.fill < lastCell.cell.length ∧ lastCell.wr < lastCell.cell.length) ∧ fullP.cell.length ≤ fullP.fill := by
  decide

theorem test_hyp_DeqRemovesTheOldestOrAnswersEmpty :
    (0 < lastCell.fill ∧ lastCell.cell[lastCell.rd]? = some (some 0x7A)) ∧ (Queue.empty Byte 4).fill = 0 := by decide

theorem test_hyp_QueueIsFirstInFirstOut : lastCell.Ok ∧ fullP.Ok ∧ fullF.Ok := by decide

theorem test_hyp_FullLeavesTheQueueUsable : fullP.Ok ∧ fullP.fill = fullP.cell.length := by decide

theorem test_hyp_CountReadsReturnTheFill : fullF.Ok ∧ fullP.Ok := by decide

theorem test_hyp_DequeueFrameTakesTheOldest :
    (0 < holding2.fq.fill ∧ holding2.fq.cell[holding2.fq.rd]? = some (some rec2)) ∧ State.reset.fq.fill = 0 := by decide

theorem test_hyp_ReadPassthroughTakesTheOldest :
    (0 < lastCell.fill ∧ lastCell.cell[lastCell.rd]? = some (some 0x7A)) ∧ State.reset.pq.fill = 0 := by decide

theorem test_hyp_OneConsumerAndOneProducer :
    Agent.pc ≠ .fc ∧ Agent.fc ≠ .pc ∧ notFramer (.dequeueFrame .fc) = true ∧
      ∃ t, exec (.dequeueFrame .fc) State.reset = .next t := ⟨by decide, by decide, rfl, _, rfl⟩

theorem test_hyp_FieldsHaveOneWriter :
    (∃ t, exec (.frameAvailable .pc) State.reset = .next t) ∧ notFramer (.frameAvailable .pc) = true ∧
      Instr.frameAvailable .pc ≠ .dequeueFrame .fc ∧ Instr.frameAvailable .pc ≠ .readPassthrough .pc ∧
      (∀ fr, Instr.frameAvailable .pc ≠ .release fr) ∧
      (∃ t, exec (.readPassthrough .pc) { State.reset with pq := lastCell } = .next t) ∧
      ∃ t, applyMove .takeTx State.reset = .next t :=
  ⟨⟨_, rfl⟩, rfl, by decide, by decide, (fun _ h => by cases h), ⟨_, rfl⟩, ⟨_, rfl⟩⟩

theorem test_hyp_PreStartBeginsAFrame : State.reset.state = .preambleWait ∧ 0 < State.reset.scratch.length := by decide

theorem test_hyp_PrePassOffersTheByte :
    State.reset.state = .preambleWait ∧ (0x1E : Byte) ≠ 0x0D ∧
      (State.reset.pq.fill < State.reset.pq.cell.length ∧ State.reset.pq.wr < State.reset.pq.cell.length) ∧
      fullP.cell.length ≤ fullP.fill := by decide

theorem test_hyp_VerOkStoresTheVersion :
    (frame .versionWait [0x0D]).state = .versionWait ∧
      (frame .versionWait [0x0D]).scur < (frame .versionWait [0x0D]).scratch.length := by decide

theorem test_hyp_VerBadSetsPending :
    (frame .versionWait [0x0D]).state = .versionWait ∧ (0x0D : Byte) ≠ 0x01 ∧
      (frame .versionWait [0x0D]).scur < (frame .versionWait [0x0D]).scratch.length := by decide

theorem test_hyp_TitleStoresAnyByte :
    (frame .titleWait [0x0D, 0x01]).state = .titleWait ∧
      (frame .titleWait [0x0D, 0x01]).scur < (frame .titleWait [0x0D, 0x01]).scratch.length := by decide

theorem test_hyp_LenZeroSkipsThePayload :
    inLength.state = .lengthWait ∧ inLength.scur < inLength.scratch.length := by decide

theorem test_hyp_LenAllocTakesAFreshHandle :
    inLength.state = .lengthWait ∧ 1 ≤ (0x01 : Byte).toNat ∧ (0x31 : Byte).toNat ≤ 49 ∧ 1 ≤ (0x31 : Byte).toNat ∧
      inLength.scur < inLength.scratch.length ∧
      ({ inLength with nextAlloc := some (.ok 7) } : State).peekDraw = .ok 7 ∧ 7 ∉ inLength.live ∧ 7 ∉ inLength.freed := by
  decide

theorem test_hyp_LenNomemSetsPending :
    inLength.state = .lengthWait ∧ 1 ≤ (0x01 : Byte).toNat ∧ (0x31 : Byte).toNat ≤ 49 ∧ 1 ≤ (0x31 : Byte).toNat ∧
      inLength.scur < inLength.scratch.length ∧
      ({ inLength with nextAlloc := some .fail } : State).peekDraw = .fail := by decide

theorem test_hyp_LenBadSetsPending :
    inLength.state = .lengthWait ∧ 50 ≤ (0x32 : Byte).toNat ∧ 50 ≤ (0xFF : Byte).toNat ∧
      inLength.scur < inLength.scratch.length := by decide

theorem test_hyp_MsgByteStoresAnyByte :
    inMessage.state = .messageWait ∧ 2 ≤ inMessage.rem ∧ inMessage.scur < inMessage.scratch.length ∧
      inMessage.pcur < inMessage.pbuf.length ∧ inMessage.pending = false ∧
      ({ inMessage with pending := true } : State).pending = true ∧ inMessage.fHandle = some 7 := by decide

theorem test_hyp_MsgLastMovesToEndWait :
    lastByte.state = .messageWait ∧ lastByte.rem = 1 ∧ lastByte.scur < lastByte.scratch.length ∧
      lastByte.pcur < lastByte.pbuf.length ∧ lastByte.pending = false ∧
      ({ lastByte with pending := true } : State).pending = true ∧ lastByte.fHandle = some 7 := by decide

theorem test_frame_in_progress : FrameInProgress inEnd rec2 :=
  ⟨rfl, rfl, rfl, by decide, fun _ => ⟨_, rfl, rfl, by decide, by decide⟩⟩

theorem test_frame_in_progress_zero : FrameInProgress inEnd0 rec0 := ⟨rfl, rfl, rfl, by decide, by decide⟩

theorem test_hyp_EndOkEnqueuesTheFrame :
    inEnd.state = .endWait ∧ inEnd.scur < inEnd.scratch.length ∧ inEnd.fq.fill < inEnd.fq.cell.length ∧
      inEnd.fq.wr < inEnd.fq.cell.length ∧ FrameInProgress inEnd rec2 :=
  ⟨by decide, by decide, by decide, by decide, test_frame_in_progress⟩

theorem test_hyp_EndFullReleasesAndAborts :
    (inEnd.state = .endWait ∧ inEnd.scur < inEnd.scratch.length ∧ fullF.cell.length ≤ fullF.fill ∧
      FrameInProgress { inEnd with fq := fullF } rec2 ∧ inEnd.fHandle = some 7) ∧
    (inEnd0.state = .endWait ∧ inEnd0.scur < inEnd0.scratch.length ∧ FrameInProgress { inEnd0 with fq := fullF } rec0 ∧
      inEnd0.fHandle = none) :=
  ⟨⟨by decide, by decide, by decide, test_frame_in_progress, rfl⟩,
    ⟨by decide, by decide, test_frame_in_progress_zero, rfl⟩⟩

theorem test_hyp_EndBadReleasesAndAborts :
    inEnd.state = .endWait ∧ (0x0D : Byte) ≠ 0x1E ∧ inEnd.scur < inEnd.scratch.length ∧ inEnd.fHandle = some 7 ∧
      inEnd0.state = .endWait ∧ inEnd0.scur < inEnd0.scratch.length ∧ inEnd0.fHandle = none := by decide

theorem test_hyp_ProcessByteRunsTheSelectedRow :
    State.reset.phase = .idle ∧ State.reset.rx = [] ∧
      ∃ s t, s = feeding 0x00 (frame .versionWait [0x0D]) ∧ s.phase = .idle ∧ s.faults = [] ∧ s.rx = 0x00 :: [] ∧
        decodeDispatch (dispatchWord s.state 0x00) s.rowCond = .ok (.verBad 0x00) ∧
        exec (.verBad 0x00) { s with rx := [] } = .next t ∧ t.faults = [] ∧ t.pending = true :=
  ⟨rfl, rfl, _, _, rfl, rfl, rfl, rfl, rfl, rfl, rfl, rfl⟩

theorem test_hyp_ProcessByteAcceptsEveryByte :
    (feeding 0xFF (frame .versionWait [0x0D])).Inv ∧ (feeding 0xFF (frame .versionWait [0x0D])).phase = .idle ∧
      (feeding 0xFF (frame .versionWait [0x0D])).rx = 0xFF :: [] :=
  ⟨inv_of_idle (by decide) rfl
    ⟨by decide, by decide, by decide, by decide, by decide, by decide, by decide, by decide⟩, rfl, rfl⟩

theorem test_hyp_UnusedStateCodeIsRecorded :
    ({ feeding 0 State.reset with state := .unused7 } : State).phase = .idle ∧
      ({ feeding 0 State.reset with state := .unused7 } : State).faults = [] ∧
      ({ feeding 0 State.reset with state := .unused7 } : State).rx = 0 :: [] ∧
      (({ feeding 0 State.reset with state := .unused7 } : State).state = .unused6 ∨
        ({ feeding 0 State.reset with state := .unused7 } : State).state = .unused7) := by decide

theorem test_hyp_ReentrantCallIsRefused : processTxn.cmd = 0x00 ∧ replaying.phase ≠ .idle := by decide

/-- The five causes of R172, each at a boundary byte: the call replays. -/
theorem test_hyp_TheFiveAbortCauses :
    [feeding 0x00 (frame .versionWait [0x0D]), feeding 0x31 { inLength with nextAlloc := some .fail },
        feeding 0x32 inLength, feeding 0x1E { inEnd with fq := fullF }, feeding 0x1D inEnd].map
      (fun s => (decide (s.phase = .idle), s.rx.length, after (exec .processByte s) (fun t => t.phase))) =
    List.replicate 5 (true, 1, some (.replay 0)) := by decide

set_option maxRecDepth 4000 in
/-- The same five states meet the invariant. -/
theorem test_hyp_TheFiveAbortCauses_inv :
    (feeding 0x00 (frame .versionWait [0x0D])).Inv ∧
      (feeding 0x31 { inLength with nextAlloc := some .fail }).Inv ∧ (feeding 0x32 inLength).Inv ∧
      (feeding 0x1E { inEnd with fq := fullF }).Inv ∧ (feeding 0x1D inEnd).Inv := by
  refine ⟨inv_of_idle (by decide) rfl ?_, inv_of_idle (by decide) rfl ?_, inv_of_idle (by decide) rfl ?_,
    inv_of_idle (by decide) rfl ?_, inv_of_idle (by decide) rfl ?_⟩ <;>
  exact ⟨by decide, by decide, by decide, by decide, by decide, by decide, by decide, by decide⟩

theorem test_hyp_AtMostOneTransition :
    (∃ t, exec .processByte (feeding 0x0D State.reset) = .next t) ∧ (∃ t, exec .replay replaying = .next t) ∧
      (frame .versionWait [0x0D]).Inv ∧
      ∃ t, exec .processByte (feeding 0x00 (frame .versionWait [0x0D])) = .next t ∧ t.phase ≠ .idle :=
  ⟨⟨_, rfl⟩, ⟨_, rfl⟩, test_inv_version, _, rfl, by decide⟩

/-- A fair run in which the framer ends a replay and no agent does anything else. -/
def replayRun : Nat → State
  | 0 => replaying
  | 1 => { replaying with pq := replaying.pq.withItem 0x0D, phase := .replay 1 }
  | _ + 2 =>
    { replaying with
      pq := (replaying.pq.withItem 0x0D).withItem 0x02, state := .preambleWait, pending := false, phase := .idle }

theorem test_hyp_FairRunsFinishEveryReplay :
    FairRun (fun _ => .replay) replayRun ∧ (replayRun 0).Inv ∧ (replayRun 0).phase = .replay 0 := by
  refine ⟨⟨fun n => ⟨[.replay], rfl, ?_⟩, fun n _ => ⟨n, le_rfl, rfl⟩⟩, test_inv_replay, rfl⟩
  match n with
  | 0 => rfl
  | 1 => rfl
  | _ + 2 => rfl

theorem test_hyp_EveryScheduleIsARun : State.reset.Inv ∧ State.reset.faults = [] := ⟨test_inv_reset, rfl⟩

theorem test_hyp_BytesAreCapturedInOrder :
    (frame .versionWait [0x0D]).Inv ∧ (frame .versionWait [0x0D]).state ≠ .preambleWait ∧ State.reset.Inv ∧
      State.reset.state = .preambleWait ∧ (∃ t, exec .processByte (feeding 0x0D State.reset) = .next t) ∧
      (∃ t, exec .processByte (feeding 0x0C State.reset) = .next t) ∧
      ∃ t, exec .processByte (feeding 0x0C (frame .versionWait [0x0D])) = .next t :=
  ⟨test_inv_version, by decide, test_inv_reset, rfl, ⟨_, rfl⟩, ⟨_, rfl⟩, ⟨_, rfl⟩⟩

theorem test_hyp_ReplayOffersOneByte :
    (replaying.phase = .replay 0 ∧ 0 < replaying.scur ∧ replaying.scratch[0]? = some (some 0x0D) ∧
      replaying.pq.fill < replaying.pq.cell.length ∧ replaying.pq.wr < replaying.pq.cell.length ∧ 0 + 1 ≠ replaying.scur) ∧
    (1 < replaying.scur ∧ replaying.scratch[1]? = some (some 0x02) ∧ fullP.cell.length ≤ fullP.fill ∧
      1 + 1 = replaying.scur) := by decide

theorem test_hyp_ReplayNeedsAReplayInProgress : ∀ i, State.reset.phase = .replay i → State.reset.scur ≤ i := by
  intro i h
  cases h

theorem test_hyp_ReplayStaysEnabled :
    replaying.Inv ∧ replaying.phase = .replay 0 ∧ Move.issue processTxn ≠ .replay ∧
      ∃ t, applyMove (.issue processTxn) replaying = .next t := ⟨test_inv_replay, rfl, by decide, _, rfl⟩

set_option maxRecDepth 4000 in
theorem test_hyp_EveryAbortHealsItself :
    State.Inv { replaying with sched := [.replay, .replay] } ∧ replaying.faults = [] ∧ replaying.phase = .replay 0 ∧
      [Move.replay, .replay] = List.replicate (replaying.scur - 0) .replay ++ [] :=
  ⟨inv_of_replay (by decide) rfl ⟨by decide, by decide, by decide, by decide, by decide, by decide⟩, rfl, rfl, by decide⟩

theorem test_hyp_SendFrameWritesTheWireFormat :
    0 < rec2.length.toNat ∧ [0x10, (0x20 : Byte)].length = rec2.length.toNat ∧ sendOperandOk rec2 = true ∧
      sendOperandOk rec0 = true ∧ sendOperandOk { rec2 with length := 0 } = false := by decide

theorem test_hyp_ReleaseFollowsOwnership :
    rec0.payload = none ∧ rec2.payload = some { handle := 7, bytes := [0x10, 0x20] } ∧
      (7 ∈ inEnd.live ∧ inEnd.fHandle = some 7) ∧ (7 ∈ holding2.live ∧ 7 ∈ holding2.queuedHandles) ∧
      (7 ∈ leaking.live ∧ ¬ (leaking.fHandle = some 7 ∨ 7 ∈ leaking.queuedHandles)) ∧
      (7 ∉ State.reset.live ∧ 7 ∈ ({ State.reset with freed := [7] } : State).freed) ∧ 7 ∉ State.reset.freed := by decide

theorem test_hyp_step_completes : ∃ t, step (feeding 0x0D State.reset) = .next t := ⟨_, rfl⟩

/-- FreedHandlesStayFreed: a step that frees a handle, one having been freed before. -/
theorem test_hyp_FreedHandlesStayFreed :
    after (step (issuing .fc 0x06 rec2 { State.reset with live := [7, 8], freed := [3] })) (fun t => (t.live, t.freed)) =
      some ([8], [3, 7]) := by decide

theorem test_hyp_LeakedHandlesWereDequeued : leaking.Inv ∧ leaking.leaked 7 := ⟨test_inv_leaking, by decide⟩

/-- A step that leaks the handle 7, and one after which it is no longer leaked. -/
theorem test_hyp_LeakedHandles_steps :
    ((issuing .fc 0x02 .zero holding2).Inv ∧
        ∃ t, step (issuing .fc 0x02 .zero holding2) = .next t ∧ ¬ State.leaked (issuing .fc 0x02 .zero holding2) 7 ∧
          t.leaked 7) ∧
      (issuing .fc 0x06 rec2 leaking).Inv ∧ ∃ t, step (issuing .fc 0x06 rec2 leaking) = .next t ∧ ¬ t.leaked 7 :=
  ⟨⟨inv_of_idle (by decide) rfl
      ⟨by decide, by decide, by decide, by decide, by decide, by decide, by decide, by decide⟩, _, rfl, by decide, by decide⟩,
    inv_of_idle (by decide) rfl
      ⟨by decide, by decide, by decide, by decide, by decide, by decide, by decide, by decide⟩, _, rfl, by decide⟩

theorem test_hyp_ConstructionFollowsTheResetTable : (1 ≤ 1 ∧ 1 ≤ 1 ∧ 54 ≤ 54) ∧ ¬ (1 ≤ 1 ∧ 1 ≤ 1 ∧ 54 ≤ 53) := by decide

theorem test_hyp_EmptyQueuesAfterReset : ∃ s, State.construct 1 1 54 = .next s := ⟨_, rfl⟩

/-- InvariantHoldsAtReset, EveryStepKeepsTheInvariant, OnlyReleaseCanFault, NoStepStopsTheMachine, CapacitiesAreFixed. -/
theorem test_hyp_invariants :
    (feeding 0x0D State.reset).Inv ∧ (feeding 0x0D State.reset).faults = [] ∧
      ∃ t, step (feeding 0x0D State.reset) = .next t :=
  ⟨inv_of_idle (by decide) rfl
    ⟨by decide, by decide, by decide, by decide, by decide, by decide, by decide, by decide⟩, rfl, _, rfl⟩

/-- OnlyReleaseCanFault: a step that does record a fault. -/
theorem test_hyp_OnlyReleaseCanFault :
    State.Inv (issuing .fc 0x06 rec2 leaking) ∧
      after (step (issuing .fc 0x06 rec2 { leaking with live := [], freed := [7] })) (fun t => t.faults) =
        some [.doubleRelease] :=
  ⟨inv_of_idle (by decide) rfl
    ⟨by decide, by decide, by decide, by decide, by decide, by decide, by decide, by decide⟩, by decide⟩

theorem test_hyp_SentFrameComesBack :
    FrameRec.wellFormed rec0 = true ∧
      exec (.sendFrame rec0) State.reset = .next { State.reset with tx := State.reset.tx ++ [0x0D, 0x01, 0x07, 0x00, 0x1E] } ∧
      State.Inv { State.reset with sched := feed [0x0D, 0x01, 0x07, 0x00, 0x1E] ++ [] } ∧ State.reset.faults = [] ∧
      State.reset.phase = .idle ∧ State.reset.state = .preambleWait ∧ State.reset.rx = [] ∧
      (0 < rec0.length.toNat → State.reset.drawOk = true) ∧ State.reset.fq.fill < State.reset.fq.cell.length :=
  ⟨by decide, rfl, inv_of_idle (by decide) rfl
    ⟨by decide, by decide, by decide, by decide, by decide, by decide, by decide, by decide⟩, rfl, rfl, rfl, rfl,
    fun h => absurd h (by decide), by decide⟩

/-- The same for a record with a payload. -/
theorem test_hyp_SentFrameComesBack_payload :
    FrameRec.wellFormed rec2 = true ∧
      exec (.sendFrame rec2) State.reset =
        .next { State.reset with tx := State.reset.tx ++ [0x0D, 0x01, 0x41, 0x02, 0x10, 0x20, 0x1E] } ∧
      State.Inv { State.reset with nextAlloc := some (.ok 9) } ∧
      ({ State.reset with nextAlloc := some (.ok 9) } : State).drawOk = true :=
  ⟨by decide, rfl, inv_of_idle (by decide) rfl
    ⟨by decide, by decide, by decide, by decide, by decide, by decide, by decide, by decide⟩, by decide⟩

end Sys2Proof.Tests
end

section
/-! The invariant of Safety.lean is kept by every step (O54). This part: what an update leaves of the invariant when it
writes no framer field, and the operations of the consumers, the sender, a frame's owner and the host. -/

namespace Sys2Proof.Machine

/-! ### Updates of no framer field -/

theorem framerSame_refl (s : State) : FramerSame s s :=
  ⟨rfl, rfl, rfl, rfl, rfl, rfl, rfl, rfl, rfl, rfl, rfl, rfl⟩

/-- The table of R45 speaks of framer fields only, but for the liveness of the framer's handle. -/
theorem idleOk_of_framerSame {s t : State} (hs : FramerSame s t) (hlive : ∀ k ∈ t.fHandle, k ∈ t.live)
    (h : IdleOk s) : IdleOk t := by
  cases s
  cases t
  obtain ⟨rfl, rfl, rfl, rfl, rfl, rfl, rfl, rfl, rfl, rfl, rfl, rfl⟩ := hs
  refine ⟨h.pending, h.defined, h.preambleWait, h.versionWait, h.titleWait, h.lengthWait, fun hm => ?_, fun he => ?_⟩
  · obtain ⟨head, pos, short, sum, rem, cur, payload, held, _⟩ := h.messageWait hm
    exact ⟨head, pos, short, sum, rem, cur, payload, held, hlive⟩
  · obtain ⟨head, short, cur, empty, full⟩ := h.endWait he
    refine ⟨head, short, cur, empty, fun hpos => ?_⟩
    obtain ⟨pcur, rem, payload, held, _⟩ := full hpos
    exact ⟨pcur, rem, payload, held, hlive⟩

theorem replayOk_of_framerSame {s t : State} {i : Nat} (hs : FramerSame s t) (h : ReplayOk s i) : ReplayOk t i := by
  cases s
  cases t
  obtain ⟨rfl, rfl, rfl, rfl, rfl, rfl, rfl, rfl, rfl, rfl, rfl, rfl⟩ := hs
  exact ⟨h.pending, h.inside, h.atLeastTwo, h.captured, h.released, h.aborting⟩

theorem inRange_of_framerSame {s t : State} (hs : FramerSame s t) (h : InRange s) : InRange t := by
  obtain ⟨_, _, hscratch, hscur, _, _, _, _, hpbuf, hpcur, hrem, _⟩ := hs
  simpa only [InRange, hscratch, hscur, hpbuf, hpcur, hrem] using h

/-- Where no framer field changes, only the queues and ownership have to be shown again. -/
theorem inv_of_framerSame {s t : State} (h : s.Inv) (hs : FramerSame s t) (hp : t.pq.Ok) (hf : t.fq.Ok)
    (hr : FramesOk t) (ho : OwnershipOk t) : t.Inv := by
  have hlive : ∀ k ∈ t.fHandle, k ∈ t.live := fun k hk => ho.heldLive k (by simp [Option.mem_def.mp hk])
  obtain ⟨_, _, _, _, _, _, _, _, _, _, _, hphase⟩ := id hs
  exact ⟨inRange_of_framerSame hs h.range, hp, hf, hr,
    fun hi => idleOk_of_framerSame hs hlive (h.idle (hphase ▸ hi)),
    fun i hi => replayOk_of_framerSame hs (h.replay i (hphase ▸ hi)), ho⟩

/-- An update of nothing the invariant speaks of: the marks, the host's fields, the schedule, a result that carries no
frame. -/
theorem inv_of_same {s t : State} (h : s.Inv) (hs : FramerSame s t) (hp : t.pq = s.pq) (hf : t.fq = s.fq)
    (hl : t.live = s.live) (hd : t.freed = s.freed) (hr : t.returnedHandles = s.returnedHandles) : t.Inv := by
  obtain ⟨_, _, _, _, _, _, _, hheld, _⟩ := id hs
  have hq : t.queuedHandles = s.queuedHandles := by simp [State.queuedHandles, hf]
  exact inv_of_framerSame h hs (hp ▸ h.passthrough) (hf ▸ h.frames) (by rw [FramesOk, hf]; exact h.records)
    (ownership_of_same s t h.ownership hl hd hheld hq hr)

theorem recordFault_inv {s : State} (r : FaultReason) (h : s.Inv) : (s.recordFault r).Inv :=
  inv_of_same h (framerSame_refl s) rfl rfl rfl rfl rfl

theorem refuse_inv {s : State} (w : RefuseReason) (h : s.Inv) : (s.refuse w).Inv :=
  inv_of_same h (framerSame_refl s) rfl rfl rfl rfl rfl

theorem withRx_inv {s : State} (l : List Byte) (h : s.Inv) : (s.withRx l).Inv :=
  inv_of_same h (framerSame_refl s) rfl rfl rfl rfl rfl

theorem nextMove_inv {s : State} (h : s.Inv) : s.nextMove.2.Inv := by
  unfold State.nextMove
  split <;> exact inv_of_same h (framerSame_refl s) rfl rfl rfl rfl rfl

/-! ### Results -/

theorem returnedHandles_respond_frame (a : Agent) (c : ResultCode) (fr : FrameRec) (s : State) :
    (s.respond a c (some (.frame fr))).returnedHandles = s.returnedHandles ++ fr.handle?.toList := by
  rw [State.returnedHandles, respond_results, List.filterMap_append]
  cases h : fr.handle? <;> simp [State.returnedHandles, h]

theorem returnedHandles_respond_other (a : Agent) (c : ResultCode) {d : Option Datum} (s : State)
    (hd : ∀ fr, d ≠ some (.frame fr)) : (s.respond a c d).returnedHandles = s.returnedHandles := by
  rw [State.returnedHandles, respond_results, List.filterMap_append]
  rcases d with _ | _ | _ | fr
  case some.frame => exact absurd rfl (hd fr)
  all_goals simp [State.returnedHandles]

/-- A result that carries no frame record gives no handle away. -/
theorem respond_inv {s : State} (a : Agent) (c : ResultCode) {d : Option Datum} (h : s.Inv)
    (hd : ∀ fr, d ≠ some (.frame fr)) : (s.respond a c d).Inv :=
  inv_of_same h (framerSame_refl s) rfl rfl rfl rfl (returnedHandles_respond_other a c s hd)

/-! ### The Passthrough Queue -/

/-- Nothing but the Passthrough Queue changes. -/
theorem withPq_inv {s : State} {q : Queue Byte} (h : s.Inv) (hq : q.Ok) : State.Inv { s with pq := q } :=
  inv_of_framerSame h (framerSame_refl s) hq h.frames h.records
    (ownership_of_same s _ h.ownership rfl rfl rfl rfl rfl)

/-- The framer's `Enq(P, b)` changes nothing but the Passthrough Queue, and keeps R35. -/
theorem enqPassthrough_ok {b : Byte} {s t : State} (h : s.Inv) (ht : enqPassthrough b s = .ok t) :
    ∃ q : Queue Byte, q.Ok ∧ t = { s with pq := q } := by
  rcases enqPassthrough_eq_ok.mp ht with ⟨hroom, _, rfl⟩ | ⟨_, rfl⟩
  · exact ⟨_, withItem_ok b h.passthrough hroom, rfl⟩
  · exact ⟨_, h.passthrough, rfl⟩

theorem enqPassthrough_goes_through (b : Byte) {s : State} (h : s.Inv) : ∃ t, enqPassthrough b s = .ok t := by
  obtain ⟨r, hr, _⟩ := enq_ok b h.passthrough
  exact ⟨{ s with pq := r.2 }, by simp [enqPassthrough, hr]⟩

theorem takePassthrough_inv {a : Agent} {s t : State} (h : s.Inv) (ht : takePassthrough a s = .ok t) : t.Inv := by
  rcases takePassthrough_eq_ok.mp ht with ⟨b, hpos, hcell, rfl⟩ | ⟨_, rfl⟩
  · exact respond_inv a .ok (withPq_inv h (withoutHead_ok h.passthrough hpos hcell)) (by simp)
  · exact respond_inv a .empty h (by simp)

/-! ### The consumer of frames -/

/-- Taking an item out of `F` leaves well-formed records. -/
theorem framesOk_withoutHead {s : State} (h : FramesOk s) : FramesOk { s with fq := s.fq.withoutHead } := by
  intro c hc fr hfr
  rcases List.mem_or_eq_of_mem_set hc with hc | rfl
  · exact h c hc fr hfr
  · cases hfr

/-- A dequeued frame takes its handle from its cell of `F` to the records returned (R46). -/
theorem ownership_of_dequeue (s t : State) (fr : FrameRec) (h : OwnershipOk s) (hl : t.live = s.live)
    (hd : t.freed = s.freed) (hh : t.fHandle = s.fHandle)
    (hq : s.queuedHandles.Perm (fr.handle?.toList ++ t.queuedHandles))
    (hr : t.returnedHandles = s.returnedHandles ++ fr.handle?.toList) : OwnershipOk t := by
  refine ownership_of_move s t h (List.perm_iff_count.mpr fun k => ?_) hl hd (fun k hk => ?_) (fun k hk => ?_)
  · have := hq.count_eq k
    simp only [State.ownedHandles, hh, hr, List.count_append] at this ⊢
    omega
  · rw [hh] at hk
    rcases List.mem_append.mp hk with hk | hk
    · exact List.mem_append_left _ hk
    · exact List.mem_append_right _ (hq.mem_iff.mpr (List.mem_append_right _ hk))
  · rw [hr] at hk
    rcases List.mem_append.mp hk with hk | hk
    · exact .inl hk
    · exact .inr (h.heldLive k (List.mem_append_right _ (hq.mem_iff.mpr (List.mem_append_left _ hk))))

theorem takeFrame_inv {a : Agent} {s t : State} (h : s.Inv) (ht : takeFrame a s = .ok t) : t.Inv := by
  rcases takeFrame_eq_ok.mp ht with ⟨fr, hpos, hcell, rfl⟩ | ⟨_, rfl⟩
  · exact inv_of_framerSame h (framerSame_refl s) h.passthrough (withoutHead_ok h.frames hpos hcell)
      (framesOk_withoutHead h.records)
      (ownership_of_dequeue s _ fr h.ownership rfl rfl rfl
        (filterMap_set_none (fun c => c.bind FrameRec.handle?) rfl s.fq.cell s.fq.rd fr hcell)
        (returnedHandles_respond_frame a .ok fr _))
  · exact respond_inv a .empty h (by simp)

/-! ### The owner -/

theorem releaseHandle_inv {k : Handle} {s t : State} (h : s.Inv) (ht : releaseHandle k s = .ok t) : t.Inv := by
  rcases releaseHandle_eq_ok.mp ht with ⟨_, hout, rfl⟩ | ⟨_, _, rfl⟩
  · obtain ⟨hframer, hqueue⟩ : s.fHandle ≠ some k ∧ k ∉ s.queuedHandles := by simpa [heldInside] using hout
    exact inv_of_framerSame h (framerSame_refl s) h.passthrough h.frames h.records
      (ownership_of_free s _ k h.ownership rfl rfl rfl rfl (.inr ⟨rfl, hframer, hqueue⟩))
  · exact h

/-! ### Every command but PROCESS_BYTE -/

/-- A step whose operations keep the invariant keeps it, a recorded fault included. -/
theorem outcome_inv {x : Res State} {t : State} (hok : ∀ u, x = .ok u → u.Inv)
    (hraised : ∀ r u, x = .raised r u → u.Inv) (ht : x.outcome = .next t) : t.Inv := by
  rcases outcome_eq_next.mp ht with h | ⟨r, u, h, rfl⟩
  · exact hok t h
  · exact recordFault_inv r (hraised r u h)

theorem exec_notFramer_inv {i : Instr} {s t : State} (hi : notFramer i = true) (h : s.Inv)
    (ht : exec i s = .next t) : t.Inv := by
  cases i <;> simp only [notFramer, reduceCtorEq] at hi
  case frameAvailable a =>
    cases ht
    exact respond_inv a .ok h (by simp)
  case passthroughAvailable a =>
    cases ht
    exact respond_inv a .ok h (by simp)
  case reserved cmd =>
    cases ht
    exact refuse_inv _ h
  case dequeueFrame a =>
    simp only [exec, execDequeueFrame] at ht
    split at ht
    · refine outcome_inv (fun u hu => takeFrame_inv h hu) (fun r u hu => ?_) ht
      obtain ⟨_, _, _, rfl⟩ := takeFrame_eq_raised hu
      exact h
    · cases ht
      exact refuse_inv _ h
  case readPassthrough a =>
    simp only [exec, execReadPassthrough] at ht
    split at ht
    · refine outcome_inv (fun u hu => takePassthrough_inv h hu) (fun r u hu => ?_) ht
      obtain ⟨_, _, _, rfl⟩ := takePassthrough_eq_raised hu
      exact h
    · cases ht
      exact refuse_inv _ h
  case sendFrame fr =>
    simp only [exec, execSendFrame] at ht
    split at ht <;> cases ht
    · exact inv_of_same h (framerSame_refl s) rfl rfl rfl rfl rfl
    · exact refuse_inv _ h
  case release fr =>
    simp only [exec, execRelease] at ht
    split at ht
    · cases ht
      exact h
    · refine outcome_inv (fun u hu => releaseHandle_inv h hu) (fun r u hu => ?_) ht
      obtain ⟨rfl, _⟩ := releaseHandle_eq_raised.mp hu
      exact h

/-- The operation port issues PROCESS_BYTE, or an operation that is not the framer's (R80, R81). -/
theorem decodeTxn_cases (x : Txn) : decodeTxn x = .processByte ∨ notFramer (decodeTxn x) = true := by
  unfold decodeTxn
  split_ifs
  · exact .inr rfl
  · exact .inl rfl
  all_goals exact .inr rfl

end Sys2Proof.Machine
end

section
/-! The invariant at a call boundary (R44, R45): what the table gives to a row's rule, that the selected row's rule goes
through, and that it leaves either the table for the state it goes on to, or the start of a replay. -/

namespace Sys2Proof.Machine

theorem frameLength_eq {s : State} {b : Byte} (h : s.fLength = some b) : s.frameLength = b.toNat := by
  simp [State.frameLength, h]

/-! ### What the table of R45 gives -/

/-- The header and the payload bytes are captured without a gap. -/
theorem captured_of_payload {s : State} {n : Nat} (hh : HeaderCaptured s) (hp : PayloadCaptured s n) :
    ∀ c ∈ s.scratch.take (4 + n), c.isSome = true := by
  obtain ⟨_, htitle, hlen, hhead⟩ := hh
  obtain ⟨hsame, hall⟩ := hp
  rw [List.take_add]
  intro c hc
  rcases List.mem_append.mp hc with hc | hc
  · rw [show s.scratch.take 4 = _ from hhead] at hc
    simp only [List.mem_cons, List.not_mem_nil, or_false] at hc
    rcases hc with rfl | rfl | rfl | rfl
    · rfl
    · rfl
    · exact htitle
    · exact hlen
  · exact hall c (hsame ▸ hc)

/-- In EndWait the whole payload is captured, where there is one. -/
theorem payloadCaptured_of_endWait {s : State} (h : IdleOk s) (hs : s.state = .endWait) :
    PayloadCaptured s s.frameLength := by
  obtain ⟨_, _, _, _, hfull⟩ := h.endWait hs
  rcases Nat.eq_zero_or_pos s.frameLength with h0 | hpos
  · simp [PayloadCaptured, h0]
  · obtain ⟨_, _, hp, _⟩ := hfull hpos
    exact hp

/-- A frame in progress has captured a byte, and has room for one more (R24, R153). -/
theorem scur_bounds {s : State} (h : IdleOk s) (hs : s.state ≠ .preambleWait) :
    1 ≤ s.scur ∧ s.scur < Config.maxRaw := by
  simp only [Config.maxRaw]
  cases hst : s.state with
  | preambleWait => exact absurd hst hs
  | versionWait =>
    obtain ⟨hc, _⟩ := h.versionWait hst
    omega
  | titleWait =>
    obtain ⟨hc, _⟩ := h.titleWait hst
    omega
  | lengthWait =>
    obtain ⟨hc, _⟩ := h.lengthWait hst
    omega
  | messageWait =>
    obtain ⟨_, _, hlen, hsum, hrem, hc, _⟩ := h.messageWait hst
    simp only [Config.maxLength] at hlen
    omega
  | endWait =>
    obtain ⟨_, hlen, hc, _⟩ := h.endWait hst
    simp only [Config.maxLength] at hlen
    omega
  | unused6 => exact absurd hst h.defined.1
  | unused7 => exact absurd hst h.defined.2

theorem scur_lt_scratch {s : State} (hr : InRange s) (h : IdleOk s) (hs : s.state ≠ .preambleWait) :
    s.scur < s.scratch.length := lt_of_lt_of_le (scur_bounds h hs).2 hr.1

/-- Every byte of a frame in progress is captured (R24, R45). -/
theorem captured_of_idle {s : State} (h : IdleOk s) (hs : s.state ≠ .preambleWait) :
    ∀ c ∈ s.scratch.take s.scur, c.isSome = true := by
  cases hst : s.state with
  | preambleWait => exact absurd hst hs
  | versionWait =>
    obtain ⟨hc, _, hhead⟩ := h.versionWait hst
    rw [hc, show s.scratch.take 1 = _ from hhead]
    simp
  | titleWait =>
    obtain ⟨hc, _, _, hhead⟩ := h.titleWait hst
    rw [hc, show s.scratch.take 2 = _ from hhead]
    simp
  | lengthWait =>
    obtain ⟨hc, _, _, htitle, hhead⟩ := h.lengthWait hst
    rw [hc, show s.scratch.take 3 = _ from hhead]
    simpa using htitle
  | messageWait =>
    obtain ⟨hh, _, _, _, _, hc, hp, _⟩ := h.messageWait hst
    exact hc ▸ captured_of_payload hh hp
  | endWait =>
    obtain ⟨hh, _, hc, _⟩ := h.endWait hst
    exact hc ▸ captured_of_payload hh (payloadCaptured_of_endWait h hst)
  | unused6 => exact absurd hst h.defined.1
  | unused7 => exact absurd hst h.defined.2

/-- In EndWait the header registers hold the fields of a record, and `pbuf` its payload (R135). -/
theorem frameInProgress_of_endWait {s : State} (hr : InRange s) (h : IdleOk s) (hs : s.state = .endWait) :
    ∃ fr, FrameInProgress s fr := by
  obtain ⟨⟨hversion, htitle, hlen, _⟩, hshort, _, _, hfull⟩ := h.endWait hs
  obtain ⟨t, ht⟩ := Option.isSome_iff_exists.mp htitle
  obtain ⟨len, hl⟩ := Option.isSome_iff_exists.mp hlen
  rw [frameLength_eq hl] at hshort hfull
  rcases Nat.eq_zero_or_pos len.toNat with h0 | hpos
  · exact ⟨{ version := Config.version, title := t, length := len, payload := none }, hversion, ht, hl, fun _ => rfl,
      fun hpos => absurd hpos (by simp [h0])⟩
  · obtain ⟨_, _, ⟨_, hall⟩, hheld, _⟩ := hfull hpos
    obtain ⟨k, hk⟩ := Option.isSome_iff_exists.mp hheld
    obtain ⟨bs, _, hbs⟩ := collect_of_all hall
    have hcount : bs.length = len.toNat := by
      have := congrArg List.length hbs
      have hsize := hr.2.1
      simp only [List.length_take, List.length_map, hsize, Config.pbufCap] at this
      simp only [Config.maxLength] at hshort
      omega
    exact ⟨{ version := Config.version, title := t, length := len, payload := some { handle := k, bytes := bs } },
      hversion, ht, hl, fun h0 => absurd h0 (by simp only; omega), fun _ => ⟨_, rfl, hk, hbs, hcount⟩⟩

/-- The record of a frame that reaches EndWait is well-formed (R34). -/
theorem wellFormed_of_frameInProgress {s : State} {fr : FrameRec} (h : IdleOk s) (hs : s.state = .endWait)
    (hf : FrameInProgress s fr) : FrameRec.wellFormed fr = true := by
  obtain ⟨⟨hversion, _⟩, hshort, _⟩ := h.endWait hs
  obtain ⟨hv, _, hl, hempty, hfull⟩ := hf
  have hv' : fr.version = Config.version := Option.some.inj (hv.symm.trans hversion)
  have hshort' : fr.length.toNat < Config.maxLength := frameLength_eq hl ▸ hshort
  rcases Nat.eq_zero_or_pos fr.length.toNat with h0 | hpos
  · have hz : fr.length = 0 := BitVec.eq_of_toNat_eq h0
    simp [FrameRec.wellFormed, hv', hempty h0, hz, Config.maxLength]
  · obtain ⟨p, hp, _, _, hcount⟩ := hfull hpos
    simp [FrameRec.wellFormed, hv', hp, hpos, hshort', hcount]

/-- The record of a frame that reaches EndWait holds the framer's handle, or neither holds one (R135). -/
theorem handle_of_frameInProgress {s : State} {fr : FrameRec} (h : IdleOk s) (hs : s.state = .endWait)
    (hf : FrameInProgress s fr) : fr.handle? = s.fHandle := by
  obtain ⟨_, _, _, hnone, _⟩ := h.endWait hs
  obtain ⟨_, _, hl, hempty, hfull⟩ := hf
  rcases Nat.eq_zero_or_pos fr.length.toNat with h0 | hpos
  · rw [hnone ((frameLength_eq hl).trans h0), FrameRec.handle?, hempty h0]
    rfl
  · obtain ⟨p, hp, hk, _⟩ := hfull hpos
    rw [hk, FrameRec.handle?, hp]
    rfl

/-! ### The selected row's rule goes through -/

/-- In MessageWait there is room for the byte in the scratch buffer and in the payload buffer (R153). -/
theorem storePayloadByte_goes_through {s : State} (h : s.Inv) (hi : s.phase = .idle) (hs : s.state = .messageWait)
    (b : Byte) : ∃ u, storePayloadByte b s = .ok u := by
  have hidle := h.idle hi
  obtain ⟨_, hsize, _⟩ := h.range
  obtain ⟨_, _, hlen, hsum, hrem, _⟩ := hidle.messageWait hs
  have hcell : s.pcur < s.pbuf.length := by
    simp only [Config.pbufCap, Config.maxLength] at hsize hlen
    omega
  exact ⟨_, storePayloadByte_eq_ok.mpr ⟨scur_lt_scratch h.range hidle (by simp [hs]), hcell, rfl⟩⟩

/-- In LengthWait the rows cover every byte and either answer of the draw (R72, R129 to R131). -/
theorem lengthRow_goes_through {s : State} (hs : s.state = .lengthWait) (hroom : s.scur < s.scratch.length) (b : Byte) :
    ∃ i t, decodeRow .lengthWait b s.rowCond = .ok i ∧ rowRule i s = .ok t := by
  simp only [decodeRow]
  by_cases h0 : b = 0
  · exact ⟨_, _, if_pos h0, ruleLenZero_eq_ok.mpr ⟨hs, hroom, rfl⟩⟩
  by_cases hshort : b.toNat < Config.maxLength
  · have hclass : payloadLength b = true := by
      have : b.toNat ≠ 0 := fun hz => h0 (BitVec.eq_of_toNat_eq hz)
      simp only [payloadLength, decide_eq_true_eq]
      omega
    rw [if_neg h0, if_pos hshort]
    cases hd : s.peekDraw with
    | ok k =>
      exact ⟨_, _, if_pos (by simp [State.rowCond, State.drawOk, hd]),
        ruleLenAlloc_eq_ok.mpr ⟨hs, hclass, hroom, k, hd, rfl⟩⟩
    | fail =>
      exact ⟨_, _, if_neg (by simp [State.rowCond, State.drawOk, hd]),
        ruleLenNomem_eq_ok.mpr ⟨hs, hclass, hroom, by simp [State.drawOk, hd], rfl⟩⟩
  · rw [if_neg h0, if_neg hshort]
    exact ⟨_, _, rfl, ruleLenBad_eq_ok.mpr ⟨⟨hs, not_lt.mp hshort⟩, hroom, rfl⟩⟩

/-- From a state that meets the invariant, at a call boundary, every byte selects a row whose rule goes through: none
raises, and none is stuck (R76, R153). -/
theorem row_goes_through {s : State} (h : s.Inv) (hi : s.phase = .idle) (b : Byte) :
    ∃ i t, decodeRow s.state b s.rowCond = .ok i ∧ rowRule i s = .ok t := by
  have hidle := h.idle hi
  have room := scur_lt_scratch h.range hidle
  cases hst : s.state with
  | preambleWait =>
    by_cases hb : b = Config.preamble
    · have hpos : 0 < s.scratch.length := lt_of_lt_of_le (by decide) h.range.1
      exact ⟨_, _, if_pos hb, rulePreStart_eq_ok.mpr ⟨hst, hpos, rfl⟩⟩
    · obtain ⟨t, ht⟩ := enqPassthrough_goes_through b h
      exact ⟨_, t, if_neg hb, rulePrePass_eq_ok.mpr ⟨⟨hst, hb⟩, ht⟩⟩
  | versionWait =>
    have hroom := room (by simp [hst])
    by_cases hb : b = Config.version
    · exact ⟨_, _, if_pos hb, ruleVerOk_eq_ok.mpr ⟨hst, hroom, rfl⟩⟩
    · exact ⟨_, _, if_neg hb, ruleVerBad_eq_ok.mpr ⟨⟨hst, hb⟩, hroom, rfl⟩⟩
  | titleWait => exact ⟨_, _, rfl, ruleTitle_eq_ok.mpr ⟨hst, room (by simp [hst]), rfl⟩⟩
  | lengthWait => exact lengthRow_goes_through hst (room (by simp [hst])) b
  | messageWait =>
    obtain ⟨u, hu⟩ := storePayloadByte_goes_through h hi hst b
    obtain ⟨_, _, _, _, hrem, _⟩ := hidle.messageWait hst
    by_cases h2 : 2 ≤ s.rem
    · exact ⟨_, _, if_pos h2, ruleMsgByte_eq_ok.mpr ⟨⟨hst, h2⟩, u, hu, rfl⟩⟩
    · have h1 : s.rem = 1 := by omega
      exact ⟨.msgLast b, _, by simp [decodeRow, State.rowCond, h1],
        ruleMsgLast_eq_ok.mpr ⟨⟨hst, h1⟩, u, hu, rfl⟩⟩
  | endWait =>
    have hroom := room (by simp [hst])
    by_cases hb : b = Config.terminator
    · obtain ⟨fr, hfr⟩ := frameInProgress_of_endWait h.range hidle hst
      obtain ⟨_, _, hwr, _⟩ := h.frames
      by_cases hfree : s.fq.fill < s.fq.cap
      · exact ⟨.endOk, _, by simp [decodeRow, hb, State.rowCond, hfree],
          ruleEndOk_eq_ok.mpr ⟨⟨hst, hfree⟩, hroom, hwr, fr, hfr, rfl⟩⟩
      · exact ⟨.endFull, _, by simp [decodeRow, hb, State.rowCond, hfree],
          ruleEndFull_eq_ok.mpr ⟨⟨hst, hfree⟩, hroom, ⟨fr, hfr⟩, rfl⟩⟩
    · exact ⟨_, _, if_neg hb, ruleEndBad_eq_ok.mpr ⟨⟨hst, hb⟩, hroom, rfl⟩⟩
  | unused6 => exact absurd hst hidle.defined.1
  | unused7 => exact absurd hst hidle.defined.2

end Sys2Proof.Machine
end

section
/-! What a row's rule leaves: the table of R45 for the state it goes on to, or the start of a replay (R120, R139). -/

namespace Sys2Proof.Machine

/-! ### Ownership under the framer's own updates -/

theorem ownership_of_dropPayload {s : State} (h : OwnershipOk s) : OwnershipOk s.dropPayload := by
  unfold State.dropPayload
  split
  · rename_i k hk
    exact ownership_of_free s _ k h rfl rfl rfl rfl (.inl ⟨hk, rfl⟩)
  · exact h

theorem ownership_of_endRelease {s : State} (h : OwnershipOk s) : OwnershipOk (endRelease s) := by
  unfold endRelease
  split
  · exact ownership_of_dropPayload h
  · exact h

/-- An enqueued frame takes its handle from the framer to its cell of `F` (R46, R108). -/
theorem ownership_of_enqueue (s t : State) (h : OwnershipOk s) (hl : t.live = s.live) (hd : t.freed = s.freed)
    (hh : t.fHandle = none) (hq : t.queuedHandles.Perm (s.fHandle.toList ++ s.queuedHandles))
    (hr : t.returnedHandles = s.returnedHandles) : OwnershipOk t := by
  refine ownership_of_move s t h ?_ hl hd (fun k hk => ?_) (fun k hk => .inl (hr ▸ hk))
  · simpa only [State.ownedHandles, hh, hr, Option.toList_none, List.nil_append] using hq.append_right _
  · rw [hh] at hk
    exact hq.mem_iff.mp hk

/-! ### Rows that go on -/

/-- A row that goes on has no reset to check for: what it leaves is what the call leaves. -/
theorem callEnd_inv_of_inv {s t : State} (hi : t.phase = .idle) (h : t.Inv) :
    State.Inv (if s.state = .preambleWait then t else resetCheck t) := by
  have : resetCheck t = t := by simp [resetCheck, (h.idle hi).pending]
  rw [this, ite_self]
  exact h

/-- A row that leaves both queues alone has to keep the ranges, the table of R45 and ownership. -/
theorem inv_of_row {s t : State} (h : s.Inv) (hp : t.pq = s.pq) (hf : t.fq = s.fq) (hi : t.phase = .idle)
    (hr : InRange t) (ht : IdleOk t) (ho : OwnershipOk t) : t.Inv :=
  ⟨hr, hp ▸ h.passthrough, hf ▸ h.frames, by rw [FramesOk, hf]; exact h.records, fun _ => ht,
    fun i hreplay => by simp [hi] at hreplay, ho⟩

/-- The captured head grows by the byte that is recorded. -/
theorem capturedHead_capture {s : State} {bs : List (Option Byte)} (b : Byte) (hc : s.scur = bs.length)
    (hlt : s.scur < s.scratch.length) (h : CapturedHead s bs) : CapturedHead (s.capture b) (bs ++ [some b]) := by
  rw [CapturedHead, List.length_append, List.length_singleton, ← hc]
  exact (take_set_succ _ _ _ hlt).trans (by rw [hc, h])

theorem inRange_capture {s : State} (b : Byte) (h : InRange s) (hi : IdleOk s) (hs : s.state ≠ .preambleWait) :
    InRange (s.capture b) := by
  obtain ⟨hscratch, hpbuf, _, hpcur, hrem⟩ := h
  exact ⟨by simpa [State.capture] using hscratch, hpbuf, (scur_bounds hi hs).2, hpcur, hrem⟩

theorem rulePreStart_inv {s t : State} (h : s.Inv) (hi : s.phase = .idle) (ht : rulePreStart s = .ok t) :
    t.phase = .idle ∧ t.Inv := by
  obtain ⟨hst, hpos, rfl⟩ := rulePreStart_eq_ok.mp ht
  obtain ⟨hscratch, hpbuf, _, hpcur, hrem⟩ := h.range
  refine ⟨hi, inv_of_row h rfl rfl hi ?_ ?_ (ownership_of_same s _ h.ownership rfl rfl rfl rfl rfl)⟩
  · exact ⟨by simpa using hscratch, hpbuf, by simp [Config.maxRaw], hpcur, hrem⟩
  · constructor
    case versionWait =>
      exact fun _ => ⟨rfl, (h.idle hi).preambleWait hst, take_set_succ s.scratch 0 (some Config.preamble) hpos⟩
    all_goals simp

theorem rulePrePass_inv {b : Byte} {s t : State} (h : s.Inv) (hi : s.phase = .idle) (ht : rulePrePass b s = .ok t) :
    t.phase = .idle ∧ t.Inv := by
  obtain ⟨q, hq, rfl⟩ := enqPassthrough_ok h (rulePrePass_eq_ok.mp ht).2
  exact ⟨hi, withPq_inv h hq⟩

theorem ruleVerOk_inv {s t : State} (h : s.Inv) (hi : s.phase = .idle) (ht : ruleVerOk s = .ok t) :
    t.phase = .idle ∧ t.Inv := by
  obtain ⟨hst, hlt, rfl⟩ := ruleVerOk_eq_ok.mp ht
  obtain ⟨hc, hnone, hhead⟩ := (h.idle hi).versionWait hst
  refine ⟨hi, inv_of_row h rfl rfl hi (inRange_capture _ h.range (h.idle hi) (by simp [hst])) ?_
    (ownership_of_same s _ h.ownership rfl rfl rfl rfl rfl)⟩
  constructor
  case titleWait => exact fun _ => ⟨congrArg (· + 1) hc, hnone, rfl, capturedHead_capture Config.version hc hlt hhead⟩
  all_goals simp [(h.idle hi).pending]

theorem ruleTitle_inv {b : Byte} {s t : State} (h : s.Inv) (hi : s.phase = .idle) (ht : ruleTitle b s = .ok t) :
    t.phase = .idle ∧ t.Inv := by
  obtain ⟨hst, hlt, rfl⟩ := ruleTitle_eq_ok.mp ht
  obtain ⟨hc, hnone, hversion, hhead⟩ := (h.idle hi).titleWait hst
  refine ⟨hi, inv_of_row h rfl rfl hi (inRange_capture _ h.range (h.idle hi) (by simp [hst])) ?_
    (ownership_of_same s _ h.ownership rfl rfl rfl rfl rfl)⟩
  constructor
  case lengthWait =>
    exact fun _ => ⟨congrArg (· + 1) hc, hnone, hversion, rfl, capturedHead_capture b hc hlt hhead⟩
  all_goals simp [(h.idle hi).pending]

/-- A recorded length byte completes the header (R45). -/
theorem headerCaptured_of_length {s : State} (b : Byte) (h : IdleOk s) (hs : s.state = .lengthWait)
    (hlt : s.scur < s.scratch.length) :
    (s.capture b).scur = 4 ∧ HeaderCaptured { s.capture b with fLength := some b } := by
  obtain ⟨hc, _, hversion, htitle, hhead⟩ := h.lengthWait hs
  exact ⟨congrArg (· + 1) hc, hversion, htitle, rfl, capturedHead_capture b hc hlt hhead⟩

theorem ruleLenZero_inv {s t : State} (h : s.Inv) (hi : s.phase = .idle) (ht : ruleLenZero s = .ok t) :
    t.phase = .idle ∧ t.Inv := by
  obtain ⟨hst, hlt, rfl⟩ := ruleLenZero_eq_ok.mp ht
  obtain ⟨hc, hheader⟩ := headerCaptured_of_length 0 (h.idle hi) hst hlt
  obtain ⟨_, hnone, _⟩ := (h.idle hi).lengthWait hst
  refine ⟨hi, inv_of_row h rfl rfl hi (inRange_capture _ h.range (h.idle hi) (by simp [hst])) ?_
    (ownership_of_same s _ h.ownership rfl rfl rfl rfl rfl)⟩
  constructor
  case endWait =>
    have hlen : State.frameLength { s.capture 0 with fLength := some 0, state := .endWait } = 0 := rfl
    rw [hlen]
    exact fun _ => ⟨hheader, by decide, hc, fun _ => hnone, fun hpos => absurd hpos (by decide)⟩
  all_goals simp [(h.idle hi).pending]

theorem ruleLenAlloc_inv {b : Byte} {s t : State} (h : s.Inv) (hi : s.phase = .idle) (ht : ruleLenAlloc b s = .ok t) :
    t.phase = .idle ∧ t.Inv := by
  obtain ⟨hst, hclass, hlt, k, _, rfl⟩ := ruleLenAlloc_eq_ok.mp ht
  obtain ⟨hc, hheader⟩ := headerCaptured_of_length b (h.idle hi) hst hlt
  obtain ⟨_, hnone, _⟩ := (h.idle hi).lengthWait hst
  obtain ⟨hpos, hshort⟩ : 1 ≤ b.toNat ∧ b.toNat < Config.maxLength := by simpa [payloadLength] using hclass
  obtain ⟨hlive, hfreed⟩ := freshen_fresh k s
  obtain ⟨hscratch, hpbuf, hscur, _⟩ := inRange_capture b h.range (h.idle hi) (by simp [hst])
  refine ⟨by simpa using hi, inv_of_row h (by simp) (by simp) (by simpa using hi) ?_ ?_
    (ownership_of_alloc s _ (freshen k s) h.ownership (by simp) (by simp) (by simp [State.queuedHandles])
      (by simp [State.returnedHandles]) hnone (by simp) hlive hfreed)⟩
  · exact ⟨by simpa using hscratch, by simpa using hpbuf, by simpa using hscur, by simp [Config.maxLength],
      by simpa using hshort⟩
  · constructor
    case messageWait =>
      rw [frameLength_eq (b := b) (by simp)]
      simp only [allocate_pcur, allocate_rem, allocate_scur, takeDraw_scur]
      refine fun _ => ⟨?_, hpos, hshort, Nat.zero_add _, hpos, hc, ⟨rfl, by simp⟩, ⟨rfl, by simp⟩⟩
      simpa [HeaderCaptured, CapturedHead] using hheader
    all_goals simp [(h.idle hi).pending]

/-- A stored payload byte is captured in both buffers (R132, R133). -/
theorem payloadCaptured_store {b : Byte} {s u : State} (h : IdleOk s) (hs : s.state = .messageWait)
    (hu : storePayloadByte b s = .ok u) : HeaderCaptured u ∧ u.scur = 4 + u.pcur ∧ PayloadCaptured u u.pcur := by
  obtain ⟨hlt, hcell, rfl⟩ := storePayloadByte_eq_ok.mp hu
  obtain ⟨⟨hversion, htitle, hlen, hhead⟩, _, _, _, _, hc, ⟨hsame, hall⟩, _⟩ := h.messageWait hs
  have hhead' : (s.scratch.set s.scur (some b)).take 4 = s.scratch.take 4 := List.take_set_of_le (by omega)
  have hdrop : (s.scratch.set s.scur (some b)).drop 4 = (s.scratch.drop 4).set s.pcur (some b) := by
    rw [hc, List.drop_set]
    simp
  refine ⟨⟨hversion, htitle, hlen, hhead'.trans hhead⟩, ?_, ?_, all_take_set _ _ _ hcell hall⟩
  · show s.scur + 1 = 4 + (s.pcur + 1)
    omega
  · show (s.pbuf.set s.pcur (some b)).take (s.pcur + 1) = ((s.scratch.set s.scur (some b)).drop 4).take (s.pcur + 1)
    rw [hdrop, take_set_succ _ _ _ hcell, take_set_succ _ _ _ (by simp; omega), hsame]

/-- What storing a payload byte leaves of the ranges: one byte fewer remains (R20). -/
theorem inRange_store {b : Byte} {s u : State} (hr : InRange s) (h : IdleOk s) (hs : s.state = .messageWait)
    (hu : storePayloadByte b s = .ok u) : InRange u := by
  obtain ⟨_, _, rfl⟩ := storePayloadByte_eq_ok.mp hu
  obtain ⟨_, _, hshort, hsum, hrem, _⟩ := h.messageWait hs
  obtain ⟨hscratch, hpbuf, hscur, _⟩ := inRange_capture b hr h (by simp [hs])
  exact ⟨hscratch, by simpa using hpbuf, hscur, by simp only; omega, by simp only; omega⟩

/-- Without a pending reset MessageWait's pending clause does nothing (R134). -/
theorem releasePayloadIfPending_of_clear {s : State} (h : s.pending = false) : releasePayloadIfPending s = s := by
  simp [releasePayloadIfPending, h]

theorem ruleMsgByte_inv {b : Byte} {s t : State} (h : s.Inv) (hi : s.phase = .idle) (ht : ruleMsgByte b s = .ok t) :
    t.phase = .idle ∧ t.Inv := by
  obtain ⟨⟨hst, h2⟩, u, hu, rfl⟩ := ruleMsgByte_eq_ok.mp ht
  obtain ⟨hheader, hc, hpayload⟩ := payloadCaptured_store (h.idle hi) hst hu
  have hrange := inRange_store h.range (h.idle hi) hst hu
  obtain ⟨_, hpos, hshort, hsum, _, _, _, hlive⟩ := (h.idle hi).messageWait hst
  obtain ⟨_, _, rfl⟩ := storePayloadByte_eq_ok.mp hu
  rw [releasePayloadIfPending_of_clear (by exact (h.idle hi).pending)]
  refine ⟨hi, inv_of_row h rfl rfl hi hrange ?_ (ownership_of_same s _ h.ownership rfl rfl rfl rfl rfl)⟩
  constructor
  case messageWait =>
    have hsum' : s.pcur + 1 + (s.rem - 1) = s.frameLength := by omega
    exact fun _ => ⟨hheader, hpos, hshort, hsum', Nat.le_sub_of_add_le h2, hc, hpayload, hlive⟩
  all_goals simp [(h.idle hi).pending, hst]

theorem ruleMsgLast_inv {b : Byte} {s t : State} (h : s.Inv) (hi : s.phase = .idle) (ht : ruleMsgLast b s = .ok t) :
    t.phase = .idle ∧ t.Inv := by
  obtain ⟨⟨hst, h1⟩, u, hu, rfl⟩ := ruleMsgLast_eq_ok.mp ht
  obtain ⟨hheader, hc, hpayload⟩ := payloadCaptured_store (h.idle hi) hst hu
  have hrange := inRange_store h.range (h.idle hi) hst hu
  obtain ⟨_, hpos, hshort, hsum, _, _, _, hlive⟩ := (h.idle hi).messageWait hst
  obtain ⟨_, _, rfl⟩ := storePayloadByte_eq_ok.mp hu
  rw [releasePayloadIfPending_of_clear (by exact (h.idle hi).pending)]
  refine ⟨hi, inv_of_row h rfl rfl hi hrange ?_ (ownership_of_same s _ h.ownership rfl rfl rfl rfl rfl)⟩
  constructor
  case endWait =>
    have hfull : s.pcur + 1 = s.frameLength := by omega
    have hrem : s.rem - 1 = 0 := by omega
    exact fun _ => ⟨hheader, hshort, hfull ▸ hc, fun h0 => absurd h0 (Nat.ne_of_gt hpos),
      fun _ => ⟨hfull, hrem, hfull ▸ hpayload, hlive⟩⟩
  all_goals simp [(h.idle hi).pending]

/-- In a queue with room, the cell at `wr` is free (R35). -/
theorem tail_cell {α : Type} {q : Queue α} (hq : q.Ok) (h : q.fill < q.cap) : q.cell[q.wr]? = some none := by
  obtain ⟨_, _, hwr, _, hpos, hcells⟩ := hq
  have := hcells q.fill h
  rw [← hpos] at this
  rcases hc : q.cell[q.wr]? with _ | _ | v
  · exact absurd (List.getElem?_eq_none_iff.mp hc) (Nat.not_le.mpr hwr)
  · rfl
  · simp [hc] at this

theorem ruleEndOk_inv {s t : State} (h : s.Inv) (hi : s.phase = .idle) (ht : ruleEndOk s = .ok t) :
    t.phase = .idle ∧ t.Inv := by
  obtain ⟨⟨hst, hroom⟩, _, _, fr, hfr, rfl⟩ := ruleEndOk_eq_ok.mp ht
  have hidle := h.idle hi
  have hcell := filterMap_set_some (fun c => c.bind FrameRec.handle?) rfl s.fq.cell s.fq.wr fr (tail_cell h.frames hroom)
  refine ⟨hi, inRange_capture _ h.range hidle (by simp [hst]), h.passthrough, withItem_ok fr h.frames hroom, ?_, ?_,
    fun i hreplay => absurd (hi.symm.trans hreplay) (by simp),
    ownership_of_enqueue s _ h.ownership rfl rfl rfl (handle_of_frameInProgress hidle hst hfr ▸ hcell) rfl⟩
  · intro c hc r hr
    rcases List.mem_or_eq_of_mem_set hc with hc | rfl
    · exact h.records c hc r hr
    · cases hr
      exact wellFormed_of_frameInProgress hidle hst hfr
  · intro _
    constructor <;> simp [hidle.pending]

/-! ### Rows that abort -/

/-- What an abort row leaves to the replay (R172): the byte recorded in a frame that is given up, the reset pending, no
payload held, and everything else the ranges and the queues speak of as it was. -/
structure Aborts (b : Byte) (s t : State) : Prop where
  pending : t.pending = true
  state : t.state = s.state
  scratch : t.scratch = s.scratch.set s.scur (some b)
  scur : t.scur = s.scur + 1
  released : t.fHandle = none
  pbuf : t.pbuf = s.pbuf
  pcur : t.pcur = s.pcur
  rem : t.rem = s.rem
  pq : t.pq = s.pq
  fq : t.fq = s.fq

/-- After an abort row ResetCheck starts the replay with the invariant kept (R139, R180). -/
theorem callEnd_inv_of_aborts {b : Byte} {s t : State} (h : s.Inv) (hi : s.phase = .idle)
    (hs : s.state = .versionWait ∨ s.state = .lengthWait ∨ s.state = .endWait) (ht : Aborts b s t)
    (ho : OwnershipOk t) : State.Inv (if s.state = .preambleWait then t else resetCheck t) := by
  have hidle := h.idle hi
  have hne : s.state ≠ .preambleWait := by rcases hs with hs | hs | hs <;> simp [hs]
  obtain ⟨hone, _⟩ := scur_bounds hidle hne
  obtain ⟨hscratch, hpbuf, hscur, hpcur, hrem⟩ := inRange_capture b h.range hidle hne
  have hreset : resetCheck t = { t with phase := .replay 0 } := by simp [resetCheck, ht.pending]
  rw [if_neg hne, hreset]
  refine ⟨⟨ht.scratch ▸ hscratch, ht.pbuf ▸ hpbuf, ht.scur ▸ hscur, ht.pcur ▸ hpcur, ht.rem ▸ hrem⟩,
    ht.pq ▸ h.passthrough, ht.fq ▸ h.frames, by rw [FramesOk, ht.fq]; exact h.records, by simp, fun i hreplay => ?_,
    ownership_of_same t _ ho rfl rfl rfl rfl rfl⟩
  cases hreplay
  have hcaptured : ∀ c ∈ t.scratch.take t.scur, c.isSome = true := by
    rw [ht.scratch, ht.scur]
    exact all_take_set _ _ _ (scur_lt_scratch h.range hidle hne) (captured_of_idle hidle hne)
  have hcur := ht.scur
  exact ⟨ht.pending, show 0 < t.scur by omega, show 2 ≤ t.scur by omega, hcaptured, ht.released, by rwa [ht.state]⟩

/-- Recording the byte and marking the reset aborts a frame that holds no payload. -/
theorem aborts_setPending (b : Byte) {s : State} (h : s.fHandle = none) : Aborts b s (s.capture b).setPending :=
  ⟨rfl, rfl, rfl, rfl, h, rfl, rfl, rfl, rfl, rfl⟩

/-- EndRelease lets the payload go, if one is held (R138). -/
theorem aborts_endRelease (b : Byte) (s : State) : Aborts b s (endRelease (s.capture b).setPending) := by
  constructor <;> simp

theorem ownership_of_setPending (b : Byte) {s : State} (h : OwnershipOk s) : OwnershipOk (s.capture b).setPending :=
  ownership_of_same s _ h rfl rfl rfl rfl rfl

theorem ruleVerBad_inv {b : Byte} {s t : State} (h : s.Inv) (hi : s.phase = .idle) (ht : ruleVerBad b s = .ok t) :
    State.Inv (if s.state = .preambleWait then t else resetCheck t) := by
  obtain ⟨⟨hst, _⟩, _, rfl⟩ := ruleVerBad_eq_ok.mp ht
  obtain ⟨_, hnone, _⟩ := (h.idle hi).versionWait hst
  exact callEnd_inv_of_aborts h hi (.inl hst) (aborts_setPending b hnone) (ownership_of_setPending b h.ownership)

theorem ruleLenNomem_inv {b : Byte} {s t : State} (h : s.Inv) (hi : s.phase = .idle) (ht : ruleLenNomem b s = .ok t) :
    State.Inv (if s.state = .preambleWait then t else resetCheck t) := by
  obtain ⟨hst, _, _, _, rfl⟩ := ruleLenNomem_eq_ok.mp ht
  obtain ⟨_, hnone, _⟩ := (h.idle hi).lengthWait hst
  refine callEnd_inv_of_aborts (b := b) h hi (.inr (.inl hst)) ?_
    (ownership_of_same s _ h.ownership (by simp) (by simp) (by simp) (by simp [State.queuedHandles])
      (by simp [State.returnedHandles]))
  constructor <;> simp [hnone]

theorem ruleLenBad_inv {b : Byte} {s t : State} (h : s.Inv) (hi : s.phase = .idle) (ht : ruleLenBad b s = .ok t) :
    State.Inv (if s.state = .preambleWait then t else resetCheck t) := by
  obtain ⟨⟨hst, _⟩, _, rfl⟩ := ruleLenBad_eq_ok.mp ht
  obtain ⟨_, hnone, _⟩ := (h.idle hi).lengthWait hst
  exact callEnd_inv_of_aborts (b := b) h hi (.inr (.inl hst)) ⟨rfl, rfl, rfl, rfl, hnone, rfl, rfl, rfl, rfl, rfl⟩
    (ownership_of_same s _ h.ownership rfl rfl rfl rfl rfl)

/-- An abort in EndWait, whatever the byte (R136, R137). -/
theorem endRelease_inv {s : State} (b : Byte) (h : s.Inv) (hi : s.phase = .idle) (hs : s.state = .endWait) :
    State.Inv (if s.state = .preambleWait then endRelease (s.capture b).setPending
      else resetCheck (endRelease (s.capture b).setPending)) :=
  callEnd_inv_of_aborts h hi (.inr (.inr hs)) (aborts_endRelease b s)
    (ownership_of_endRelease (ownership_of_setPending b h.ownership))

/-- Whatever row's rule goes through at a call boundary, the call's first step ends in the invariant (R120). -/
theorem rowRule_inv {i : Instr} {s t : State} (h : s.Inv) (hi : s.phase = .idle) (ht : rowRule i s = .ok t) :
    State.Inv (if s.state = .preambleWait then t else resetCheck t) := by
  have goesOn : t.phase = .idle ∧ t.Inv → State.Inv (if s.state = .preambleWait then t else resetCheck t) :=
    fun ⟨hidle, hinv⟩ => callEnd_inv_of_inv hidle hinv
  cases i <;> simp only [rowRule, reduceCtorEq] at ht
  case preStart => exact goesOn (rulePreStart_inv h hi ht)
  case prePass b => exact goesOn (rulePrePass_inv h hi ht)
  case verOk => exact goesOn (ruleVerOk_inv h hi ht)
  case verBad b => exact ruleVerBad_inv h hi ht
  case title b => exact goesOn (ruleTitle_inv h hi ht)
  case lenZero => exact goesOn (ruleLenZero_inv h hi ht)
  case lenAlloc b => exact goesOn (ruleLenAlloc_inv h hi ht)
  case lenNomem b => exact ruleLenNomem_inv h hi ht
  case lenBad b => exact ruleLenBad_inv h hi ht
  case msgByte b => exact goesOn (ruleMsgByte_inv h hi ht)
  case msgLast b => exact goesOn (ruleMsgLast_inv h hi ht)
  case endOk => exact goesOn (ruleEndOk_inv h hi ht)
  case endFull =>
    obtain ⟨⟨hst, _⟩, _, _, rfl⟩ := ruleEndFull_eq_ok.mp ht
    exact endRelease_inv Config.terminator h hi hst
  case endBad b =>
    obtain ⟨⟨hst, _⟩, _, rfl⟩ := ruleEndBad_eq_ok.mp ht
    exact endRelease_inv b h hi hst

end Sys2Proof.Machine
end

section
/-! The invariant is kept by a call, by a replay step and by every move, and so by every step. -/

namespace Sys2Proof.Machine

/-! ### A call and a replay step -/

/-- The first step of a call, on a byte that has been read, goes through and keeps the invariant. -/
theorem processRead_goes_through {s : State} (h : s.Inv) (hi : s.phase = .idle) (b : Byte) :
    ∃ t, processRead b s = .ok t ∧ t.Inv := by
  obtain ⟨i, t, hd, ht⟩ := row_goes_through h hi b
  exact ⟨_, processRead_of_rule hd ht, rowRule_inv h hi ht⟩

theorem execProcessByte_inv {s t : State} (h : s.Inv) (ht : execProcessByte s = .next t) : t.Inv := by
  unfold execProcessByte at ht
  split at ht
  · rename_i hi
    split at ht
    · cases ht
      exact h
    · rename_i b rest _
      obtain ⟨u, hu, hinv⟩ := processRead_goes_through (withRx_inv rest h) hi b
      rw [hu] at ht
      cases ht
      exact hinv
  · cases ht
    exact refuse_inv _ h

/-- The byte a replay is about to offer was captured, so the step goes through (R140). -/
theorem replayStep_goes_through {i : Nat} {s : State} (h : s.Inv) (hi : s.phase = .replay i) :
    ∃ t, replayStep i s = .ok t := by
  have hr := h.replay i hi
  obtain ⟨hscratch, _, hscur, _⟩ := h.range
  have hlt : i < s.scratch.length := lt_of_lt_of_le hr.inside (hscur.trans hscratch)
  have hcell : s.scratch[i] ∈ s.scratch.take s.scur := List.mem_take_iff_getElem.mpr ⟨i, lt_min hr.inside hlt, rfl⟩
  obtain ⟨b, hb⟩ := Option.isSome_iff_exists.mp (hr.captured _ hcell)
  obtain ⟨u, hu⟩ := enqPassthrough_goes_through b h
  exact ⟨_, replayStep_eq_ok.mpr ⟨b, u, by rw [List.getElem?_eq_getElem hlt, hb], hu, rfl⟩⟩

theorem replayStep_inv {i : Nat} {s t : State} (h : s.Inv) (hi : s.phase = .replay i) (ht : replayStep i s = .ok t) :
    t.Inv := by
  have hr := h.replay i hi
  obtain ⟨b, u, _, hu, rfl⟩ := replayStep_eq_ok.mp ht
  obtain ⟨q, hq, rfl⟩ := enqPassthrough_ok h hu
  have hown : OwnershipOk { s with pq := q } := ownership_of_same s _ h.ownership rfl rfl rfl rfl rfl
  split
  · refine ⟨h.range, hq, h.frames, h.records, fun _ => ?_, fun j hj => ?_, ownership_of_same _ _ hown rfl rfl rfl rfl rfl⟩
    · constructor <;> simp [hr.released]
    · cases hj
  · rename_i hlast
    refine ⟨h.range, hq, h.frames, h.records, fun hj => ?_, fun j hj => ?_, ownership_of_same _ _ hown rfl rfl rfl rfl rfl⟩
    · cases hj
    · cases hj
      exact ⟨hr.pending, lt_of_le_of_ne hr.inside hlast, hr.atLeastTwo, hr.captured, hr.released, hr.aborting⟩

theorem execReplay_inv {s t : State} (h : s.Inv) (ht : execReplay s = .next t) : t.Inv := by
  unfold execReplay at ht
  split at ht
  · cases ht
  · rename_i i hi
    split at ht
    · obtain ⟨u, hu⟩ := replayStep_goes_through h hi
      rw [hu] at ht
      cases ht
      exact replayStep_inv h hi hu
    · cases ht

/-! ### A move and a step -/

theorem applyMove_inv {m : Move} {s t : State} (h : s.Inv) (ht : applyMove m s = .next t) : t.Inv := by
  cases m with
  | issue x =>
    rcases decodeTxn_cases x with hx | hx
    · exact execProcessByte_inv h (by simpa only [applyMove, hx, exec] using ht)
    · exact exec_notFramer_inv hx h ht
  | replay =>
    simp only [applyMove] at ht
    split at ht
    · exact execReplay_inv h ht
    · cases ht
      exact h
  | rx b =>
    cases ht
    exact inv_of_same h (framerSame_refl s) rfl rfl rfl rfl rfl
  | takeTx =>
    cases ht
    exact inv_of_same h (framerSame_refl s) rfl rfl rfl rfl rfl
  | alloc d =>
    cases ht
    exact inv_of_same h (framerSame_refl s) rfl rfl rfl rfl rfl
  | reset =>
    cases ht
    exact refuse_inv _ h

/-- Settles O54, by cases on the move: a call ends in the table of R45 or at the start of a replay, a replay step goes on
or returns to PreambleWait, and no other move writes a framer field. -/
theorem everyStepKeepsTheInvariant : Obligations.EveryStepKeepsTheInvariant := by
  unfold Obligations.EveryStepKeepsTheInvariant
  intro s t h ht
  unfold step at ht
  split at ht
  · exact applyMove_inv (nextMove_inv h) ht
  · cases ht

end Sys2Proof.Machine
end

section
/-! What a step can do to the fields that more than one agent writes (R41): the queues, the byte source and sink, and the
allocator's books. -/

namespace Sys2Proof.Machine

/-! ### One end of a queue -/

/-- The producer's end: the queue is as before or gains an item, so the consumer's end stays (R101). -/
theorem producer_end {α : Type} {q q' : Queue α} (h : q' = q ∨ ∃ v, q' = q.withItem v) :
    q'.rd = q.rd ∧ q.fill ≤ q'.fill ∧ CellsSameBut q q' q.wr := by
  rcases h with rfl | ⟨v, rfl⟩
  · exact ⟨rfl, le_rfl, fun _ _ => rfl⟩
  · exact ⟨rfl, Nat.le_succ _, fun _ hk => List.getElem?_set_ne hk.symm⟩

/-- The consumer's end: the queue is as before or loses its head, so the producer's end stays (R102). -/
theorem consumer_end {α : Type} {q q' : Queue α} (h : q' = q ∨ q' = q.withoutHead) :
    q'.wr = q.wr ∧ q'.fill ≤ q.fill ∧ CellsSameBut q q' q.rd := by
  rcases h with rfl | rfl
  · exact ⟨rfl, le_rfl, fun _ _ => rfl⟩
  · exact ⟨rfl, Nat.sub_le _ _, fun _ hk => List.getElem?_set_ne hk.symm⟩

/-! ### The allocator's books -/

/-- What one step can do to `live` and `freed`, the framer holding `held` before it: nothing, an allocation of a handle
in neither set (R129), or a release of a handle that is live or held by the framer (R138, R164). -/
inductive BookStep (live freed : List Handle) (held : Option Handle) : List Handle → List Handle → Prop where
  | keep : BookStep live freed held live freed
  | alloc (k : Handle) (notLive : k ∉ live) (notFreed : k ∉ freed) :
      BookStep live freed held (insertHandle k live) freed
  | free (k : Handle) (known : k ∈ live ∨ held = some k) :
      BookStep live freed held (removeHandle k live) (insertHandle k freed)

@[simp] theorem bookStep_keep (live freed : List Handle) (held : Option Handle) : BookStep live freed held live freed :=
  .keep

/-- A freed handle stays freed and is not allocated again (R36, R166). -/
theorem BookStep.freed_stay_freed {live freed live' freed' : List Handle} {held : Option Handle}
    (h : BookStep live freed held live' freed') :
    (∀ k ∈ freed, k ∈ freed') ∧ (∀ k ∈ live, k ∈ live' ∨ k ∈ freed') ∧ (∀ k ∈ live', k ∈ live ∨ k ∉ freed) ∧
      ∀ k ∈ freed', k ∈ freed ∨ k ∈ live ∨ held = some k := by
  cases h with
  | keep => exact ⟨fun _ h => h, fun _ h => .inl h, fun _ h => .inl h, fun _ h => .inl h⟩
  | alloc k _ notFreed =>
    refine ⟨fun _ h => h, fun _ h => .inl (mem_insertHandle.mpr (.inr h)), fun x hx => ?_, fun _ h => .inl h⟩
    rcases mem_insertHandle.mp hx with rfl | hx
    · exact .inr notFreed
    · exact .inl hx
  | free k known =>
    refine ⟨fun _ h => mem_insertHandle.mpr (.inr h), fun x hx => ?_, fun _ h => .inl (mem_removeHandle.mp h).1,
      fun x hx => ?_⟩
    · by_cases hxk : x = k
      · exact .inr (mem_insertHandle.mpr (.inl hxk))
      · exact .inl (mem_removeHandle.mpr ⟨hx, hxk⟩)
    · rcases mem_insertHandle.mp hx with rfl | hx
      · exact .inr known
      · exact .inl hx

/-- EndRelease frees the framer's handle, or writes nothing in the books (R138). -/
theorem endRelease_bookStep (s : State) :
    BookStep s.live s.freed s.fHandle (endRelease s).live (endRelease s).freed := by
  unfold endRelease State.dropPayload
  split
  · split
    · rename_i k hk
      exact .free k (.inr hk)
    · exact .keep
  · exact .keep

/-- MessageWait's pending clause has the body of EndRelease (R134, R138). -/
theorem releasePayloadIfPending_eq (s : State) : releasePayloadIfPending s = endRelease s := rfl

/-- RELEASE frees a live handle, or writes nothing in the books (R164). -/
theorem releaseHandle_bookStep {k : Handle} {s t : State} (h : releaseHandle k s = .ok t) :
    BookStep s.live s.freed s.fHandle t.live t.freed := by
  rcases releaseHandle_eq_ok.mp h with ⟨hlive, _, rfl⟩ | ⟨_, _, rfl⟩
  · exact .free k (.inl hlive)
  · exact .keep

/-! ### The framer's steps -/

/-- What a step of the framer can do to the fields others write too (R41): it may put an item into a queue and keep the
books, and it leaves the byte source, once the byte is read, and the byte sink. -/
structure FramerStep (s t : State) : Prop where
  rx : t.rx = s.rx
  tx : t.tx = s.tx
  pq : t.pq = s.pq ∨ ∃ b, t.pq = s.pq.withItem b
  fq : t.fq = s.fq ∨ ∃ fr, t.fq = s.fq.withItem fr
  books : BookStep s.live s.freed s.fHandle t.live t.freed

/-- The fields that more than one agent writes hold the same in two states (R41). -/
abbrev SharedSame (s t : State) : Prop :=
  t.rx = s.rx ∧ t.tx = s.tx ∧ t.pq = s.pq ∧ t.fq = s.fq ∧ t.live = s.live ∧ t.freed = s.freed

theorem sharedSame_refl (s : State) : SharedSame s s := ⟨rfl, rfl, rfl, rfl, rfl, rfl⟩

/-- A step that writes only the framer's own fields, and the model's. -/
theorem framerStep_of_same {s t : State} (h : SharedSame s t) : FramerStep s t := by
  obtain ⟨hrx, htx, hpq, hfq, hl, hd⟩ := h
  exact ⟨hrx, htx, .inl hpq, .inl hfq, by simp [hl, hd]⟩

theorem FramerStep.recordFault {s t : State} (h : FramerStep s t) (r : FaultReason) :
    FramerStep s (t.recordFault r) :=
  ⟨h.rx, h.tx, h.pq, h.fq, h.books⟩

theorem FramerStep.resetCheck {s t : State} (h : FramerStep s t) : FramerStep s (resetCheck t) := by
  obtain ⟨hrx, htx, hpq, hfq, hbooks⟩ := h
  constructor <;> simpa

theorem enqPassthrough_framerStep {b : Byte} {s t : State} (h : enqPassthrough b s = .ok t) : FramerStep s t := by
  rcases enqPassthrough_eq_ok.mp h with ⟨_, _, rfl⟩ | ⟨_, rfl⟩
  · exact ⟨rfl, rfl, .inr ⟨b, rfl⟩, .inl rfl, .keep⟩
  · exact framerStep_of_same (sharedSame_refl _)

/-- EndRelease in a state that differs from `s` in fields that only the framer writes. -/
theorem endRelease_framerStep {s u : State} (h : SharedSame s u) (hh : u.fHandle = s.fHandle) :
    FramerStep s (endRelease u) := by
  obtain ⟨hrx, htx, hpq, hfq, hl, hd⟩ := h
  have hbooks := endRelease_bookStep u
  rw [hl, hd, hh] at hbooks
  exact ⟨by simp [hrx], by simp [htx], .inl (by simp [hpq]), .inl (by simp [hfq]), hbooks⟩

/-- A row's rule that goes through: PRE_PASS and END_OK enqueue, LEN_ALLOC allocates, the payload's release frees, and no
other row writes a shared field. -/
theorem rowRule_framerStep {i : Instr} {s t : State} (h : rowRule i s = .ok t) : FramerStep s t := by
  cases i <;> simp only [rowRule, reduceCtorEq] at h
  case preStart =>
    obtain ⟨_, _, rfl⟩ := rulePreStart_eq_ok.mp h
    exact framerStep_of_same (sharedSame_refl s)
  case prePass b => exact enqPassthrough_framerStep (rulePrePass_eq_ok.mp h).2
  case verOk =>
    obtain ⟨_, _, rfl⟩ := ruleVerOk_eq_ok.mp h
    exact framerStep_of_same (sharedSame_refl s)
  case verBad b =>
    obtain ⟨_, _, rfl⟩ := ruleVerBad_eq_ok.mp h
    exact framerStep_of_same (sharedSame_refl s)
  case title b =>
    obtain ⟨_, _, rfl⟩ := ruleTitle_eq_ok.mp h
    exact framerStep_of_same (sharedSame_refl s)
  case lenZero =>
    obtain ⟨_, _, rfl⟩ := ruleLenZero_eq_ok.mp h
    exact framerStep_of_same (sharedSame_refl s)
  case lenAlloc b =>
    obtain ⟨_, _, _, k, _, rfl⟩ := ruleLenAlloc_eq_ok.mp h
    obtain ⟨hlive, hfreed⟩ := freshen_fresh k s
    exact ⟨by simp, by simp, .inl (by simp), .inl (by simp), by simpa using .alloc _ hlive hfreed⟩
  case lenNomem b =>
    obtain ⟨_, _, _, _, rfl⟩ := ruleLenNomem_eq_ok.mp h
    exact framerStep_of_same (by simp [SharedSame])
  case lenBad b =>
    obtain ⟨_, _, rfl⟩ := ruleLenBad_eq_ok.mp h
    exact framerStep_of_same (sharedSame_refl s)
  case msgByte b =>
    obtain ⟨_, u, hu, rfl⟩ := ruleMsgByte_eq_ok.mp h
    obtain ⟨_, _, rfl⟩ := storePayloadByte_eq_ok.mp hu
    exact endRelease_framerStep (sharedSame_refl s) rfl
  case msgLast b =>
    obtain ⟨_, u, hu, rfl⟩ := ruleMsgLast_eq_ok.mp h
    obtain ⟨_, _, rfl⟩ := storePayloadByte_eq_ok.mp hu
    exact endRelease_framerStep (sharedSame_refl s) rfl
  case endOk =>
    obtain ⟨_, _, _, fr, _, rfl⟩ := ruleEndOk_eq_ok.mp h
    exact ⟨rfl, rfl, .inl rfl, .inr ⟨fr, rfl⟩, .keep⟩
  case endFull =>
    obtain ⟨_, _, _, rfl⟩ := ruleEndFull_eq_ok.mp h
    exact endRelease_framerStep (sharedSame_refl s) rfl
  case endBad b =>
    obtain ⟨_, _, rfl⟩ := ruleEndBad_eq_ok.mp h
    exact endRelease_framerStep (sharedSame_refl s) rfl

/-- A row that raises has written the framer's own fields only. -/
theorem rowRule_raised_framerStep {i : Instr} {s t : State} {r : FaultReason} (h : rowRule i s = .raised r t) :
    FramerStep s t := by
  apply framerStep_of_same
  rcases rowRule_eq_raised h with ⟨_, ht | ht⟩ | ⟨_, ht⟩ <;> rw [ht] <;> exact sharedSame_refl s

theorem outcome_framerStep {x : Res State} {s t : State} (hok : ∀ u, x = .ok u → FramerStep s u)
    (hraised : ∀ r u, x = .raised r u → FramerStep s u) (ht : x.outcome = .next t) : FramerStep s t := by
  rcases outcome_eq_next.mp ht with h | ⟨r, u, h, rfl⟩
  · exact hok t h
  · exact (hraised r u h).recordFault r

/-- A dispatch row as an instruction of its own. -/
theorem row_framerStep {i : Instr} {s t : State} (h : (rowRule i s).outcome = .next t) : FramerStep s t :=
  outcome_framerStep (fun _ => rowRule_framerStep) (fun _ _ => rowRule_raised_framerStep) h

/-- A call's first step, once its byte is read. -/
theorem processRead_framerStep {b : Byte} {s t : State} (h : (processRead b s).outcome = .next t) : FramerStep s t := by
  rcases processRead_cases (b := b) (s := s) with
    ⟨i, u, _, hu, hp⟩ | ⟨i, r, u, _, hu, hp⟩ | ⟨hp, _⟩ | ⟨f, hp⟩ | ⟨r, hp⟩ <;> rw [hp] at h <;> cases h
  · split
    · exact rowRule_framerStep hu
    · exact (rowRule_framerStep hu).resetCheck
  · exact (rowRule_raised_framerStep hu).recordFault r
  · exact framerStep_of_same (sharedSame_refl s)

theorem execReplay_framerStep {s t : State} (h : execReplay s = .next t) : FramerStep s t := by
  unfold execReplay at h
  split at h
  · cases h
  · split at h
    · refine outcome_framerStep (fun u hu => ?_) (fun r u hu => ?_) h
      · obtain ⟨b, v, _, hv, rfl⟩ := replayStep_eq_ok.mp hu
        have ⟨hrx, htx, hpq, hfq, hbooks⟩ := enqPassthrough_framerStep hv
        split <;> exact ⟨hrx, htx, hpq, hfq, hbooks⟩
      · obtain ⟨_, _, rfl⟩ := replayStep_eq_raised hu
        exact framerStep_of_same (sharedSame_refl _)
    · cases h

/-- PROCESS_BYTE takes at most the head of `rx`, and goes on as a step of the framer (R37, R120). -/
theorem execProcessByte_framerStep {s t : State} (h : execProcessByte s = .next t) :
    ∃ l, (l = s.rx ∨ l = s.rx.tail) ∧ FramerStep (s.withRx l) t := by
  unfold execProcessByte at h
  split at h
  · split at h
    · cases h
      exact ⟨_, .inl rfl, framerStep_of_same (sharedSame_refl _)⟩
    · rename_i b rest hrx
      exact ⟨rest, .inr (by rw [hrx, List.tail_cons]), processRead_framerStep h⟩
  · cases h
    exact ⟨_, .inl rfl, framerStep_of_same (sharedSame_refl s)⟩

/-- The framer's instructions are its call, its two internal steps, and the rows, whose meaning is their rule. -/
theorem exec_framer_cases {i : Instr} (s : State) (hi : notFramer i = false) :
    i = .processByte ∨ i = .replay ∨ i = .finish ∨ exec i s = (rowRule i s).outcome := by
  cases i <;> simp only [notFramer, reduceCtorEq] at hi
  case processByte => exact .inl rfl
  case replay => exact .inr (.inl rfl)
  case finish => exact .inr (.inr (.inl rfl))
  all_goals exact .inr (.inr (.inr rfl))

/-- What an instruction of the framer does to the fields others write too: PROCESS_BYTE leaves the bytes `l` in `rx`, and
the rest is a step of the framer (R41). -/
theorem exec_framerStep {i : Instr} {s t : State} (hi : notFramer i = false) (h : exec i s = .next t) :
    ∃ l, (l = s.rx ∨ i = .processByte ∧ l = s.rx.tail) ∧ FramerStep (s.withRx l) t := by
  rcases exec_framer_cases s hi with rfl | rfl | rfl | hrow
  · obtain ⟨l, hl, hs⟩ := execProcessByte_framerStep h
    exact ⟨l, hl.imp_right fun htail => ⟨rfl, htail⟩, hs⟩
  · exact ⟨s.rx, .inl rfl, execReplay_framerStep h⟩
  · cases h
    exact ⟨s.rx, .inl rfl, framerStep_of_same (sharedSame_refl s)⟩
  · exact ⟨s.rx, .inl rfl, row_framerStep (hrow ▸ h)⟩

/-! ### The other agents' commands -/

/-- What a command that is not the framer's can do (R41): a dequeue by the consumer takes the head of its queue,
SEND_FRAME adds to the end of `tx`, and RELEASE keeps the books. -/
structure CommandStep (i : Instr) (s t : State) : Prop where
  framer : FramerSame s t
  rx : t.rx = s.rx
  tx : t.tx = s.tx ∨ ∃ fr more, i = .sendFrame fr ∧ t.tx = s.tx ++ more
  pq : t.pq = s.pq ∨ i = .readPassthrough .pc ∧ t.pq = s.pq.withoutHead
  fq : t.fq = s.fq ∨ i = .dequeueFrame .fc ∧ t.fq = s.fq.withoutHead
  books : BookStep s.live s.freed s.fHandle t.live t.freed
  owner : (∀ fr, i ≠ .release fr) → t.live = s.live ∧ t.freed = s.freed

theorem commandStep_refl (i : Instr) (s : State) : CommandStep i s s :=
  ⟨framerSame_refl s, rfl, .inl rfl, .inl rfl, .inl rfl, .keep, fun _ => ⟨rfl, rfl⟩⟩

/-- The marks and the results returned are no fields of R41. -/
theorem CommandStep.of_marks {i : Instr} {s t : State} (h : CommandStep i s t) (l : List FaultReason) (b : Bool)
    (r : List Response) : CommandStep i s { t with faults := l, refused := b, results := r } :=
  ⟨h.framer, h.rx, h.tx, h.pq, h.fq, h.books, h.owner⟩

theorem outcome_commandStep {i : Instr} {x : Res State} {s t : State} (hok : ∀ u, x = .ok u → CommandStep i s u)
    (hraised : ∀ r u, x = .raised r u → u = s) (ht : x.outcome = .next t) : CommandStep i s t := by
  rcases outcome_eq_next.mp ht with h | ⟨r, u, h, rfl⟩
  · exact hok t h
  · rw [hraised r u h]
    exact (commandStep_refl i s).of_marks _ _ _

theorem takeFrame_commandStep {s t : State} (h : takeFrame .fc s = .ok t) : CommandStep (.dequeueFrame .fc) s t := by
  rcases takeFrame_eq_ok.mp h with ⟨fr, _, _, rfl⟩ | ⟨_, rfl⟩
  · exact ⟨framerSame_refl s, rfl, .inl rfl, .inl rfl, .inr ⟨rfl, rfl⟩, .keep, fun _ => ⟨rfl, rfl⟩⟩
  · exact (commandStep_refl _ s).of_marks _ _ _

theorem takePassthrough_commandStep {s t : State} (h : takePassthrough .pc s = .ok t) :
    CommandStep (.readPassthrough .pc) s t := by
  rcases takePassthrough_eq_ok.mp h with ⟨b, _, _, rfl⟩ | ⟨_, rfl⟩
  · exact ⟨framerSame_refl s, rfl, .inl rfl, .inr ⟨rfl, rfl⟩, .inl rfl, .keep, fun _ => ⟨rfl, rfl⟩⟩
  · exact (commandStep_refl _ s).of_marks _ _ _

theorem releaseHandle_commandStep {fr : FrameRec} {k : Handle} {s t : State} (h : releaseHandle k s = .ok t) :
    CommandStep (.release fr) s t := by
  have hbooks := releaseHandle_bookStep h
  rcases releaseHandle_eq_ok.mp h with ⟨_, _, rfl⟩ | ⟨_, _, rfl⟩
  · exact ⟨framerSame_refl s, rfl, .inl rfl, .inl rfl, .inl rfl, hbooks, fun hi => absurd rfl (hi fr)⟩
  · exact commandStep_refl _ _

/-- What a command that is not the framer's does to the fields of R41. -/
theorem exec_commandStep {i : Instr} {s t : State} (hi : notFramer i = true) (h : exec i s = .next t) :
    CommandStep i s t := by
  have marked : ∀ (i : Instr) l b r, CommandStep i s { s with faults := l, refused := b, results := r } :=
    fun i => (commandStep_refl i s).of_marks
  cases i <;> simp only [notFramer, reduceCtorEq] at hi
  case frameAvailable a =>
    cases h
    exact marked _ _ _ _
  case passthroughAvailable a =>
    cases h
    exact marked _ _ _ _
  case reserved cmd =>
    cases h
    exact marked _ _ _ _
  case dequeueFrame a =>
    simp only [exec, execDequeueFrame] at h
    split at h
    · rename_i ha
      subst ha
      refine outcome_commandStep (fun u => takeFrame_commandStep) (fun r u hu => ?_) h
      obtain ⟨_, _, _, hu⟩ := takeFrame_eq_raised hu
      exact hu
    · cases h
      exact marked _ _ _ _
  case readPassthrough a =>
    simp only [exec, execReadPassthrough] at h
    split at h
    · rename_i ha
      subst ha
      refine outcome_commandStep (fun u => takePassthrough_commandStep) (fun r u hu => ?_) h
      obtain ⟨_, _, _, hu⟩ := takePassthrough_eq_raised hu
      exact hu
    · cases h
      exact marked _ _ _ _
  case sendFrame fr =>
    simp only [exec, execSendFrame] at h
    split at h <;> cases h
    · exact ⟨framerSame_refl s, rfl, .inr ⟨fr, _, rfl, rfl⟩, .inl rfl, .inl rfl, .keep, fun _ => ⟨rfl, rfl⟩⟩
    · exact marked _ _ _ _
  case release fr =>
    simp only [exec, execRelease] at h
    split at h
    · cases h
      exact commandStep_refl _ _
    · exact outcome_commandStep (fun u => releaseHandle_commandStep) (fun r u hu => (releaseHandle_eq_raised.mp hu).1) h

end Sys2Proof.Machine
end

section
/-! Who writes which field (O20), the allocator's books in every step (O49), and the moves of the schedule (O8, O9). -/

namespace Sys2Proof.Machine

/-! ### One writer for each field -/

/-- HOST's moves write the end of `rx` and the front of `tx`, and no other field of R41. -/
theorem hostMove_frame {m : Move} {s t : State} (hm : ∀ x, m ≠ .issue x) (hr : m ≠ .replay)
    (h : applyMove m s = .next t) :
    FramerSame s t ∧ t.pq = s.pq ∧ t.fq = s.fq ∧ t.live = s.live ∧ t.freed = s.freed ∧
      (∃ more, t.rx = s.rx ++ more) ∧ (t.tx = s.tx ∨ t.tx = s.tx.tail) := by
  have same : ∃ more, s.rx = s.rx ++ more := ⟨[], (List.append_nil _).symm⟩
  cases m with
  | issue x => exact absurd rfl (hm x)
  | replay => exact absurd rfl hr
  | rx b =>
    cases h
    exact ⟨framerSame_refl s, rfl, rfl, rfl, rfl, ⟨[b], rfl⟩, .inl rfl⟩
  | takeTx =>
    cases h
    exact ⟨framerSame_refl s, rfl, rfl, rfl, rfl, same, .inr List.drop_one⟩
  | alloc d =>
    cases h
    exact ⟨framerSame_refl s, rfl, rfl, rfl, rfl, same, .inl rfl⟩
  | reset =>
    cases h
    exact ⟨framerSame_refl s, rfl, rfl, rfl, rfl, same, .inl rfl⟩

/-- Settles O20, by the two kinds of instruction: the framer's only add to a queue, and the other commands write no framer
field and only take from a queue. -/
theorem fieldsHaveOneWriter : Obligations.FieldsHaveOneWriter := by
  unfold Obligations.FieldsHaveOneWriter
  refine ⟨fun i s t h => ?_, fun m s t hm hr h => hostMove_frame hm hr h⟩
  cases hi : notFramer i with
  | false =>
    obtain ⟨l, hl, hrx, htx, hpq, hfq, _⟩ := exec_framerStep hi h
    exact ⟨nofun, fun _ => producer_end hfq, fun _ => producer_end hpq, nofun, nofun, hrx ▸ hl, .inl htx, nofun⟩
  | true =>
    obtain ⟨hframer, hrx, htx, hpq, hfq, _, howner⟩ := exec_commandStep hi h
    obtain ⟨hpwr, hpfill, hpcell⟩ := consumer_end (hpq.imp_right And.right)
    obtain ⟨hfwr, hffill, hfcell⟩ := consumer_end (hfq.imp_right And.right)
    have fqSame (hne : i ≠ .dequeueFrame .fc) : t.fq = s.fq := hfq.resolve_right fun hd => hne hd.1
    have pqSame (hne : i ≠ .readPassthrough .pc) : t.pq = s.pq := hpq.resolve_right fun hd => hne hd.1
    exact ⟨fun _ => ⟨hframer, hpwr, hfwr, hpfill, hffill, hpcell, hfcell⟩,
      fun hne => producer_end (.inl (fqSame hne)), fun hne => producer_end (.inl (pqSame hne)), fun _ => fqSame,
      fun _ => pqSame, .inl hrx, htx, fun _ => howner⟩

/-! ### The allocator's books in every step -/

theorem exec_bookStep {i : Instr} {s t : State} (h : exec i s = .next t) :
    BookStep s.live s.freed s.fHandle t.live t.freed := by
  cases hi : notFramer i with
  | true => exact (exec_commandStep hi h).books
  | false =>
    obtain ⟨_, _, hs⟩ := exec_framerStep hi h
    exact hs.books

theorem applyMove_bookStep {m : Move} {s t : State} (h : applyMove m s = .next t) :
    BookStep s.live s.freed s.fHandle t.live t.freed := by
  cases m with
  | issue x => exact exec_bookStep (i := decodeTxn x) h
  | replay =>
    simp only [applyMove] at h
    split at h
    · exact exec_bookStep h
    · cases h
      exact .keep
  | _ =>
    cases h
    exact .keep

/-- Settles O49: a step makes one move, and a move keeps the books, allocates a handle in neither set, or frees one that is
live or held by the framer. -/
theorem freedHandlesStayFreed : Obligations.FreedHandlesStayFreed := by
  unfold Obligations.FreedHandlesStayFreed
  intro s t h
  unfold step at h
  split at h
  · have hbooks := applyMove_bookStep h
    simp only [nextMove_live, nextMove_freed, nextMove_fHandle] at hbooks
    exact hbooks.freed_stay_freed
  · cases h

/-! ### The moves of the schedule -/

theorem step_of_sched_cons {s : State} {m : Move} {rest : List Move} (h : s.faults = []) (hs : s.sched = m :: rest) :
    step s = applyMove m { s with sched := rest } := by
  simp [step, State.nextMove, h, hs]

theorem step_of_sched_nil {s : State} (h : s.faults = []) (hs : s.sched = []) :
    step s = applyMove (Config.freeMove s.ticks) { s with ticks := s.ticks + 1 } := by
  simp [step, State.nextMove, h, hs]

/-- Settles O8: each move of HOST at the head of the schedule, as the step makes it. -/
theorem hostMovesActOutsideTheBlock : Obligations.HostMovesActOutsideTheBlock := by
  unfold Obligations.HostMovesActOutsideTheBlock
  refine fun s rest h => ⟨fun b hs => ?_, fun b out hs htx => ?_, fun hs htx => ?_, fun d hs => ?_, fun hs => ?_⟩ <;>
    rw [step_of_sched_cons h hs]
  · rfl
  · simp [applyMove, State.hostTakeTx, htx]
  · simp [applyMove, State.hostTakeTx, htx]
  · rfl
  · rfl

/-- Settles O9: the two cases of the schedule, a head and none. -/
theorem anyAgentMayMoveNext : Obligations.AnyAgentMayMoveNext :=
  ⟨fun _ _ _ => step_of_sched_cons, fun _ => step_of_sched_nil⟩

end Sys2Proof.Machine
end

section
/-! The captured bytes (O41): what a call records in the scratch buffer and what it passes through. -/

namespace Sys2Proof.Machine

/-- What a call outside PreambleWait does with its byte: it stands in the next scratch cell, and `P` is left alone
(R122). -/
structure Captures (b : Byte) (s t : State) : Prop where
  room : s.scur < s.scratch.length
  scratch : t.scratch = s.scratch.set s.scur (some b)
  scur : t.scur = s.scur + 1
  pq : t.pq = s.pq

theorem Captures.endRelease {b : Byte} {s t : State} (h : Captures b s t) : Captures b s (endRelease t) :=
  ⟨h.room, by simp [h.scratch], by simp [h.scur], by simp [h.pq]⟩

theorem Captures.resetCheck {b : Byte} {s t : State} (h : Captures b s t) : Captures b s (resetCheck t) :=
  ⟨h.room, by simp [h.scratch], by simp [h.scur], by simp [h.pq]⟩

/-- The captured bytes grow at their end (R24). -/
theorem Captures.capturedBytes {b : Byte} {s t : State} (h : Captures b s t) :
    t.capturedBytes = s.capturedBytes ++ [b] := by
  simp [State.capturedBytes, h.scratch, h.scur, take_set_succ _ _ _ h.room]

theorem storePayloadByte_captures {b : Byte} {s t : State} (h : storePayloadByte b s = .ok t) : Captures b s t := by
  obtain ⟨hroom, _, rfl⟩ := storePayloadByte_eq_ok.mp h
  exact ⟨hroom, rfl, rfl, rfl⟩

/-- Outside PreambleWait the selected row records the byte that was read, whichever row it is (R122). -/
theorem rowRule_captures {i : Instr} {b : Byte} {c : RowCond} {s t : State} (hs : s.state ≠ .preambleWait)
    (hd : decodeRow s.state b c = .ok i) (h : rowRule i s = .ok t) : Captures b s t := by
  unfold decodeRow at hd
  cases hst : s.state <;> simp only [hst] at hd
  case preambleWait => exact absurd hst hs
  case versionWait =>
    split_ifs at hd with hb <;> cases hd
    · obtain ⟨_, hroom, rfl⟩ := ruleVerOk_eq_ok.mp h
      exact hb ▸ ⟨hroom, rfl, rfl, rfl⟩
    · obtain ⟨_, hroom, rfl⟩ := ruleVerBad_eq_ok.mp h
      exact ⟨hroom, rfl, rfl, rfl⟩
  case titleWait =>
    cases hd
    obtain ⟨_, hroom, rfl⟩ := ruleTitle_eq_ok.mp h
    exact ⟨hroom, rfl, rfl, rfl⟩
  case lengthWait =>
    split_ifs at hd with hb <;> cases hd
    · obtain ⟨_, hroom, rfl⟩ := ruleLenZero_eq_ok.mp h
      exact hb ▸ ⟨hroom, rfl, rfl, rfl⟩
    · obtain ⟨_, _, hroom, k, _, rfl⟩ := ruleLenAlloc_eq_ok.mp h
      exact ⟨hroom, by simp, by simp, by simp⟩
    · obtain ⟨_, _, hroom, _, rfl⟩ := ruleLenNomem_eq_ok.mp h
      exact ⟨hroom, by simp, by simp, by simp⟩
    · obtain ⟨_, hroom, rfl⟩ := ruleLenBad_eq_ok.mp h
      exact ⟨hroom, rfl, rfl, rfl⟩
  case messageWait =>
    split_ifs at hd <;> cases hd
    · obtain ⟨_, u, hu, rfl⟩ := ruleMsgByte_eq_ok.mp h
      exact (storePayloadByte_captures hu).endRelease
    · obtain ⟨_, u, hu, rfl⟩ := ruleMsgLast_eq_ok.mp h
      have ⟨hroom, hscratch, hscur, hpq⟩ := storePayloadByte_captures hu
      exact Captures.endRelease ⟨hroom, hscratch, hscur, hpq⟩
  case endWait =>
    split_ifs at hd with hb <;> cases hd
    · obtain ⟨_, hroom, _, fr, _, rfl⟩ := ruleEndOk_eq_ok.mp h
      exact hb ▸ ⟨hroom, rfl, rfl, rfl⟩
    · obtain ⟨_, hroom, _, rfl⟩ := ruleEndFull_eq_ok.mp h
      exact hb ▸ Captures.endRelease ⟨hroom, rfl, rfl, rfl⟩
    · obtain ⟨_, hroom, rfl⟩ := ruleEndBad_eq_ok.mp h
      exact Captures.endRelease ⟨hroom, rfl, rfl, rfl⟩
  case unused6 => cases hd
  case unused7 => cases hd

/-- A call at a call boundary ends its first step in the selected row's rule, then ResetCheck (R120). -/
theorem processByte_row {s t : State} {b : Byte} {rest : List Byte} (h : s.Inv) (hi : s.phase = .idle)
    (hrx : s.rx = b :: rest) (ht : exec .processByte s = .next t) :
    ∃ i u, decodeRow s.state b s.rowCond = .ok i ∧ rowRule i (s.withRx rest) = .ok u ∧
      t = if s.state = .preambleWait then u else resetCheck u := by
  obtain ⟨i, u, hd, hu⟩ := row_goes_through (withRx_inv rest h) hi b
  rw [processByte_read hi hrx, processRead_of_rule hd hu] at ht
  cases ht
  exact ⟨i, u, hd, hu, rfl⟩

/-- Settles O41: outside PreambleWait every row records its byte; in PreambleWait a preamble goes to the first scratch
cell, and any other byte to `P`, where it is the newest item, or is dropped. -/
theorem bytesAreCapturedInOrder : Obligations.BytesAreCapturedInOrder := by
  unfold Obligations.BytesAreCapturedInOrder
  intro s t b rest h hi hrx ht
  obtain ⟨i, u, hd, hu, rfl⟩ := processByte_row h hi hrx ht
  refine ⟨fun hs => ?_, fun hs hb => ?_, fun hs hb => ?_⟩
  · have hc := rowRule_captures (s := s.withRx rest) hs hd hu
    rw [if_neg hs]
    exact ⟨hc.resetCheck.capturedBytes, hc.resetCheck.pq⟩
  · rw [if_pos hs]
    simp only [decodeRow, hs, if_pos (show b = Config.preamble from hb), Except.ok.injEq] at hd
    subst hd
    obtain ⟨_, hpos, rfl⟩ := rulePreStart_eq_ok.mp hu
    have hhead : (s.scratch.set 0 (some Config.preamble)).take 1 = [some Config.preamble] := take_set_succ _ 0 _ hpos
    exact ⟨congrArg (List.filterMap id) hhead, rfl⟩
  · rw [if_pos hs]
    simp only [decodeRow, hs, if_neg (show b ≠ Config.preamble from hb), Except.ok.injEq] at hd
    subst hd
    obtain ⟨_, henq⟩ := rulePrePass_eq_ok.mp hu
    rcases enqPassthrough_eq_ok.mp henq with ⟨hroom, _, rfl⟩ | ⟨hfull, rfl⟩
    · exact ⟨rfl, rfl, (items_enq b h.passthrough hroom).trans (if_pos hroom).symm⟩
    · exact ⟨rfl, rfl, (if_neg hfull).symm⟩

end Sys2Proof.Machine
end

section
/-! The sizes of the arrays (O57): the framer writes `scratch` and `pbuf` cell by cell, both ends of a queue write one
cell, and no other step writes an array (R57, R190). -/

namespace Sys2Proof.Machine

/-! ### The framer's two buffers -/

/-- `scratch` and `pbuf` have as many elements in both states. -/
structure BufferSizesKept (s t : State) : Prop where
  scratch : t.scratch.length = s.scratch.length
  pbuf : t.pbuf.length = s.pbuf.length

theorem bufferSizesKept_refl (s : State) : BufferSizesKept s s := ⟨rfl, rfl⟩

/-- Record writes one scratch cell (R122). -/
theorem bufferSizesKept_capture (b : Byte) (s : State) : BufferSizesKept s (s.capture b) :=
  ⟨List.length_set, rfl⟩

theorem BufferSizesKept.endRelease {s t : State} (h : BufferSizesKept s t) : BufferSizesKept s (endRelease t) :=
  ⟨by simp [h.scratch], by simp [h.pbuf]⟩

theorem BufferSizesKept.resetCheck {s t : State} (h : BufferSizesKept s t) : BufferSizesKept s (resetCheck t) :=
  ⟨by simp [h.scratch], by simp [h.pbuf]⟩

/-- The payload write sets one cell of each buffer (R132, R133). -/
theorem storePayloadByte_bufferSizesKept {b : Byte} {s t : State} (h : storePayloadByte b s = .ok t) :
    BufferSizesKept s t := by
  obtain ⟨_, _, rfl⟩ := storePayloadByte_eq_ok.mp h
  exact ⟨List.length_set, List.length_set⟩

theorem enqPassthrough_bufferSizesKept {b : Byte} {s t : State} (h : enqPassthrough b s = .ok t) :
    BufferSizesKept s t := by
  rcases enqPassthrough_eq_ok.mp h with ⟨_, _, rfl⟩ | ⟨_, rfl⟩ <;> exact ⟨rfl, rfl⟩

/-- A row's rule that goes through: PRE_PASS writes neither buffer, LEN_ALLOC clears cells of `pbuf` beside its capture,
MSG_BYTE and MSG_LAST store a payload byte, and every other row captures one byte. -/
theorem rowRule_bufferSizesKept {i : Instr} {s t : State} (h : rowRule i s = .ok t) : BufferSizesKept s t := by
  cases i <;> simp only [rowRule, reduceCtorEq] at h
  case prePass b => exact enqPassthrough_bufferSizesKept (rulePrePass_eq_ok.mp h).2
  case lenAlloc b =>
    obtain ⟨_, _, _, k, _, rfl⟩ := ruleLenAlloc_eq_ok.mp h
    exact ⟨by simp, by simp⟩
  case lenNomem b =>
    obtain ⟨_, _, _, _, rfl⟩ := ruleLenNomem_eq_ok.mp h
    exact ⟨by simp, by simp⟩
  case msgByte b =>
    obtain ⟨_, u, hu, rfl⟩ := ruleMsgByte_eq_ok.mp h
    exact (storePayloadByte_bufferSizesKept hu).endRelease
  case msgLast b =>
    obtain ⟨_, u, hu, rfl⟩ := ruleMsgLast_eq_ok.mp h
    have ⟨hscratch, hpbuf⟩ := storePayloadByte_bufferSizesKept hu
    exact BufferSizesKept.endRelease ⟨hscratch, hpbuf⟩
  case endOk =>
    obtain ⟨_, _, _, fr, _, rfl⟩ := ruleEndOk_eq_ok.mp h
    exact ⟨List.length_set, rfl⟩
  case endFull =>
    obtain ⟨_, _, _, rfl⟩ := ruleEndFull_eq_ok.mp h
    exact BufferSizesKept.endRelease ⟨List.length_set, rfl⟩
  case endBad b =>
    obtain ⟨_, _, rfl⟩ := ruleEndBad_eq_ok.mp h
    exact BufferSizesKept.endRelease ⟨List.length_set, rfl⟩
  all_goals
    simp only [rulePreStart_eq_ok, ruleVerOk_eq_ok, ruleVerBad_eq_ok, ruleTitle_eq_ok, ruleLenZero_eq_ok,
      ruleLenBad_eq_ok] at h
    obtain ⟨_, _, rfl⟩ := h
    exact ⟨List.length_set, rfl⟩

/-- A row that raises has captured at most the terminator. -/
theorem rowRule_raised_bufferSizesKept {i : Instr} {s t : State} {r : FaultReason} (h : rowRule i s = .raised r t) :
    BufferSizesKept s t := by
  rcases rowRule_eq_raised h with ⟨_, rfl | rfl⟩ | ⟨_, rfl⟩
  · exact bufferSizesKept_refl t
  · exact ⟨rfl, rfl⟩
  · exact bufferSizesKept_capture _ s

/-- Recording a raised fault writes neither buffer (R176). -/
theorem outcome_bufferSizesKept {x : Res State} {s t : State} (hok : ∀ u, x = .ok u → BufferSizesKept s u)
    (hraised : ∀ r u, x = .raised r u → BufferSizesKept s u) (ht : x.outcome = .next t) : BufferSizesKept s t := by
  rcases outcome_eq_next.mp ht with h | ⟨r, u, h, rfl⟩
  · exact hok t h
  · exact ⟨(hraised r u h).scratch, (hraised r u h).pbuf⟩

/-- A call's first step, once its byte is read. -/
theorem processRead_bufferSizesKept {b : Byte} {s t : State} (h : (processRead b s).outcome = .next t) :
    BufferSizesKept s t := by
  rcases processRead_cases (b := b) (s := s) with
    ⟨i, u, _, hu, hp⟩ | ⟨i, r, u, _, hu, hp⟩ | ⟨hp, _⟩ | ⟨f, hp⟩ | ⟨r, hp⟩ <;> rw [hp] at h <;> cases h
  · split
    · exact rowRule_bufferSizesKept hu
    · exact (rowRule_bufferSizesKept hu).resetCheck
  · have ⟨hscratch, hpbuf⟩ := rowRule_raised_bufferSizesKept hu
    exact ⟨hscratch, hpbuf⟩
  · exact ⟨rfl, rfl⟩

theorem execProcessByte_bufferSizesKept {s t : State} (h : execProcessByte s = .next t) : BufferSizesKept s t := by
  unfold execProcessByte at h
  split at h
  · split at h
    · cases h
      exact bufferSizesKept_refl s
    · have ⟨hscratch, hpbuf⟩ := processRead_bufferSizesKept h
      exact ⟨hscratch, hpbuf⟩
  · cases h
    exact ⟨rfl, rfl⟩

/-- A replay step reads `scratch` and writes neither buffer (R140). -/
theorem execReplay_bufferSizesKept {s t : State} (h : execReplay s = .next t) : BufferSizesKept s t := by
  unfold execReplay at h
  split at h
  · cases h
  · split at h
    · refine outcome_bufferSizesKept (fun u hu => ?_) (fun r u hu => ?_) h
      · obtain ⟨b, v, _, hv, rfl⟩ := replayStep_eq_ok.mp hu
        have ⟨hscratch, hpbuf⟩ := enqPassthrough_bufferSizesKept hv
        split <;> exact ⟨hscratch, hpbuf⟩
      · obtain ⟨_, _, rfl⟩ := replayStep_eq_raised hu
        exact bufferSizesKept_refl u
    · cases h

theorem exec_framer_bufferSizesKept {i : Instr} {s t : State} (hi : notFramer i = false) (h : exec i s = .next t) :
    BufferSizesKept s t := by
  rcases exec_framer_cases s hi with rfl | rfl | rfl | hrow
  · exact execProcessByte_bufferSizesKept h
  · exact execReplay_bufferSizesKept h
  · cases h
    exact ⟨rfl, rfl⟩
  · exact outcome_bufferSizesKept (fun _ => rowRule_bufferSizesKept) (fun _ _ => rowRule_raised_bufferSizesKept)
      (hrow ▸ h)

/-! ### All four arrays -/

/-- Every array has as many elements in both states: the two buffers, and the cells of both queues (R57). -/
structure SizesKept (s t : State) : Prop extends BufferSizesKept s t where
  pq : t.pq.cap = s.pq.cap
  fq : t.fq.cap = s.fq.cap

/-- Neither end of a queue changes its capacity: the producer's and the consumer's writes set one cell (R101, R102). -/
theorem producer_cap {α : Type} {q q' : Queue α} (h : q' = q ∨ ∃ v, q' = q.withItem v) : q'.cap = q.cap := by
  rcases h with rfl | ⟨v, rfl⟩
  · rfl
  · exact cap_withItem q v

theorem consumer_cap {α : Type} {q q' : Queue α} (h : q' = q ∨ q' = q.withoutHead) : q'.cap = q.cap := by
  rcases h with rfl | rfl
  · rfl
  · exact cap_withoutHead q

/-- The framer's instructions are the producer of both queues; the other commands write neither buffer and only consume. -/
theorem exec_sizesKept {i : Instr} {s t : State} (h : exec i s = .next t) : SizesKept s t := by
  cases hi : notFramer i with
  | false =>
    obtain ⟨_, _, hs⟩ := exec_framerStep hi h
    exact ⟨exec_framer_bufferSizesKept hi h, producer_cap hs.pq, producer_cap hs.fq⟩
  | true =>
    have hs := exec_commandStep hi h
    obtain ⟨_, _, hscratch, _, _, _, _, _, hpbuf, _⟩ := hs.framer
    exact ⟨⟨congrArg List.length hscratch, congrArg List.length hpbuf⟩, consumer_cap (hs.pq.imp_right And.right),
      consumer_cap (hs.fq.imp_right And.right)⟩

/-- HOST's moves and a passed-over replay turn write no array. -/
theorem applyMove_sizesKept {m : Move} {s t : State} (h : applyMove m s = .next t) : SizesKept s t := by
  cases m with
  | issue x => exact exec_sizesKept (i := decodeTxn x) h
  | replay =>
    simp only [applyMove] at h
    split at h
    · exact exec_sizesKept h
    · cases h
      exact ⟨⟨rfl, rfl⟩, rfl, rfl⟩
  | _ =>
    cases h
    exact ⟨⟨rfl, rfl⟩, rfl, rfl⟩

/-- Settles O57: a step makes one move, and a move writes the cells of the arrays and not their number. -/
theorem capacitiesAreFixed : Obligations.CapacitiesAreFixed := by
  unfold Obligations.CapacitiesAreFixed
  intro s t h
  unfold step at h
  split at h
  · obtain ⟨⟨hscratch, hpbuf⟩, hpq, hfq⟩ := applyMove_sizesKept h
    rw [nextMove_scratch] at hscratch
    rw [nextMove_pbuf] at hpbuf
    rw [nextMove_pq] at hpq
    rw [nextMove_fq] at hfq
    exact ⟨hscratch, hpbuf, hpq, hfq⟩
  · cases h

end Sys2Proof.Machine
end

section
/-! The operation port (R79 to R82): which commands are reserved (O5), and that every command decodes to a well-formed
instruction, which the step then runs (O6). -/

namespace Sys2Proof.Machine

/-! ### The reserved commands -/

theorem reservedCmd_iff {cmd : Byte} :
    reservedCmd cmd = true ↔ cmd.extractLsb' 0 3 = 7#3 ∨ cmd.extractLsb' 3 5 ≠ 0#5 := by
  simp [reservedCmd]

theorem decodeTxn_of_reservedCmd {t : Txn} (h : reservedCmd t.cmd = true) : decodeTxn t = .reserved t.cmd := by
  unfold decodeTxn
  rcases reservedCmd_iff.mp h with hlow | hhigh
  · simp [hlow]
  · exact if_pos hhigh

/-- Outside R81's commands `cmd[2:0]` is one of the seven codes of R80. -/
theorem decodeTxn_ne_reserved {t : Txn} (h : ¬ reservedCmd t.cmd = true) (c : Byte) : decodeTxn t ≠ .reserved c := by
  obtain ⟨hlow, hhigh⟩ := not_or.mp (mt reservedCmd_iff.mpr h)
  unfold decodeTxn
  rw [if_neg hhigh]
  split_ifs
  case neg => bv_omega
  all_goals nofun

/-- Settles O5: R81's two conditions are `reservedCmd`, and a reserved command's meaning is the refusal. -/
theorem reservedCommandsAreRefused : Obligations.ReservedCommandsAreRefused := by
  unfold Obligations.ReservedCommandsAreRefused
  simp only [← reservedCmd_iff]
  exact ⟨fun _ => ⟨decodeTxn_of_reservedCmd, decodeTxn_ne_reserved⟩, fun _ _ => rfl⟩

/-! ### The issued command -/

theorem wellFormed_of_notFramer {i : Instr} (hi : notFramer i = true) (hr : ∀ c, i ≠ .reserved c) :
    i.wellFormed = true := by
  cases i <;> simp only [notFramer, reduceCtorEq] at hi
  case reserved c => exact absurd rfl (hr c)
  all_goals rfl

/-- Every transaction on the port decodes to a well-formed instruction (R80, R81). -/
theorem decodeTxn_wellFormed (t : Txn) : (decodeTxn t).wellFormed = true := by
  by_cases hr : reservedCmd t.cmd = true
  · rw [decodeTxn_of_reservedCmd hr]
    exact hr
  · rcases decodeTxn_cases t with hp | hn
    · rw [hp]
      rfl
    · exact wellFormed_of_notFramer hn (decodeTxn_ne_reserved hr)

/-- Settles O6: the move at the head of the schedule is the command's, and its move is `exec` of what it decodes to. -/
theorem stepRunsTheIssuedCommand : Obligations.StepRunsTheIssuedCommand :=
  fun _ t _ hf hs => ⟨decodeTxn_wellFormed t, step_of_sched_cons hf hs⟩

end Sys2Proof.Machine
end

section
/-! The two encodings (O1 to O4): the state codes, the words of every instruction, and the one row that a state and a byte
select (R74 to R77). -/

namespace Sys2Proof.Machine

/-! ### Codes and words of the spec -/

theorem code_ofCode : ∀ c : BitVec 3, (FsmState.ofCode c).code = c := by decide

/-- Settles O4: the codes are the table's, and coding and decoding are inverse. -/
theorem stateCodesOfTheSpec : Obligations.StateCodesOfTheSpec :=
  ⟨rfl, rfl, rfl, rfl, rfl, rfl, rfl, rfl, ofCode_code, code_ofCode⟩

/-- Settles O1: the decoder run on each of the ten words. -/
theorem wordsOfTheSpecDecode : Obligations.WordsOfTheSpecDecode := by
  unfold Obligations.WordsOfTheSpecDecode
  decide

/-! ### The words of an instruction -/

theorem payloadLength_iff {b : Byte} : payloadLength b = true ↔ b ≠ 0 ∧ b.toNat < Config.maxLength := by
  rw [payloadLength, decide_eq_true_eq, Nat.one_le_iff_ne_zero, ← BitVec.toNat_inj.ne]
  rfl

/-- A word of R74 whose two parts select the row `i`. -/
theorem decode_dispatchWord {i : Instr} {st : FsmState} {b : Byte} {c : RowCond} (h : decodeRow st b c = .ok i) :
    decode (.dispatch (dispatchWord st b)) c = .ok i :=
  (decodeDispatch_word st b c).trans h

/-- Settles O2, by cases on the instruction: a command byte of R80 is read off its codes, and the word of a row is a
dispatch word whose state and byte select that row under its condition. -/
theorem decodeOfEncode : Obligations.DecodeOfEncode := by
  unfold Obligations.DecodeOfEncode
  intro i c hwf hc hreplay hfinish
  cases i <;> simp only [Instr.wellFormed, Instr.condHolds, decide_eq_true_eq, Bool.not_eq_true'] at hwf hc
  case reserved cmd => exact congrArg Except.ok (decodeTxn_of_reservedCmd (t := ⟨.host, cmd, .zero⟩) hwf)
  case preStart => exact decode_dispatchWord (st := .preambleWait) (b := Config.preamble) rfl
  case prePass b => exact decode_dispatchWord (st := .preambleWait) (if_neg hwf)
  case verOk => exact decode_dispatchWord (st := .versionWait) (b := Config.version) rfl
  case verBad b => exact decode_dispatchWord (st := .versionWait) (if_neg hwf)
  case title b => exact decode_dispatchWord (st := .titleWait) rfl
  case lenZero => exact decode_dispatchWord (st := .lengthWait) (b := 0) rfl
  case lenAlloc b =>
    obtain ⟨h0, hshort⟩ := payloadLength_iff.mp hwf
    exact decode_dispatchWord (st := .lengthWait) ((if_neg h0).trans ((if_pos hshort).trans (if_pos hc)))
  case lenNomem b =>
    obtain ⟨h0, hshort⟩ := payloadLength_iff.mp hwf
    exact decode_dispatchWord (st := .lengthWait) ((if_neg h0).trans ((if_pos hshort).trans (if_neg (by simp [hc]))))
  case lenBad b =>
    have h0 : b ≠ 0 := by
      rintro rfl
      exact absurd hwf (by decide)
    exact decode_dispatchWord (st := .lengthWait) ((if_neg h0).trans (if_neg (not_lt.mpr hwf)))
  case msgByte b => exact decode_dispatchWord (st := .messageWait) (if_pos hc)
  case msgLast b => exact decode_dispatchWord (st := .messageWait) (by simp [decodeRow, hc])
  case endOk => exact decode_dispatchWord (st := .endWait) (b := Config.terminator) (by simp [decodeRow, hc])
  case endFull => exact decode_dispatchWord (st := .endWait) (b := Config.terminator) (by simp [decodeRow, hc])
  case endBad b => exact decode_dispatchWord (st := .endWait) (if_neg hwf)
  case replay => exact absurd rfl hreplay
  case finish => exact absurd rfl hfinish
  case processByte | frameAvailable | dequeueFrame | passthroughAvailable | readPassthrough | sendFrame | release =>
    simp [decode, encode, decodeTxn]

/-! ### The row a state and a byte select -/

/-- A word spells no internal step, so a row is what its word decodes to. -/
theorem decode_of_encode_dispatch {i : Instr} {w : BitVec 11} {c : RowCond} (hwf : i.wellFormed = true)
    (hc : i.condHolds c = true) (he : encode i = .dispatch w) : decodeDispatch w c = .ok i := by
  have hd := decodeOfEncode i c hwf hc (by rintro rfl; cases he) (by rintro rfl; cases he)
  rwa [he] at hd

/-- In a state with a code of R75 the rows cover every byte and every register value that can occur (R76, R77). -/
theorem decodeRow_covers {st : FsmState} (b : Byte) (c : RowCond) (h6 : st ≠ .unused6) (h7 : st ≠ .unused7)
    (hrem : st = .messageWait → 1 ≤ c.rem) : ∃ i, decodeRow st b c = .ok i := by
  cases st <;> simp only [decodeRow]
  case messageWait =>
    have := hrem rfl
    split_ifs
    case neg => omega
    all_goals exact ⟨_, rfl⟩
  case titleWait => exact ⟨_, rfl⟩
  case unused6 => exact absurd rfl h6
  case unused7 => exact absurd rfl h7
  all_goals split_ifs <;> exact ⟨_, rfl⟩

/-- The row that is selected is well-formed, its condition holds, and its word is the dispatch word (R74). -/
theorem decodeRow_eq_ok {st : FsmState} {b : Byte} {c : RowCond} {i : Instr} (h : decodeRow st b c = .ok i) :
    i.wellFormed = true ∧ i.condHolds c = true ∧ encode i = .dispatch (dispatchWord st b) := by
  unfold decodeRow at h
  cases st <;> simp only at h
  case preambleWait =>
    split_ifs at h with hb <;> cases h
    · exact ⟨rfl, rfl, hb ▸ rfl⟩
    · exact ⟨decide_eq_true hb, rfl, rfl⟩
  case versionWait =>
    split_ifs at h with hb <;> cases h
    · exact ⟨rfl, rfl, hb ▸ rfl⟩
    · exact ⟨decide_eq_true hb, rfl, rfl⟩
  case titleWait =>
    cases h
    exact ⟨rfl, rfl, rfl⟩
  case lengthWait =>
    split_ifs at h with h0 hshort hok <;> cases h
    · exact ⟨rfl, rfl, h0 ▸ rfl⟩
    · exact ⟨payloadLength_iff.mpr ⟨h0, hshort⟩, hok, rfl⟩
    · exact ⟨payloadLength_iff.mpr ⟨h0, hshort⟩, by simpa [Instr.condHolds] using hok, rfl⟩
    · exact ⟨decide_eq_true (not_lt.mp hshort), rfl, rfl⟩
  case messageWait =>
    split_ifs at h with h2 h1 <;> cases h
    · exact ⟨rfl, decide_eq_true h2, rfl⟩
    · exact ⟨rfl, decide_eq_true h1, rfl⟩
  case endWait =>
    split_ifs at h with hb hroom <;> cases h
    · exact ⟨rfl, hroom, hb ▸ rfl⟩
    · exact ⟨rfl, by simpa [Instr.condHolds] using hroom, hb ▸ rfl⟩
    · exact ⟨decide_eq_true hb, rfl, rfl⟩
  case unused6 => cases h
  case unused7 => cases h

/-- A dispatch word fits the `match` and `mask` of the row it spells: the exact rows have one word, and the others keep
their state code under the mask 0x700 (R74). -/
theorem fits_of_encode_dispatch {i : Instr} {w : BitVec 11} (he : encode i = .dispatch w) :
    ∃ m k, i.matchMask = some (m, k) ∧ w &&& k = m := by
  cases i <;> cases he
  case preStart | verOk | lenZero | endOk | endFull => exact ⟨_, _, rfl, by decide⟩
  all_goals exact ⟨_, _, rfl, Laws.Fits.word_fits _ _⟩

/-- Settles O3: the selected row exists because the rows cover the bytes, and it is the only one because a row is what its
word decodes to (O2). -/
theorem everyByteSelectsOneRow : Obligations.EveryByteSelectsOneRow := by
  unfold Obligations.EveryByteSelectsOneRow
  intro st b c h6 h7 hrem
  constructor
  · obtain ⟨i, hi⟩ := decodeRow_covers b c h6 h7 hrem
    obtain ⟨hwf, hc, he⟩ := decodeRow_eq_ok hi
    obtain ⟨m, k, hm, hk⟩ := fits_of_encode_dispatch he
    exact ⟨i, m, k, (decodeDispatch_word st b c).trans hi, hwf, hc, he, hm, hk⟩
  · intro i j hwi hwj hci hcj hei hej
    exact Except.ok.inj ((decode_of_encode_dispatch hwi hci hei).symm.trans (decode_of_encode_dispatch hwj hcj hej))

end Sys2Proof.Machine
end

section
/-! A call and the byte it reads: it completes on every byte from a state that meets the invariant (O36), and records
BadState in a state that holds an unused code (O37). -/

namespace Sys2Proof.Machine

/-- The marks of a run and the results returned (R171, R176, R177) hold the same in two states. -/
structure MarksSame (s t : State) : Prop where
  faults : t.faults = s.faults
  refused : t.refused = s.refused
  results : t.results = s.results

theorem marksSame_refl (s : State) : MarksSame s s := ⟨rfl, rfl, rfl⟩

theorem MarksSame.endRelease {s t : State} (h : MarksSame s t) : MarksSame s (endRelease t) :=
  ⟨by simp [h.faults], by simp [h.refused], by simp [h.results]⟩

theorem MarksSame.resetCheck {s t : State} (h : MarksSame s t) : MarksSame s (resetCheck t) :=
  ⟨by simp [h.faults], by simp [h.refused], by simp [h.results]⟩

/-- A row's rule that goes through marks nothing and returns nothing (R83). -/
theorem rowRule_marksSame {i : Instr} {s t : State} (h : rowRule i s = .ok t) : MarksSame s t := by
  cases i <;> simp only [rowRule, reduceCtorEq] at h
  case prePass b =>
    rcases enqPassthrough_eq_ok.mp (rulePrePass_eq_ok.mp h).2 with ⟨_, _, rfl⟩ | ⟨_, rfl⟩ <;> exact ⟨rfl, rfl, rfl⟩
  case lenAlloc b =>
    obtain ⟨_, _, _, k, _, rfl⟩ := ruleLenAlloc_eq_ok.mp h
    exact ⟨by simp, by simp, by simp⟩
  case lenNomem b =>
    obtain ⟨_, _, _, _, rfl⟩ := ruleLenNomem_eq_ok.mp h
    exact ⟨by simp, by simp, by simp⟩
  case msgByte b =>
    obtain ⟨_, u, hu, rfl⟩ := ruleMsgByte_eq_ok.mp h
    obtain ⟨_, _, rfl⟩ := storePayloadByte_eq_ok.mp hu
    exact MarksSame.endRelease ⟨rfl, rfl, rfl⟩
  case msgLast b =>
    obtain ⟨_, u, hu, rfl⟩ := ruleMsgLast_eq_ok.mp h
    obtain ⟨_, _, rfl⟩ := storePayloadByte_eq_ok.mp hu
    exact MarksSame.endRelease ⟨rfl, rfl, rfl⟩
  case endOk =>
    obtain ⟨_, _, _, fr, _, rfl⟩ := ruleEndOk_eq_ok.mp h
    exact ⟨rfl, rfl, rfl⟩
  case endFull =>
    obtain ⟨_, _, _, rfl⟩ := ruleEndFull_eq_ok.mp h
    exact MarksSame.endRelease ⟨rfl, rfl, rfl⟩
  case endBad b =>
    obtain ⟨_, _, rfl⟩ := ruleEndBad_eq_ok.mp h
    exact MarksSame.endRelease ⟨rfl, rfl, rfl⟩
  all_goals
    simp only [rulePreStart_eq_ok, ruleVerOk_eq_ok, ruleVerBad_eq_ok, ruleTitle_eq_ok, ruleLenZero_eq_ok,
      ruleLenBad_eq_ok] at h
    obtain ⟨_, _, rfl⟩ := h
    exact ⟨rfl, rfl, rfl⟩

/-- Settles O36: the byte selects a row whose rule goes through, and neither the rule nor ResetCheck writes `rx`, `tx`, a
mark or a result. -/
theorem processByteAcceptsEveryByte : Obligations.ProcessByteAcceptsEveryByte := by
  unfold Obligations.ProcessByteAcceptsEveryByte
  intro s b rest h hi hrx
  obtain ⟨i, u, hd, hu⟩ := row_goes_through (withRx_inv rest h) hi b
  have hstep := rowRule_framerStep hu
  have hmarks := rowRule_marksSame hu
  refine ⟨if s.state = .preambleWait then u else resetCheck u, ?_, ?_⟩
  · rw [processByte_read hi hrx, processRead_of_rule hd hu]
    rfl
  · split
    · exact ⟨hstep.rx, hmarks.faults, hmarks.refused, hmarks.results, hstep.tx⟩
    · exact ⟨hstep.resetCheck.rx, hmarks.resetCheck.faults, hmarks.resetCheck.refused, hmarks.resetCheck.results,
        hstep.resetCheck.tx⟩

theorem processRead_of_unused {s : State} (b : Byte) (h : s.state = .unused6 ∨ s.state = .unused7) :
    processRead b s = .raised .badState s := by
  rcases h with h | h <;> simp [processRead, decodeRow, h]

/-- Settles O37: no row has an unused code, so the call raises BadState after its read (log 6). -/
theorem unusedStateCodeIsRecorded : Obligations.UnusedStateCodeIsRecorded := by
  unfold Obligations.UnusedStateCodeIsRecorded
  intro s b rest hi hf hrx hs
  rw [processByte_read hi hrx, processRead_of_unused b (s := s.withRx rest) hs]
  simp [State.recordFault, addFault, State.withRx, hf]

end Sys2Proof.Machine
end

section
/-! The queues (R101 to R111): what one operation answers and does to the items, first in, first out over any sequence of
operations, and the consumers' operations with the single-consumer rule (R104 to R107, R113). -/

namespace Sys2Proof.Machine

/-! ### One operation -/

/-- Settles O12, by `enq_room` and `enq_full`. -/
theorem enqAppendsOrAnswersFull : Obligations.EnqAppendsOrAnswersFull :=
  fun _ _ v => ⟨fun hroom hwr => enq_room v hroom hwr, fun hfull => enq_full v (Nat.not_lt.mpr hfull)⟩

/-- Settles O13, by `deq_item` and `deq_empty`. -/
theorem deqRemovesTheOldestOrAnswersEmpty : Obligations.DeqRemovesTheOldestOrAnswersEmpty :=
  fun _ _ s => ⟨fun _ hpos hcell => deq_item s hpos hcell, fun hzero => deq_empty s hzero.not_gt⟩

/-- `Enq` on a queue that meets R35: its item stands behind those queued exactly when the answer is `Ok`. -/
theorem enq_answers {α : Type} {q : Queue α} (v : α) (hq : q.Ok) :
    ∃ c q', q.enq v = .ok (c, q') ∧ q'.Ok ∧ q'.cap = q.cap ∧ q'.items = q.items ++ if c = .ok then [v] else [] := by
  by_cases hroom : q.fill < q.cap
  · obtain ⟨_, _, hwr, _⟩ := id hq
    exact ⟨.ok, q.withItem v, enq_room v hroom hwr, withItem_ok v hq hroom, cap_withItem q v, items_enq v hq hroom⟩
  · exact ⟨.full, q, enq_full v hroom, hq, rfl, by simp⟩

/-- `Deq` on a queue that meets R35: the item it answers, if any, is the oldest of those queued. -/
theorem deq_answers {α : Type} {q : Queue α} (s : State) (hq : q.Ok) :
    ∃ o q', q.deq s = .ok (o, q') ∧ q'.Ok ∧ q'.cap = q.cap ∧ q.items = o.toList ++ q'.items := by
  by_cases hpos : 0 < q.fill
  · obtain ⟨v, hv⟩ := head_cell hq hpos
    exact ⟨some v, q.withoutHead, deq_item s hpos hv, withoutHead_ok hq hpos hv, cap_withoutHead q, items_deq hq hpos hv⟩
  · exact ⟨none, q, deq_empty s hpos, hq, rfl, rfl⟩

/-! ### Sequences of operations -/

/-- Settles O14, by induction on the operations: each keeps the items dequeued, then those queued, equal to the items there
at first, then those enqueued with `Ok`. -/
theorem queueIsFirstInFirstOut : Obligations.QueueIsFirstInFirstOut := by
  unfold Obligations.QueueIsFirstInFirstOut
  intro α ops
  induction ops with
  | nil => exact fun q s hq => ⟨q, [], [], rfl, hq, rfl, by simp⟩
  | cons op ops ih =>
    intro q s hq
    cases op with
    | enq v =>
      obtain ⟨c, q₁, henq, hq₁, hcap, hitems⟩ := enq_answers v hq
      obtain ⟨q₂, put, got, hrun, hq₂, hcap₂, hfifo⟩ := ih q₁ s hq₁
      refine ⟨q₂, if c = .ok then v :: put else put, got, by simp [Queue.runOps, henq, hrun], hq₂, hcap₂.trans hcap, ?_⟩
      rw [hfifo, hitems]
      split <;> simp
    | deq =>
      obtain ⟨o, q₁, hdeq, hq₁, hcap, hitems⟩ := deq_answers s hq
      obtain ⟨q₂, put, got, hrun, hq₂, hcap₂, hfifo⟩ := ih q₁ s hq₁
      refine ⟨q₂, put, o.toList ++ got, by simp [Queue.runOps, hdeq, hrun], hq₂, hcap₂.trans hcap, ?_⟩
      rw [hitems, List.append_assoc, hfifo, List.append_assoc]

/-- Settles O15: a full queue has a head to take, and without it room for one item. -/
theorem fullLeavesTheQueueUsable : Obligations.FullLeavesTheQueueUsable := by
  unfold Obligations.FullLeavesTheQueueUsable
  intro α q v w s hq hfull
  obtain ⟨hcap, _⟩ := id hq
  have hpos : 0 < q.fill := hfull ▸ hcap
  obtain ⟨x, hx⟩ := head_cell hq hpos
  have hq₁ : q.withoutHead.Ok := withoutHead_ok hq hpos hx
  have hroom : q.withoutHead.fill < q.withoutHead.cap := by
    rw [cap_withoutHead, Queue.cap, ← hfull]
    exact Nat.sub_one_lt_of_lt hpos
  obtain ⟨_, _, hwr, _⟩ := id hq₁
  exact ⟨enq_full v hfull.not_lt, x, q.withoutHead, q.withoutHead.withItem w, deq_item s hpos hx, enq_room w hroom hwr,
    withItem_ok w hq₁ hroom, items_enq w hq₁ hroom⟩

/-! ### The consumers' operations -/

/-- Settles O16: the meaning of either count operation, and the bound of the fill count in R35. -/
theorem countReadsReturnTheFill : Obligations.CountReadsReturnTheFill :=
  fun _ _ => ⟨rfl, rfl, fun ⟨_, hfill, _⟩ => hfill, fun ⟨_, hfill, _⟩ => hfill⟩

theorem exec_dequeueFrame_consumer (s : State) : exec (.dequeueFrame .fc) s = (takeFrame .fc s).outcome := rfl

theorem exec_dequeueFrame_other {a : Agent} (s : State) (ha : a ≠ .fc) :
    exec (.dequeueFrame a) s = .next (s.refuse .notConsumer) := if_neg ha

theorem exec_readPassthrough_consumer (s : State) :
    exec (.readPassthrough .pc) s = (takePassthrough .pc s).outcome := rfl

theorem exec_readPassthrough_other {a : Agent} (s : State) (ha : a ≠ .pc) :
    exec (.readPassthrough a) s = .next (s.refuse .notConsumer) := if_neg ha

/-- Settles O17, by the two answers of `Deq(F)`. -/
theorem dequeueFrameTakesTheOldest : Obligations.DequeueFrameTakesTheOldest := by
  unfold Obligations.DequeueFrameTakesTheOldest
  refine fun s => ⟨fun fr hpos hcell => ?_, fun hzero => ?_⟩ <;> rw [exec_dequeueFrame_consumer]
  · rw [takeFrame_eq_ok.mpr (.inl ⟨fr, hpos, hcell, rfl⟩)]
    rfl
  · rw [takeFrame_eq_ok.mpr (.inr ⟨hzero.not_gt, rfl⟩)]
    rfl

/-- Settles O18, by the two answers of `Deq(P)`. -/
theorem readPassthroughTakesTheOldest : Obligations.ReadPassthroughTakesTheOldest := by
  unfold Obligations.ReadPassthroughTakesTheOldest
  refine fun s => ⟨fun b hpos hcell => ?_, fun hzero => ?_⟩ <;> rw [exec_readPassthrough_consumer]
  · rw [takePassthrough_eq_ok.mpr (.inl ⟨b, hpos, hcell, rfl⟩)]
    rfl
  · rw [takePassthrough_eq_ok.mpr (.inr ⟨hzero.not_gt, rfl⟩)]
    rfl

/-- Settles O19: a dequeue from another agent is refused, and a command that is not the framer's leaves the
producer's end of either queue (O20). -/
theorem oneConsumerAndOneProducer : Obligations.OneConsumerAndOneProducer := by
  unfold Obligations.OneConsumerAndOneProducer
  refine ⟨fun _ s => exec_dequeueFrame_other s, fun _ s => exec_readPassthrough_other s, fun i s t hi h => ?_⟩
  obtain ⟨hwriters, _⟩ := fieldsHaveOneWriter
  obtain ⟨hcommand, _⟩ := hwriters i s t h
  obtain ⟨_, hpwr, hfwr, hpfill, hffill, _⟩ := hcommand hi
  exact ⟨hpwr, hfwr, hpfill, hffill⟩

end Sys2Proof.Machine
end

section
/-! Progress (O56): from a state that meets the invariant every move of every agent completes. -/

namespace Sys2Proof.Machine

/-! ### The commands that are not the framer's -/

/-- `Deq(F)` on a queue that meets R35 answers, and so does the operation (R105, R112). -/
theorem takeFrame_goes_through {s : State} (a : Agent) (hq : s.fq.Ok) : ∃ t, takeFrame a s = .ok t := by
  by_cases hpos : 0 < s.fq.fill
  · obtain ⟨fr, hcell⟩ := head_cell hq hpos
    exact ⟨_, takeFrame_eq_ok.mpr (.inl ⟨fr, hpos, hcell, rfl⟩)⟩
  · exact ⟨_, takeFrame_eq_ok.mpr (.inr ⟨hpos, rfl⟩)⟩

/-- `Deq(P)` on a queue that meets R35 answers, and so does the operation (R107, R112). -/
theorem takePassthrough_goes_through {s : State} (a : Agent) (hq : s.pq.Ok) : ∃ t, takePassthrough a s = .ok t := by
  by_cases hpos : 0 < s.pq.fill
  · obtain ⟨b, hcell⟩ := head_cell hq hpos
    exact ⟨_, takePassthrough_eq_ok.mpr (.inl ⟨b, hpos, hcell, rfl⟩)⟩
  · exact ⟨_, takePassthrough_eq_ok.mpr (.inr ⟨hpos, rfl⟩)⟩

/-- A release completes in any state: it frees the handle, records a fault, or finds the handle in neither set (R164). -/
theorem releaseHandle_completes (k : Handle) (s : State) : ∃ t, (releaseHandle k s).outcome = .next t := by
  unfold releaseHandle
  split_ifs <;> exact ⟨_, rfl⟩

theorem exec_notFramer_completes {i : Instr} {s : State} (hi : notFramer i = true) (h : s.Inv) :
    ∃ t, exec i s = .next t := by
  cases i <;> simp only [notFramer, reduceCtorEq] at hi
  case frameAvailable a => exact ⟨_, rfl⟩
  case passthroughAvailable a => exact ⟨_, rfl⟩
  case reserved cmd => exact ⟨_, rfl⟩
  case dequeueFrame a =>
    by_cases ha : a = .fc
    · obtain ⟨t, ht⟩ := takeFrame_goes_through .fc h.frames
      exact ⟨t, by rw [ha, exec_dequeueFrame_consumer, ht, outcome_ok]⟩
    · exact ⟨_, exec_dequeueFrame_other s ha⟩
  case readPassthrough a =>
    by_cases ha : a = .pc
    · obtain ⟨t, ht⟩ := takePassthrough_goes_through .pc h.passthrough
      exact ⟨t, by rw [ha, exec_readPassthrough_consumer, ht, outcome_ok]⟩
    · exact ⟨_, exec_readPassthrough_other s ha⟩
  case sendFrame fr =>
    simp only [exec, execSendFrame]
    split <;> exact ⟨_, rfl⟩
  case release fr =>
    simp only [exec, execRelease]
    split
    · exact ⟨_, rfl⟩
    · exact releaseHandle_completes _ s

/-! ### The framer's steps -/

/-- A call is refused, reads nothing, or reads a byte whose row's rule goes through (R120, R155). -/
theorem execProcessByte_completes {s : State} (h : s.Inv) : ∃ t, execProcessByte s = .next t := by
  unfold execProcessByte
  split
  · rename_i hi
    split
    · exact ⟨_, rfl⟩
    · rename_i b rest _
      obtain ⟨t, ht, _⟩ := processRead_goes_through (withRx_inv rest h) hi b
      exact ⟨t, by rw [ht, outcome_ok]⟩
  · exact ⟨_, rfl⟩

/-- An enabled replay step completes (R140, R144). -/
theorem execReplay_completes {s : State} (h : s.Inv) (hen : s.replayEnabled = true) : ∃ t, execReplay s = .next t := by
  cases hphase : s.phase with
  | idle => simp [State.replayEnabled, hphase] at hen
  | replay i =>
    obtain ⟨t, ht⟩ := replayStep_goes_through h hphase
    exact ⟨t, by simp [execReplay, hphase, (h.replay i hphase).inside, ht]⟩

/-! ### A move and a step -/

theorem applyMove_completes (m : Move) {s : State} (h : s.Inv) : ∃ t, applyMove m s = .next t := by
  cases m with
  | issue x =>
    simp only [applyMove]
    rcases decodeTxn_cases x with hx | hx
    · rw [hx]
      exact execProcessByte_completes h
    · exact exec_notFramer_completes hx h
  | replay =>
    simp only [applyMove]
    split
    · rename_i hen
      exact execReplay_completes h hen
    · exact ⟨_, rfl⟩
  | rx b => exact ⟨_, rfl⟩
  | takeTx => exact ⟨_, rfl⟩
  | alloc d => exact ⟨_, rfl⟩
  | reset => exact ⟨_, rfl⟩

/-- Settles O56: with no fault recorded the step is the next move, from a state that still meets the invariant. -/
theorem noStepStopsTheMachine : Obligations.NoStepStopsTheMachine := by
  unfold Obligations.NoStepStopsTheMachine
  intro s h hf
  rw [step, if_pos hf]
  exact applyMove_completes _ (nextMove_inv h)

end Sys2Proof.Machine
end

section
/-! The replay (R140 to R144, R156): one turn of it (O7, O42, O43, O44), that no other agent puts it off (O45), and that its
own turns end it (O46). -/

namespace Sys2Proof.Machine

/-! ### Where a replay turn is enabled -/

theorem replayEnabled_iff {s : State} : s.replayEnabled = true ↔ ∃ i, s.phase = .replay i ∧ i < s.scur := by
  cases h : s.phase <;> simp [State.replayEnabled, h]

theorem exec_replay_of_enabled {s : State} {i : Nat} (hp : s.phase = .replay i) (hlt : i < s.scur) :
    exec .replay s = (replayStep i s).outcome := by
  simp [exec, execReplay, hp, hlt]

/-- Settles O44: without a replay in progress neither branch of the turn goes on. -/
theorem replayNeedsAReplayInProgress : Obligations.ReplayNeedsAReplayInProgress := by
  unfold Obligations.ReplayNeedsAReplayInProgress
  intro s h
  cases hp : s.phase with
  | idle => simp [exec, execReplay, hp]
  | replay i => simp [exec, execReplay, hp, h i hp]

/-- Settles O7: the move at the head of the schedule runs REPLAY exactly where the turn is enabled. -/
theorem stepTakesTheReplayTurn : Obligations.StepTakesTheReplayTurn := by
  unfold Obligations.StepTakesTheReplayTurn
  intro s rest hf hs
  rw [step_of_sched_cons hf hs]
  refine ⟨fun i hp hlt => if_pos (replayEnabled_iff.mpr ⟨i, hp, hlt⟩), fun h => if_neg fun hen => ?_⟩
  obtain ⟨i, hp, hlt⟩ := replayEnabled_iff.mp hen
  exact h i hp hlt

/-- Settles O43: FINISH is its three writes. -/
theorem finishReturnsToPreambleWait : Obligations.FinishReturnsToPreambleWait := fun _ => rfl

/-! ### What a replay turn does -/

/-- Settles O42: the byte is offered to `P`, and the last one finishes the replay. -/
theorem replayOffersOneByte : Obligations.ReplayOffersOneByte := by
  unfold Obligations.ReplayOffersOneByte
  intro s i b q hp hlt hcell hq
  have henq : enqPassthrough b s = .ok { s with pq := q } := by
    rcases hq with ⟨hroom, hwr, rfl⟩ | ⟨hfull, rfl⟩
    · exact enqPassthrough_eq_ok.mpr (.inl ⟨hroom, hwr, rfl⟩)
    · exact enqPassthrough_eq_ok.mpr (.inr ⟨Nat.not_lt.mpr hfull, rfl⟩)
  rw [exec_replay_of_enabled hp hlt, replayStep_eq_ok.mpr ⟨b, _, hcell, henq, rfl⟩]
  exact ⟨fun hmore => by rw [if_neg hmore]; rfl, fun hlast => by rw [if_pos hlast]; rfl⟩

/-- A queue that meets R35, after an item was offered to it: the item, then those that follow, stand behind those queued as
far as there was room (R109, R140). -/
theorem items_offer {α : Type} {q : Queue α} (v : α) (hq : q.Ok) :
    ∃ q' : Queue α, (q.fill < q.cell.length ∧ q.wr < q.cell.length ∧ q' = q.withItem v ∨
        q.cell.length ≤ q.fill ∧ q' = q) ∧
      ∀ more : List α, q'.items ++ more.take (q'.cap - q'.fill) = q.items ++ (v :: more).take (q.cap - q.fill) := by
  by_cases hroom : q.fill < q.cap
  · obtain ⟨_, _, hwr, _⟩ := id hq
    refine ⟨q.withItem v, .inl ⟨hroom, hwr, rfl⟩, fun more => ?_⟩
    have hleft : q.cap - q.fill = q.cap - (q.fill + 1) + 1 := by omega
    rw [items_enq v hq hroom, cap_withItem, hleft, List.take_succ_cons, List.append_assoc]
    rfl
  · refine ⟨q, .inr ⟨Nat.not_lt.mp hroom, rfl⟩, fun more => ?_⟩
    rw [Nat.sub_eq_zero_of_le (Nat.not_lt.mp hroom), List.take_zero, List.take_zero]

/-! ### The captured bytes, read one at a time -/

/-- Where every byte up to the parse cursor is captured, the captured bytes are the first `scur` cells. -/
theorem take_scratch_eq_capturedBytes {s : State} (h : ∀ c ∈ s.scratch.take s.scur, c.isSome = true) :
    s.scratch.take s.scur = s.capturedBytes.map some := by
  obtain ⟨bs, _, hbs⟩ := collect_of_all h
  simp [State.capturedBytes, hbs]

theorem length_capturedBytes {s : State} (hle : s.scur ≤ s.scratch.length)
    (h : ∀ c ∈ s.scratch.take s.scur, c.isSome = true) : s.capturedBytes.length = s.scur := by
  have := congrArg List.length (take_scratch_eq_capturedBytes h)
  simp only [List.length_take, List.length_map] at this
  omega

/-- The byte a replay is about to offer is the next of those captured. -/
theorem next_captured {s : State} {i : Nat} (h : s.Inv) (hp : s.phase = .replay i) :
    ∃ b, s.scratch[i]? = some (some b) ∧ s.capturedBytes.drop i = b :: s.capturedBytes.drop (i + 1) := by
  have hr := h.replay i hp
  obtain ⟨hscratch, _, hscur, _⟩ := h.range
  have hlt : i < s.capturedBytes.length := by
    rw [length_capturedBytes (hscur.trans hscratch) hr.captured]
    exact hr.inside
  refine ⟨s.capturedBytes[i], ?_, List.drop_eq_getElem_cons hlt⟩
  rw [← List.getElem?_take_of_lt hr.inside, take_scratch_eq_capturedBytes hr.captured]
  simp [hlt]

/-- A replay turn at the head of the schedule, in a state that meets the invariant: the next captured byte is offered, and
the replay goes on with the rest or ends (R140, R141). -/
theorem step_replay_turn {s : State} {i : Nat} {rest : List Move} (h : s.Inv) (hf : s.faults = [])
    (hp : s.phase = .replay i) (hs : s.sched = .replay :: rest) :
    ∃ q : Queue Byte,
      q.items ++ (s.capturedBytes.drop (i + 1)).take (q.cap - q.fill) =
        s.pq.items ++ (s.capturedBytes.drop i).take (s.pq.cap - s.pq.fill) ∧
      (i + 1 ≠ s.scur → step s = .next { s with sched := rest, pq := q, phase := .replay (i + 1) }) ∧
      (i + 1 = s.scur →
        step s = .next { s with sched := rest, pq := q, state := .preambleWait, pending := false, phase := .idle }) := by
  obtain ⟨b, hcell, hdrop⟩ := next_captured h hp
  obtain ⟨q, hq, hitems⟩ := items_offer b h.passthrough
  obtain ⟨hturn, _⟩ := stepTakesTheReplayTurn s rest hf hs
  have hlt := (h.replay i hp).inside
  rw [hturn i hp hlt, hdrop]
  exact ⟨q, hitems _, replayOffersOneByte { s with sched := rest } i b q hp hlt hcell hq⟩

/-! ### The end of a replay -/

theorem run_succ {s t : State} (h : step s = .next t) (n : Nat) : Host.Core.run core (n + 1) s = Host.Core.run core n t := by
  have : core.step s = .next t := h
  simp only [Host.Core.run, this]

/-- What a replay from `i` has done once it has ended (R140, R141, R144): its turns are taken, the call is over, `P` has the
captured bytes from `i` on as far as it had room, and the fields of the other agents are as before. -/
structure ReplayDone (s : State) (i : Nat) (rest : List Move) (t : State) : Prop where
  sched : t.sched = rest
  state : t.state = .preambleWait
  pending : t.pending = false
  phase : t.phase = .idle
  items : t.pq.items = s.pq.items ++ (s.capturedBytes.drop i).take (s.pq.cap - s.pq.fill)
  fq : t.fq = s.fq
  live : t.live = s.live
  freed : t.freed = s.freed
  rx : t.rx = s.rx

/-- Induction on the bytes left: each turn offers one, and the turn of the last ends the call. -/
theorem replay_turns_finish (n : Nat) (rest : List Move) (s : State) (i : Nat) (h : s.Inv) (hf : s.faults = [])
    (hp : s.phase = .replay i) (hn : s.scur = i + n) (hs : s.sched = List.replicate n .replay ++ rest) :
    ∃ t, Host.Core.run core n s = .next t ∧ ReplayDone s i rest t := by
  induction n generalizing s i with
  | zero => exact absurd (h.replay i hp).inside (by omega)
  | succ n ih =>
    obtain ⟨q, hitems, hmore, hlast⟩ := step_replay_turn h hf hp hs
    rcases n with _ | n
    · have hstep := hlast hn.symm
      have hnone : s.capturedBytes.drop (i + 1) = [] := by
        have hlen : s.capturedBytes.length ≤ s.scur := by
          refine (List.length_filterMap_le _ _).trans ?_
          rw [List.length_take]
          exact Nat.min_le_left _ _
        exact List.drop_eq_nil_of_le (hn ▸ hlen)
      rw [hnone, List.take_nil, List.append_nil] at hitems
      exact ⟨_, run_succ hstep 0, rfl, rfl, rfl, rfl, hitems, rfl, rfl, rfl, rfl⟩
    · have hstep := hmore (by omega)
      have hleft : s.scur = i + 1 + (n + 1) := by omega
      obtain ⟨t, hrun, ht⟩ := ih _ (i + 1) (everyStepKeepsTheInvariant s _ h hstep) hf rfl hleft rfl
      exact ⟨t, (run_succ hstep _).trans hrun, ht.sched, ht.state, ht.pending, ht.phase, ht.items.trans hitems, ht.fq,
        ht.live, ht.freed, ht.rx⟩

/-- Settles O46: at most 54 bytes are captured (R20), and the replay's turns offer those left and end the call. -/
theorem everyAbortHealsItself : Obligations.EveryAbortHealsItself := by
  unfold Obligations.EveryAbortHealsItself
  intro s i rest h hf hp hs
  obtain ⟨_, _, hscur, _⟩ := h.range
  have hlt := (h.replay i hp).inside
  obtain ⟨t, hrun, ht⟩ := replay_turns_finish _ rest s i h hf hp (by omega) hs
  exact ⟨(Nat.sub_le _ _).trans hscur, t, hrun, ht.sched, ht.state, ht.pending, ht.phase, ht.items, ht.fq, ht.live,
    ht.freed, ht.rx⟩

/-! ### The other agents' moves while a call replays -/

/-- A call issued while another replays is refused (R155). -/
theorem execProcessByte_of_replay {s : State} (h : s.phase ≠ .idle) : execProcessByte s = .next (s.refuse .reentrant) :=
  if_neg h

/-- While a call replays, a move that is not the replay's leaves the framer's fields, and of `rx` the bytes there. -/
theorem applyMove_frame_of_replay {m : Move} {s t : State} (hp : s.phase ≠ .idle) (hm : m ≠ .replay)
    (ht : applyMove m s = .next t) : FramerSame s t ∧ ∃ more, t.rx = s.rx ++ more := by
  have same : ∃ more, s.rx = s.rx ++ more := ⟨[], (List.append_nil _).symm⟩
  by_cases hx : ∃ x, m = .issue x
  · obtain ⟨x, rfl⟩ := hx
    simp only [applyMove] at ht
    rcases decodeTxn_cases x with hd | hd
    · rw [hd, exec, execProcessByte_of_replay hp] at ht
      cases ht
      exact ⟨framerSame_refl s, same⟩
    · have hstep := exec_commandStep hd ht
      exact ⟨hstep.framer, hstep.rx ▸ same⟩
  · obtain ⟨hframer, _, _, _, _, hrx, _⟩ := hostMove_frame (fun x h => hx ⟨x, h⟩) hm ht
    exact ⟨hframer, hrx⟩

/-- Settles O45: the replay reads `phase`, `scur` and `scratch`, which the framer alone writes, and a call of another agent
is refused. -/
theorem replayStaysEnabled : Obligations.ReplayStaysEnabled := by
  unfold Obligations.ReplayStaysEnabled
  intro s i h hp
  have hlt := (h.replay i hp).inside
  refine ⟨replayEnabled_iff.mpr ⟨i, hp, hlt⟩, fun m t hm ht => ?_⟩
  obtain ⟨hframer, more, hrx⟩ := applyMove_frame_of_replay (by simp [hp]) hm ht
  obtain ⟨_, _, hscratch, hscur, _, _, _, _, _, _, _, hphase⟩ := hframer
  exact ⟨hphase.trans hp, replayEnabled_iff.mpr ⟨i, hphase.trans hp, hscur ▸ hlt⟩, hscur, hscratch, by
    rw [hrx, List.take_left]⟩

end Sys2Proof.Machine
end

section
/-! The faults a step can record (O55): from a state that meets the invariant only RELEASE records one (R153, R178, R194). -/

namespace Sys2Proof.Machine

/-- The faults recorded in `t` stood in `s`, or are those of RELEASE (R164). -/
def OnlyReleaseFaults (s t : State) : Prop :=
  ∀ r ∈ t.faults, r ∈ s.faults ∨ r = .doubleRelease ∨ r = .releaseNotOwned

theorem onlyReleaseFaults_of_eq {s t : State} (h : t.faults = s.faults) : OnlyReleaseFaults s t :=
  fun _ hr => .inl (h ▸ hr)

/-- Raising a fault adds its reason to those recorded (R176). -/
@[simp] theorem mem_addFault {r x : FaultReason} {l : List FaultReason} : x ∈ addFault r l ↔ x = r ∨ x ∈ l := by
  unfold addFault
  split
  · rename_i hr
    exact ⟨.inr, fun hx => hx.elim (fun hx => hx ▸ hr) id⟩
  · simp [or_comm]

theorem takeFrame_faults {a : Agent} {s t : State} (h : takeFrame a s = .ok t) : t.faults = s.faults := by
  rcases takeFrame_eq_ok.mp h with ⟨_, _, _, rfl⟩ | ⟨_, rfl⟩ <;> rfl

theorem takePassthrough_faults {a : Agent} {s t : State} (h : takePassthrough a s = .ok t) : t.faults = s.faults := by
  rcases takePassthrough_eq_ok.mp h with ⟨_, _, _, rfl⟩ | ⟨_, rfl⟩ <;> rfl

/-- A release frees a handle, does nothing, or records one of its own two faults (R164). -/
theorem releaseHandle_onlyReleaseFaults {k : Handle} {s t : State} (h : (releaseHandle k s).outcome = .next t) :
    OnlyReleaseFaults s t := by
  rcases outcome_eq_next.mp h with hok | ⟨r, u, hraised, rfl⟩
  · rcases releaseHandle_eq_ok.mp hok with ⟨_, _, rfl⟩ | ⟨_, _, rfl⟩ <;> exact onlyReleaseFaults_of_eq rfl
  · obtain ⟨rfl, hreason⟩ := releaseHandle_eq_raised.mp hraised
    intro x hx
    rcases mem_addFault.mp hx with rfl | hx
    · exact .inr (hreason.symm.imp (fun ⟨_, _, h⟩ => h) fun ⟨_, _, h⟩ => h)
    · exact .inl hx

theorem exec_notFramer_onlyReleaseFaults {i : Instr} {s t : State} (hi : notFramer i = true) (h : s.Inv)
    (ht : exec i s = .next t) : OnlyReleaseFaults s t := by
  cases i <;> simp only [notFramer, reduceCtorEq] at hi
  case frameAvailable | passthroughAvailable | reserved =>
    cases ht
    exact onlyReleaseFaults_of_eq rfl
  case dequeueFrame a =>
    by_cases ha : a = .fc
    · obtain ⟨u, hu⟩ := takeFrame_goes_through .fc h.frames
      rw [ha, exec_dequeueFrame_consumer, hu] at ht
      cases ht
      exact onlyReleaseFaults_of_eq (takeFrame_faults hu)
    · rw [exec_dequeueFrame_other s ha] at ht
      cases ht
      exact onlyReleaseFaults_of_eq rfl
  case readPassthrough a =>
    by_cases ha : a = .pc
    · obtain ⟨u, hu⟩ := takePassthrough_goes_through .pc h.passthrough
      rw [ha, exec_readPassthrough_consumer, hu] at ht
      cases ht
      exact onlyReleaseFaults_of_eq (takePassthrough_faults hu)
    · rw [exec_readPassthrough_other s ha] at ht
      cases ht
      exact onlyReleaseFaults_of_eq rfl
  case sendFrame fr =>
    simp only [exec, execSendFrame] at ht
    split at ht <;> cases ht <;> exact onlyReleaseFaults_of_eq rfl
  case release fr =>
    simp only [exec, execRelease] at ht
    split at ht
    · cases ht
      exact onlyReleaseFaults_of_eq rfl
    · exact releaseHandle_onlyReleaseFaults ht

/-- A call is refused, reads nothing, or accepts its byte (O36). -/
theorem execProcessByte_faults {s t : State} (h : s.Inv) (ht : execProcessByte s = .next t) : t.faults = s.faults := by
  by_cases hi : s.phase = .idle
  · cases hrx : s.rx with
    | nil =>
      simp only [execProcessByte, hi, hrx, if_true] at ht
      cases ht
      rfl
    | cons b rest =>
      obtain ⟨u, hu, _, hfaults, _⟩ := processByteAcceptsEveryByte s b rest h hi hrx
      cases ht.symm.trans hu
      exact hfaults
  · rw [execProcessByte_of_replay hi] at ht
    cases ht
    rfl

/-- A replay step finds its byte captured, so it raises nothing (R140). -/
theorem execReplay_faults {s t : State} (h : s.Inv) (hen : s.replayEnabled = true) (ht : exec .replay s = .next t) :
    t.faults = s.faults := by
  obtain ⟨i, hp, hlt⟩ := replayEnabled_iff.mp hen
  obtain ⟨u, hu⟩ := replayStep_goes_through h hp
  rw [exec_replay_of_enabled hp hlt, hu] at ht
  cases ht
  obtain ⟨b, v, _, hv, rfl⟩ := replayStep_eq_ok.mp hu
  obtain ⟨q, _, rfl⟩ := enqPassthrough_ok h hv
  split <;> rfl

theorem applyMove_onlyReleaseFaults {m : Move} {s t : State} (h : s.Inv) (ht : applyMove m s = .next t) :
    OnlyReleaseFaults s t := by
  cases m with
  | issue x =>
    rcases decodeTxn_cases x with hx | hx
    · exact onlyReleaseFaults_of_eq (execProcessByte_faults h (by simpa only [applyMove, hx, exec] using ht))
    · exact exec_notFramer_onlyReleaseFaults hx h ht
  | replay =>
    simp only [applyMove] at ht
    split at ht
    · rename_i hen
      exact onlyReleaseFaults_of_eq (execReplay_faults h hen ht)
    · cases ht
      exact onlyReleaseFaults_of_eq rfl
  | _ =>
    cases ht
    exact onlyReleaseFaults_of_eq rfl

/-- Settles O55: a step starts with no fault recorded (R176), and its move records those of RELEASE only. -/
theorem onlyReleaseCanFault : Obligations.OnlyReleaseCanFault := by
  unfold Obligations.OnlyReleaseCanFault
  intro s t h ht r hr
  unfold step at ht
  split at ht
  · rename_i hf
    rcases applyMove_onlyReleaseFaults (nextMove_inv h) ht r hr with hold | hnew
    · simp [hf] at hold
    · exact hnew
  · cases ht

end Sys2Proof.Machine
end

section
/-! A call of the framer: it runs the row that the state and the byte select (O35), is refused while another replays (O38),
and makes at most one transition of the framing state (O40). -/

namespace Sys2Proof.Machine

/-! ### The call and its row -/

theorem decodeTxn_of_cmd_zero {x : Txn} (h : x.cmd = 0x00) : decodeTxn x = .processByte := by
  simp [decodeTxn, h]

/-- Settles O38: command 0 is PROCESS_BYTE whichever agent issues it, and outside Idle its answer is the refusal. -/
theorem reentrantCallIsRefused : Obligations.ReentrantCallIsRefused := by
  unfold Obligations.ReentrantCallIsRefused
  intro s x hx hp
  rw [decodeTxn_of_cmd_zero hx]
  exact execProcessByte_of_replay hp

theorem exec_processByte_of_empty {s : State} (hi : s.phase = .idle) (hrx : s.rx = []) :
    exec .processByte s = .next s := by
  simp [exec, execProcessByte, hi, hrx]

/-- A step that leaves no fault recorded has raised none. -/
theorem eq_ok_of_outcome {x : Res State} {t : State} (h : x.outcome = .next t) (hf : t.faults = []) : x = .ok t := by
  rcases outcome_eq_next.mp h with hok | ⟨r, u, _, rfl⟩
  · exact hok
  · have hr : r ∈ (u.recordFault r).faults := mem_addFault.mpr (.inl rfl)
    rw [hf] at hr
    cases hr

/-- Settles O35: no byte, a byte whose row goes through and is followed by ResetCheck, and a state without a row. -/
theorem processByteRunsTheSelectedRow : Obligations.ProcessByteRunsTheSelectedRow := by
  unfold Obligations.ProcessByteRunsTheSelectedRow
  refine ⟨fun s => exec_processByte_of_empty, fun s t b rest i hi _ hrx hd ht hf => ?_, fun s b rest hi hrx hs => ?_⟩
  · rw [decodeDispatch_word] at hd
    have hrow : rowRule i (s.withRx rest) = .ok t := eq_ok_of_outcome ((exec_row hd _).symm.trans ht) hf
    rw [processByte_read hi hrx, processRead_of_rule (s := s.withRx rest) hd hrow, outcome_ok]
    by_cases hs : s.state = .preambleWait <;> simp [hs, resetCheck]
  · refine ⟨(s.withRx rest).recordFault .badState, ?_, rfl⟩
    rw [processByte_read hi hrx, processRead_of_unused b (s := s.withRx rest) hs, outcome_raised]

/-! ### Transitions of the framing state -/

/-- The arrows of R154. -/
abbrev arrows : List (FsmState × FsmState) :=
  [(.preambleWait, .versionWait), (.versionWait, .titleWait), (.titleWait, .lengthWait), (.lengthWait, .endWait),
    (.lengthWait, .messageWait), (.messageWait, .endWait), (.endWait, .preambleWait)]

/-- What a row's rule does to the fields that say what comes next: it leaves the phase and the schedule, and the framing
state stays or moves along an arrow of R154, and then the rule has marked no reset. -/
structure RowMoves (s t : State) : Prop where
  phase : t.phase = s.phase
  sched : t.sched = s.sched
  moves : t.state = s.state ∨ (s.state, t.state) ∈ arrows ∧ (t.pending = true → s.pending = true)

theorem rowRule_moves {i : Instr} {s t : State} (h : rowRule i s = .ok t) : RowMoves s t := by
  cases i <;> simp only [rowRule, reduceCtorEq] at h
  case preStart =>
    obtain ⟨hs, _, rfl⟩ := rulePreStart_eq_ok.mp h
    exact ⟨rfl, rfl, .inr ⟨by simp [hs], nofun⟩⟩
  case prePass b =>
    rcases enqPassthrough_eq_ok.mp (rulePrePass_eq_ok.mp h).2 with ⟨_, _, rfl⟩ | ⟨_, rfl⟩ <;>
      exact ⟨rfl, rfl, .inl rfl⟩
  case verOk =>
    obtain ⟨hs, _, rfl⟩ := ruleVerOk_eq_ok.mp h
    exact ⟨rfl, rfl, .inr ⟨by simp [hs], id⟩⟩
  case verBad b =>
    obtain ⟨_, _, rfl⟩ := ruleVerBad_eq_ok.mp h
    exact ⟨rfl, rfl, .inl rfl⟩
  case title b =>
    obtain ⟨hs, _, rfl⟩ := ruleTitle_eq_ok.mp h
    exact ⟨rfl, rfl, .inr ⟨by simp [hs], id⟩⟩
  case lenZero =>
    obtain ⟨hs, _, rfl⟩ := ruleLenZero_eq_ok.mp h
    exact ⟨rfl, rfl, .inr ⟨by simp [hs], id⟩⟩
  case lenAlloc b =>
    obtain ⟨hs, _, _, k, _, rfl⟩ := ruleLenAlloc_eq_ok.mp h
    exact ⟨by simp, by simp, .inr ⟨by simp [hs], by simp⟩⟩
  case lenNomem b =>
    obtain ⟨_, _, _, _, rfl⟩ := ruleLenNomem_eq_ok.mp h
    exact ⟨by simp, by simp, .inl (by simp)⟩
  case lenBad b =>
    obtain ⟨_, _, rfl⟩ := ruleLenBad_eq_ok.mp h
    exact ⟨rfl, rfl, .inl rfl⟩
  case msgByte b =>
    obtain ⟨_, u, hu, rfl⟩ := ruleMsgByte_eq_ok.mp h
    obtain ⟨_, _, rfl⟩ := storePayloadByte_eq_ok.mp hu
    rw [releasePayloadIfPending_eq]
    exact ⟨by simp, by simp, .inl (by simp)⟩
  case msgLast b =>
    obtain ⟨⟨hs, _⟩, u, hu, rfl⟩ := ruleMsgLast_eq_ok.mp h
    obtain ⟨_, _, rfl⟩ := storePayloadByte_eq_ok.mp hu
    rw [releasePayloadIfPending_eq]
    exact ⟨by simp, by simp, .inr ⟨by simp [hs], by simp⟩⟩
  case endOk =>
    obtain ⟨⟨hs, _⟩, _, _, fr, _, rfl⟩ := ruleEndOk_eq_ok.mp h
    exact ⟨rfl, rfl, .inr ⟨by simp [hs], id⟩⟩
  case endFull =>
    obtain ⟨_, _, _, rfl⟩ := ruleEndFull_eq_ok.mp h
    exact ⟨by simp, by simp, .inl (by simp)⟩
  case endBad b =>
    obtain ⟨_, _, rfl⟩ := ruleEndBad_eq_ok.mp h
    exact ⟨by simp, by simp, .inl (by simp)⟩

/-- A row that raises has not moved. -/
theorem rowRule_raised_state {i : Instr} {s t : State} {r : FaultReason} (h : rowRule i s = .raised r t) :
    t.state = s.state := by
  rcases rowRule_eq_raised h with ⟨_, rfl | rfl⟩ | ⟨_, rfl⟩ <;> rfl

/-- The first step of a call stays, or moves along an arrow of R154, once its byte is read. -/
theorem processRead_moves {b : Byte} {s t : State} (h : (processRead b s).outcome = .next t) :
    t.state = s.state ∨ (s.state, t.state) ∈ arrows := by
  rcases processRead_cases (b := b) (s := s) with
    ⟨i, u, _, hu, hp⟩ | ⟨i, r, u, _, hu, hp⟩ | ⟨hp, _⟩ | ⟨f, hp⟩ | ⟨r, hp⟩ <;> rw [hp] at h <;> cases h
  · have hmoves := (rowRule_moves hu).moves.imp_right And.left
    split
    · exact hmoves
    · rwa [resetCheck_state]
  · exact .inl ((recordFault_state r u).trans (rowRule_raised_state hu))
  · exact .inl rfl

theorem exec_processByte_moves {s t : State} (h : exec .processByte s = .next t) :
    t.state = s.state ∨ (s.state, t.state) ∈ arrows := by
  by_cases hi : s.phase = .idle
  · cases hrx : s.rx with
    | nil =>
      rw [exec_processByte_of_empty hi hrx] at h
      cases h
      exact .inl rfl
    | cons b rest =>
      rw [processByte_read hi hrx] at h
      exact processRead_moves (s := s.withRx rest) h
  · cases (execProcessByte_of_replay hi).symm.trans h
    exact .inl rfl

/-- A call that goes on after its first step has met an abort row, and no abort row moves (R139, R142). -/
theorem exec_processByte_stays_of_replay {s t : State} (h : s.Inv) (hi : s.phase = .idle)
    (ht : exec .processByte s = .next t) (hp : t.phase ≠ .idle) : t.state = s.state := by
  cases hrx : s.rx with
  | nil =>
    rw [exec_processByte_of_empty hi hrx] at ht
    cases ht
    rfl
  | cons b rest =>
    obtain ⟨i, u, _, hu, rfl⟩ := processByte_row h hi hrx ht
    obtain ⟨hphase, _, hmoves⟩ := rowRule_moves hu
    have hidle : u.phase = .idle := hphase.trans hi
    split at hp
    · exact absurd hidle hp
    · rename_i hs
      rw [if_neg hs, resetCheck_state]
      have hpend : u.pending = true := by
        by_contra hclear
        exact hp (by simp [hclear, hidle])
      rcases hmoves with hstay | ⟨_, hmark⟩
      · exact hstay
      · exact absurd (hmark hpend) (by simp [(h.idle hi).pending])

/-- A replay step leaves the framing state, but for the last, which ends the call in PreambleWait (R140, R141). -/
theorem exec_replay_moves {s t : State} (h : exec .replay s = .next t) :
    t.state = s.state ∨ t.state = .preambleWait ∧ t.phase = .idle := by
  have hen : s.replayEnabled = true := by
    by_contra hno
    have := replayNeedsAReplayInProgress s fun i hp => not_lt.mp fun hlt => hno (replayEnabled_iff.mpr ⟨i, hp, hlt⟩)
    simp [this] at h
  obtain ⟨i, hp, hlt⟩ := replayEnabled_iff.mp hen
  rw [exec_replay_of_enabled hp hlt] at h
  rcases outcome_eq_next.mp h with hok | ⟨r, u, hraised, rfl⟩
  · obtain ⟨b, u, _, hu, rfl⟩ := replayStep_eq_ok.mp hok
    split
    · exact .inr ⟨rfl, rfl⟩
    · rcases enqPassthrough_eq_ok.mp hu with ⟨_, _, rfl⟩ | ⟨_, rfl⟩ <;> exact .inl rfl
  · obtain ⟨_, _, rfl⟩ := replayStep_eq_raised hraised
    exact .inl rfl

/-- Settles O40: a row that moves has marked no reset, so the call that makes a transition in its first step ends there. -/
theorem atMostOneTransition : Obligations.AtMostOneTransition :=
  ⟨fun _ _ => exec_processByte_moves, fun _ _ => exec_processByte_stays_of_replay, fun _ _ => exec_replay_moves⟩

end Sys2Proof.Machine
end

section
/-! Round trip (O58, R150): a framer that is fed the bytes SEND_FRAME writes for a record captures them one by one, and
enqueues the record they spell. -/

namespace Sys2Proof.Machine

/-! ### The bytes of a record -/

theorem wireBytes_inj {fr gr : FrameRec} (h : wireBytes fr = wireBytes gr) :
    fr.version = gr.version ∧ fr.title = gr.title ∧ fr.length = gr.length ∧ payloadBytes fr = payloadBytes gr := by
  simpa [wireBytes] using h

/-- A record is well-formed (R34) when it has the supported version, a length below the bound, and a payload as R162 wants
it. -/
theorem wellFormed_iff {fr : FrameRec} :
    FrameRec.wellFormed fr = true ↔
      fr.version = Config.version ∧ fr.length.toNat < Config.maxLength ∧ sendOperandOk fr = true := by
  have : FrameRec.wellFormed fr =
      (decide (fr.version = Config.version) && decide (fr.length.toNat < Config.maxLength) && sendOperandOk fr) := rfl
  simp only [this, Bool.and_eq_true, decide_eq_true_eq, and_assoc]

theorem length_payloadBytes {fr : FrameRec} (h : sendOperandOk fr = true) :
    (payloadBytes fr).length = fr.length.toNat := by
  unfold sendOperandOk at h
  unfold payloadBytes
  split at h
  · simp [of_decide_eq_true h]
  · exact (of_decide_eq_true h).2

/-- What SEND_FRAME adds to `tx` for a well-formed record (R160). -/
theorem bytes_of_sendFrame {s : State} {fr : FrameRec} {bytes : List Byte} (h : FrameRec.wellFormed fr = true)
    (hs : exec (.sendFrame fr) s = .next { s with tx := s.tx ++ bytes }) : bytes = wireBytes fr := by
  obtain ⟨_, _, hok⟩ := wellFormed_iff.mp h
  have hsend : exec (.sendFrame fr) s = .next { s with tx := s.tx ++ wireBytes fr } :=
    if_pos hok
  have htx : s.tx ++ wireBytes fr = s.tx ++ bytes := congrArg State.tx (Host.Outcome.next.inj (hsend.symm.trans hs))
  exact (List.append_cancel_left htx).symm

/-! ### The captured bytes spell the header and the record -/

/-- The captured bytes of a frame in progress stand in the first `scur` cells. -/
theorem take_scratch_of_idle {s : State} (h : s.Inv) (hi : s.phase = .idle) (hs : s.state ≠ .preambleWait) :
    s.scratch.take s.scur = s.capturedBytes.map some ∧ s.capturedBytes.length = s.scur := by
  have hidle := h.idle hi
  have hall := captured_of_idle hidle hs
  exact ⟨take_scratch_eq_capturedBytes hall, length_capturedBytes (scur_lt_scratch h.range hidle hs).le hall⟩

/-- The header registers repeat the first four captured bytes (R45). -/
theorem header_of_captured {s : State} {p v t len : Byte} {more : List Byte} (hh : HeaderCaptured s)
    (hc : s.scratch.take s.scur = (p :: v :: t :: len :: more).map some) (h4 : 4 ≤ s.scur) :
    p = Config.preamble ∧ v = Config.version ∧ s.fTitle = some t ∧ s.fLength = some len := by
  obtain ⟨_, _, _, hhead⟩ := hh
  have htake : (s.scratch.take s.scur).take 4 = s.scratch.take 4 := by rw [List.take_take, Nat.min_eq_left h4]
  rw [hc, show s.scratch.take 4 = _ from hhead] at htake
  simpa [eq_comm] using htake

/-- The record of a frame that reaches EndWait is the one its captured bytes spell, but for the terminator (R135). -/
theorem wireBytes_of_frameInProgress {s : State} {gr : FrameRec} (h : s.Inv) (hi : s.phase = .idle)
    (hs : s.state = .endWait) (hf : FrameInProgress s gr) : wireBytes gr = s.capturedBytes ++ [Config.terminator] := by
  obtain ⟨htake, _⟩ := take_scratch_of_idle h hi (by simp [hs])
  obtain ⟨⟨hversion, _, _, hhead⟩, _, hcur, _⟩ := (h.idle hi).endWait hs
  obtain ⟨hsame, _⟩ := payloadCaptured_of_endWait (h.idle hi) hs
  obtain ⟨hv, ht, hl, hempty, hfull⟩ := hf
  have hpayload : s.pbuf.take s.frameLength = (payloadBytes gr).map some := by
    rw [frameLength_eq hl]
    rcases Nat.eq_zero_or_pos gr.length.toNat with h0 | hpos
    · simp [h0, payloadBytes, hempty h0]
    · obtain ⟨p, hp, _, hbytes, _⟩ := hfull hpos
      simp [payloadBytes, hp, hbytes]
  have hcaptured : s.capturedBytes.map some =
      ([Config.preamble, gr.version, gr.title, gr.length] ++ payloadBytes gr).map some := by
    rw [← htake, hcur, List.take_add, ← hsame, hpayload, show s.scratch.take 4 = _ from hhead, ← hversion, hv, ht, hl]
    rfl
  rw [List.map_injective_iff.mpr (Option.some_injective _) hcaptured]
  rfl

/-! ### A fed byte -/

/-- A framer at a call boundary that the schedule feeds the bytes `left`, one per call, before the moves `rest` (R88). -/
structure Fed (rest : List Move) (left : List Byte) (t : State) : Prop where
  inv : t.Inv
  faults : t.faults = []
  phase : t.phase = .idle
  rx : t.rx = []
  sched : t.sched = feed left ++ rest

/-- The two moves that feed a byte append it to `rx` and call on it. -/
theorem run_feed {rest : List Move} {b : Byte} {left : List Byte} {t u : State} (h : Fed rest (b :: left) t)
    (hcall : processRead b { t with sched := feed left ++ rest } = .ok u) (n : Nat) :
    Host.Core.run core (n + 2) t = Host.Core.run core n u := by
  have happend : step t = .next { t with sched := .issue processTxn :: (feed left ++ rest), rx := [b] } := by
    rw [step_of_sched_cons h.faults h.sched, applyMove, State.hostRx, h.rx]
    rfl
  have hread : step { t with sched := .issue processTxn :: (feed left ++ rest), rx := [b] } = .next u := by
    have hrx : { t with sched := feed left ++ rest, rx := [] } = { t with sched := feed left ++ rest } := by rw [← h.rx]
    refine (step_of_sched_cons (by exact h.faults) (by rfl)).trans ?_
    refine (processByte_read (by exact h.phase) (by rfl)).trans ?_
    rw [← outcome_ok, ← hcall, ← hrx]
    rfl
  exact (run_succ happend (n + 1)).trans (run_succ hread n)

/-- A fed byte whose row marks no reset: the call ends with the row's rule. -/
theorem Fed.next {rest : List Move} {b : Byte} {left : List Byte} {t u : State} {i : Instr} (h : Fed rest (b :: left) t)
    (hd : decodeRow t.state b t.rowCond = .ok i) (hu : rowRule i { t with sched := feed left ++ rest } = .ok u)
    (hp : u.pending = false) :
    Fed rest left u ∧ ∀ n, Host.Core.run core (n + 2) t = Host.Core.run core n u := by
  have hend : (if t.state = .preambleWait then u else resetCheck u) = u := by simp [resetCheck, hp]
  have hinv : State.Inv { t with sched := feed left ++ rest } :=
    inv_of_same h.inv (framerSame_refl t) rfl rfl rfl rfl rfl
  have hcall := processRead_of_rule (s := { t with sched := feed left ++ rest }) hd hu
  have hkept := rowRule_inv hinv h.phase hu
  obtain ⟨hphase, hsched, _⟩ := rowRule_moves hu
  rw [hend] at hcall hkept
  exact ⟨⟨hkept, (rowRule_marksSame hu).faults.trans h.faults, hphase.trans h.phase,
    (rowRule_framerStep hu).rx.trans h.rx, hsched⟩, run_feed h hcall⟩

end Sys2Proof.Machine
end

section
/-! Round trip (O58, R150), the frame byte by byte: the header, the payload, and the terminator that enqueues the record. -/

namespace Sys2Proof.Machine

/-! ### A frame that is being received -/

/-- The framer in the middle of a frame, fed from the state `s` on: it has captured `got` and is to be fed `left`; the
queues are as in `s`, and an allocation it holds is fresh in `s`. -/
structure Receiving (s : State) (rest : List Move) (got left : List Byte) (t : State) : Prop extends Fed rest left t where
  captured : t.capturedBytes = got
  refused : t.refused = s.refused
  pq : t.pq = s.pq
  fq : t.fq = s.fq
  fresh : ∀ h ∈ t.fHandle, h ∉ s.live ∧ h ∉ s.freed
  reached : ∀ n, Host.Core.run core (2 * got.length + n) s = Host.Core.run core n t

/-- The allocator's sets and the next draw are the same in two states. -/
structure AllocatorSame (s t : State) : Prop where
  live : t.live = s.live
  freed : t.freed = s.freed
  draw : t.peekDraw = s.peekDraw

section
variable {s t u : State} {rest : List Move} {got left : List Byte} {b : Byte}

theorem Receiving.pending_clear (h : Receiving s rest got left t) : t.pending = false := (h.inv.idle h.phase).pending

theorem Receiving.room (h : Receiving s rest got left t) (hs : t.state ≠ .preambleWait) : t.scur < t.scratch.length :=
  scur_lt_scratch h.inv.range (h.inv.idle h.phase) hs

/-- A fed byte outside PreambleWait whose row marks no reset and enqueues no frame. -/
theorem Receiving.next {i : Instr} (h : Receiving s rest got (b :: left) t) (hs : t.state ≠ .preambleWait)
    (hd : decodeRow t.state b t.rowCond = .ok i) (hu : rowRule i { t with sched := feed left ++ rest } = .ok u)
    (hp : u.pending = false) (hq : u.fq = t.fq) (hfresh : ∀ h ∈ u.fHandle, h ∉ s.live ∧ h ∉ s.freed) :
    Receiving s rest (got ++ [b]) left u := by
  obtain ⟨hfed, hrun⟩ := h.toFed.next hd hu hp
  have hcaptures := rowRule_captures (s := { t with sched := feed left ++ rest }) hs hd hu
  refine ⟨hfed, hcaptures.capturedBytes.trans (congrArg (· ++ [b]) h.captured),
    (rowRule_marksSame hu).refused.trans h.refused, hcaptures.pq.trans h.pq, hq.trans h.fq, hfresh, fun n => ?_⟩
  rw [← hrun, ← h.reached, List.length_append, List.length_singleton]
  congr 1
  omega

/-! ### The header -/

/-- The first byte of a frame (R123). -/
theorem receive_preamble (h : Fed rest (Config.preamble :: left) s) (hs : s.state = .preambleWait) :
    ∃ t, Receiving s rest [Config.preamble] left t ∧ AllocatorSame s t ∧ t.state = .versionWait := by
  have hpos : 0 < s.scratch.length := lt_of_lt_of_le (by decide) h.inv.range.1
  have hnone := (h.inv.idle h.phase).preambleWait hs
  have hd : decodeRow s.state Config.preamble s.rowCond = .ok .preStart := by simp [decodeRow, hs]
  obtain ⟨hfed, hrun⟩ := h.next hd (rulePreStart_eq_ok.mpr ⟨hs, hpos, rfl⟩) rfl
  have hhead : (s.scratch.set 0 (some Config.preamble)).take 1 = [some Config.preamble] := take_set_succ _ 0 _ hpos
  exact ⟨_, ⟨hfed, congrArg (List.filterMap id) hhead, rfl, rfl, rfl, by simp [hnone],
    fun n => by rw [← hrun, Nat.add_comm]; rfl⟩, ⟨rfl, rfl, rfl⟩, rfl⟩

/-- The version byte (R125). -/
theorem receive_version (h : Receiving s rest got (Config.version :: left) t) (ha : AllocatorSame s t)
    (hs : t.state = .versionWait) :
    ∃ u, Receiving s rest (got ++ [Config.version]) left u ∧ AllocatorSame s u ∧ u.state = .titleWait := by
  have hne : t.state ≠ .preambleWait := by simp [hs]
  have hd : decodeRow t.state Config.version t.rowCond = .ok .verOk := by simp [decodeRow, hs]
  exact ⟨_, h.next hne hd (ruleVerOk_eq_ok.mpr ⟨hs, h.room hne, rfl⟩) h.pending_clear rfl h.fresh,
    ⟨ha.live, ha.freed, ha.draw⟩, rfl⟩

/-- The title byte (R127). -/
theorem receive_title (h : Receiving s rest got (b :: left) t) (ha : AllocatorSame s t) (hs : t.state = .titleWait) :
    ∃ u, Receiving s rest (got ++ [b]) left u ∧ AllocatorSame s u ∧ u.state = .lengthWait := by
  have hne : t.state ≠ .preambleWait := by simp [hs]
  have hd : decodeRow t.state b t.rowCond = .ok (.title b) := by simp [decodeRow, hs]
  exact ⟨_, h.next hne hd (ruleTitle_eq_ok.mpr ⟨hs, h.room hne, rfl⟩) h.pending_clear rfl h.fresh,
    ⟨ha.live, ha.freed, ha.draw⟩, rfl⟩

/-- A length of zero (R128). -/
theorem receive_length_zero (h : Receiving s rest got (0 :: left) t) (hs : t.state = .lengthWait) :
    ∃ u, Receiving s rest (got ++ [0]) left u ∧ u.state = .endWait := by
  have hne : t.state ≠ .preambleWait := by simp [hs]
  have hd : decodeRow t.state 0 t.rowCond = .ok .lenZero := by simp [decodeRow, hs]
  exact ⟨_, h.next hne hd (ruleLenZero_eq_ok.mpr ⟨hs, h.room hne, rfl⟩) h.pending_clear rfl h.fresh, rfl⟩

/-- A length with a payload, the draw answering `ok`: the allocation is fresh (R129). -/
theorem receive_length_payload (h : Receiving s rest got (b :: left) t) (ha : AllocatorSame s t)
    (hs : t.state = .lengthWait) (hb : payloadLength b = true) (hok : s.drawOk = true) :
    ∃ u, Receiving s rest (got ++ [b]) left u ∧ u.state = .messageWait := by
  have hne : t.state ≠ .preambleWait := by simp [hs]
  obtain ⟨h0, hshort⟩ := payloadLength_iff.mp hb
  obtain ⟨k, hk⟩ : ∃ k, t.peekDraw = .ok k := by
    rw [State.drawOk, ← ha.draw] at hok
    cases hdraw : t.peekDraw with
    | ok k => exact ⟨k, rfl⟩
    | fail => simp [hdraw] at hok
  have hd : decodeRow t.state b t.rowCond = .ok (.lenAlloc b) := by
    rw [hs]
    exact (if_neg h0).trans ((if_pos hshort).trans (if_pos (by simp [State.rowCond, State.drawOk, hk])))
  have hu := ruleLenAlloc_eq_ok (s := { t with sched := feed left ++ rest }).mpr ⟨hs, hb, h.room hne, k, hk, rfl⟩
  obtain ⟨hlive, hfreed⟩ := freshen_fresh k { t with sched := feed left ++ rest }
  refine ⟨_, h.next hne hd hu (by simp [h.pending_clear]) (by simp) fun x hx => ?_, rfl⟩
  obtain rfl : freshen k { t with sched := feed left ++ rest } = x := by simpa using hx
  exact ⟨ha.live ▸ hlive, ha.freed ▸ hfreed⟩

/-! ### The payload -/

/-- A payload byte (R132, R133): the last is the one after which none remains. -/
theorem receive_payload_byte (h : Receiving s rest got (b :: left) t) (hs : t.state = .messageWait) :
    ∃ u, Receiving s rest (got ++ [b]) left u ∧ u.state = if 2 ≤ t.rem then .messageWait else .endWait := by
  have hne : t.state ≠ .preambleWait := by simp [hs]
  have hinv : State.Inv { t with sched := feed left ++ rest } :=
    inv_of_same h.inv (framerSame_refl t) rfl rfl rfl rfl rfl
  obtain ⟨w, hw⟩ := storePayloadByte_goes_through hinv h.phase hs b
  obtain ⟨hclear, hstate, hfq, hheld⟩ :
      w.pending = false ∧ w.state = .messageWait ∧ w.fq = t.fq ∧ w.fHandle = t.fHandle := by
    obtain ⟨_, _, rfl⟩ := storePayloadByte_eq_ok.mp hw
    exact ⟨h.pending_clear, hs, rfl, rfl⟩
  have hfresh := hheld ▸ h.fresh
  obtain ⟨_, _, _, _, hrem, _⟩ := (h.inv.idle h.phase).messageWait hs
  by_cases h2 : 2 ≤ t.rem
  · have hd : decodeRow t.state b t.rowCond = .ok (.msgByte b) := by simp [decodeRow, hs, State.rowCond, h2]
    have hu := (ruleMsgByte_eq_ok (s := { t with sched := feed left ++ rest })).mpr
      ⟨⟨hs, h2⟩, w, hw, (releasePayloadIfPending_of_clear hclear).symm⟩
    exact ⟨w, h.next hne hd hu hclear hfq hfresh, hstate.trans (if_pos h2).symm⟩
  · have h1 : t.rem = 1 := by omega
    have hd : decodeRow t.state b t.rowCond = .ok (.msgLast b) := by simp [decodeRow, hs, State.rowCond, h1]
    have hu := (ruleMsgLast_eq_ok (s := { t with sched := feed left ++ rest })).mpr
      ⟨⟨hs, h1⟩, w, hw, (releasePayloadIfPending_of_clear (by exact hclear)).symm⟩
    exact ⟨_, h.next hne hd hu hclear hfq hfresh, (if_neg h2).symm⟩

/-- In MessageWait the captured length byte says how many bytes remain (R45). -/
theorem remaining_of_captured {p v ti len : Byte} {done : List Byte}
    (h : Receiving s rest (p :: v :: ti :: len :: done) left t) (hs : t.state = .messageWait) :
    done.length + t.rem = len.toNat := by
  obtain ⟨htake, hcount⟩ := take_scratch_of_idle h.inv h.phase (by simp [hs])
  obtain ⟨hheader, _, _, hsum, _, hcur, _⟩ := (h.inv.idle h.phase).messageWait hs
  rw [h.captured] at htake hcount
  obtain ⟨_, _, _, hlen⟩ := header_of_captured hheader htake (by omega)
  rw [frameLength_eq hlen] at hsum
  simp only [List.length_cons] at hcount
  omega

/-- Induction on the payload bytes left: the framer stays in MessageWait until the last. -/
theorem receive_payload {p v ti len : Byte} (bs done : List Byte) (t : State) (hne : bs ≠ [])
    (h : Receiving s rest (p :: v :: ti :: len :: done) (bs ++ left) t) (hs : t.state = .messageWait)
    (hlen : done.length + bs.length = len.toNat) :
    ∃ u, Receiving s rest (p :: v :: ti :: len :: (done ++ bs)) left u ∧ u.state = .endWait := by
  induction bs generalizing done t with
  | nil => exact absurd rfl hne
  | cons b bs ih =>
    obtain ⟨u, hu, hstate⟩ := receive_payload_byte h hs
    have hrem := remaining_of_captured h hs
    rw [List.length_cons] at hlen
    rcases bs with _ | ⟨c, bs⟩
    · rw [List.length_nil] at hlen
      rw [if_neg (by omega)] at hstate
      exact ⟨u, hu, hstate⟩
    · have hlen' : (done ++ [b]).length + (c :: bs).length = len.toNat := by
        rw [List.length_append, List.length_singleton]
        omega
      rw [List.length_cons] at hlen
      rw [if_pos (by omega)] at hstate
      simpa using ih (done ++ [b]) u (by simp) hu hstate hlen'

/-! ### The terminator -/

/-- The terminator, with room in `F` (R135): the record that the captured bytes spell is enqueued. -/
theorem receive_terminator (h : Receiving s rest got [Config.terminator] t) (hs : t.state = .endWait)
    (hroom : s.fq.fill < s.fq.cap) :
    ∃ u gr, Fed rest [] u ∧ (∀ n, Host.Core.run core (2 * (got.length + 1) + n) s = Host.Core.run core n u) ∧
      u.state = .preambleWait ∧ u.refused = s.refused ∧ u.pq = s.pq ∧ u.fq.items = s.fq.items ++ [gr] ∧
      wireBytes gr = got ++ [Config.terminator] ∧ ∀ k ∈ gr.handle?, k ∉ s.live ∧ k ∉ s.freed := by
  have hidle := h.inv.idle h.phase
  obtain ⟨gr, hgr⟩ := frameInProgress_of_endWait h.inv.range hidle hs
  have hroom' : t.fq.fill < t.fq.cap := by rwa [h.fq]
  obtain ⟨_, _, hwr, _⟩ := h.inv.frames
  have hd : decodeRow t.state Config.terminator t.rowCond = .ok .endOk := by
    simp [decodeRow, hs, State.rowCond, hroom']
  obtain ⟨hfed, hrun⟩ := h.toFed.next hd
    (ruleEndOk_eq_ok.mpr ⟨⟨hs, hroom'⟩, h.room (by simp [hs]), hwr, gr, hgr, rfl⟩) h.pending_clear
  refine ⟨_, gr, hfed, fun n => ?_, rfl, h.refused, h.pq, ?_, ?_, ?_⟩
  · rw [← hrun, ← h.reached]
    congr 1
    omega
  · exact (items_enq gr h.inv.frames hroom').trans (by rw [h.fq])
  · rw [wireBytes_of_frameInProgress h.inv h.phase hs hgr, h.captured]
  · rw [handle_of_frameInProgress hidle hs hgr]
    exact h.fresh

end

/-! ### The whole frame -/

/-- From the preamble to EndWait: the header, then the payload where there is one. -/
theorem receive_record {s : State} {rest : List Move} {left : List Byte} {fr : FrameRec}
    (hwf : FrameRec.wellFormed fr = true)
    (h : Fed rest ([Config.preamble, fr.version, fr.title, fr.length] ++ payloadBytes fr ++ left) s)
    (hs : s.state = .preambleWait) (hok : 0 < fr.length.toNat → s.drawOk = true) :
    ∃ t, Receiving s rest ([Config.preamble, fr.version, fr.title, fr.length] ++ payloadBytes fr) left t ∧
      t.state = .endWait := by
  obtain ⟨hversion, hshort, hoperand⟩ := wellFormed_iff.mp hwf
  have hcount := length_payloadBytes hoperand
  rw [hversion] at h ⊢
  obtain ⟨t₁, h₁, ha₁, hs₁⟩ := receive_preamble h hs
  obtain ⟨t₂, h₂, ha₂, hs₂⟩ := receive_version h₁ ha₁ hs₁
  obtain ⟨t₃, h₃, ha₃, hs₃⟩ := receive_title h₂ ha₂ hs₂
  rcases Nat.eq_zero_or_pos fr.length.toNat with h0 | hpos
  · have hz : fr.length = 0 := BitVec.eq_of_toNat_eq h0
    have hnil : payloadBytes fr = [] := List.length_eq_zero_iff.mp (hcount.trans h0)
    rw [hz, hnil] at h₃ ⊢
    exact receive_length_zero h₃ hs₃
  · have hclass : payloadLength fr.length = true := decide_eq_true ⟨hpos, hshort⟩
    obtain ⟨t₄, h₄, hs₄⟩ := receive_length_payload h₃ ha₃ hs₃ hclass (hok hpos)
    have hne : payloadBytes fr ≠ [] := List.ne_nil_of_length_pos (hcount ▸ hpos)
    exact receive_payload _ [] t₄ hne h₄ hs₄ (by simpa using hcount)

/-- Settles O58: the bytes spell the record, the framer captures them one by one, and the record it enqueues is the one its
captured bytes spell. -/
theorem sentFrameComesBack : Obligations.SentFrameComesBack := by
  unfold Obligations.SentFrameComesBack
  intro s s₀ fr bytes rest hwf hsend h hf hi hs hrx hok hroom hsched
  obtain rfl := bytes_of_sendFrame hwf hsend
  obtain ⟨t, ht, hend⟩ := receive_record (left := [Config.terminator]) hwf ⟨h, hf, hi, hrx, hsched⟩ hs hok
  obtain ⟨u, gr, hfed, hrun, hstate, hrefused, hpq, hfq, hwire, hfresh⟩ := receive_terminator ht hend hroom
  obtain ⟨hversion, htitle, hlength, hpayload⟩ := wireBytes_inj (fr := gr) (gr := fr) hwire
  refine ⟨u, gr, ?_, hfed.sched, hstate, hfed.phase, hfed.faults, hrefused, hpq, hfq, hversion, htitle, hlength, hpayload,
    hfresh⟩
  have hall := hrun 0
  rwa [Nat.add_zero, ← List.length_singleton (a := Config.terminator), ← List.length_append] at hall

end Sys2Proof.Machine
end

section
/-! The rows of the framing state machine as instructions (O21 to O34): each answers the state its rule gives (R123 to
R138). -/

namespace Sys2Proof.Machine

/-- A step whose operations give a state goes on in it. -/
theorem outcome_of_ok {x : Res State} {t : State} (h : x = .ok t) : x.outcome = .next t := by rw [h, outcome_ok]

/-! ### PreambleWait -/

/-- Settles O21, by `rulePreStart_eq_ok`. -/
theorem preStartBeginsAFrame : Obligations.PreStartBeginsAFrame :=
  fun _ hs hpos => outcome_of_ok (rulePreStart_eq_ok.mpr ⟨hs, hpos, rfl⟩)

/-- Settles O22, by the two answers of `Enq(P)`. -/
theorem prePassOffersTheByte : Obligations.PrePassOffersTheByte := by
  unfold Obligations.PrePassOffersTheByte
  refine fun s b hs hb => ⟨fun hroom hwr => ?_, fun hfull => ?_⟩
  · exact outcome_of_ok (rulePrePass_eq_ok.mpr ⟨⟨hs, hb⟩, enqPassthrough_eq_ok.mpr (.inl ⟨hroom, hwr, rfl⟩)⟩)
  · exact outcome_of_ok
      (rulePrePass_eq_ok.mpr ⟨⟨hs, hb⟩, enqPassthrough_eq_ok.mpr (.inr ⟨Nat.not_lt.mpr hfull, rfl⟩)⟩)

/-! ### VersionWait and TitleWait -/

/-- Settles O23, by `ruleVerOk_eq_ok`. -/
theorem verOkStoresTheVersion : Obligations.VerOkStoresTheVersion :=
  fun _ hs hroom => outcome_of_ok (ruleVerOk_eq_ok.mpr ⟨hs, hroom, rfl⟩)

/-- Settles O24, by `ruleVerBad_eq_ok`. -/
theorem verBadSetsPending : Obligations.VerBadSetsPending :=
  fun _ _ hs hb hroom => outcome_of_ok (ruleVerBad_eq_ok.mpr ⟨⟨hs, hb⟩, hroom, rfl⟩)

/-- Settles O25, by `ruleTitle_eq_ok`. -/
theorem titleStoresAnyByte : Obligations.TitleStoresAnyByte :=
  fun _ _ hs hroom => outcome_of_ok (ruleTitle_eq_ok.mpr ⟨hs, hroom, rfl⟩)

/-! ### LengthWait -/

/-- Settles O26, by `ruleLenZero_eq_ok`. -/
theorem lenZeroSkipsThePayload : Obligations.LenZeroSkipsThePayload :=
  fun _ hs hroom => outcome_of_ok (ruleLenZero_eq_ok.mpr ⟨hs, hroom, rfl⟩)

theorem payloadLength_of_bounds {b : Byte} (h1 : 1 ≤ b.toNat) (h49 : b.toNat ≤ 49) : payloadLength b = true :=
  decide_eq_true ⟨h1, Nat.lt_succ_of_le h49⟩

/-- A draw uses up the answer the host fixed, or else one free value (log 3). -/
theorem takeDraw_eq (s : State) :
    s.takeDraw = { s with nextAlloc := none, ticks := if s.nextAlloc.isSome then s.ticks else s.ticks + 1 } := by
  unfold State.takeDraw
  split <;> rename_i h <;> simp [h]

/-- Settles O27: the handle is the drawn one made fresh, by `ruleLenAlloc_eq_ok`. -/
theorem lenAllocTakesAFreshHandle : Obligations.LenAllocTakesAFreshHandle := by
  unfold Obligations.LenAllocTakesAFreshHandle
  intro s b h hs h1 h49 hroom hdraw
  obtain ⟨hlive, hfreed⟩ := freshen_fresh h s
  refine ⟨freshen h s, hlive, hfreed, freshen_of_fresh, ?_⟩
  refine outcome_of_ok (ruleLenAlloc_eq_ok.mpr ⟨hs, payloadLength_of_bounds h1 h49, hroom, h, hdraw, ?_⟩)
  rw [takeDraw_eq]
  rfl

/-- Settles O28, by `ruleLenNomem_eq_ok`. -/
theorem lenNomemSetsPending : Obligations.LenNomemSetsPending := by
  unfold Obligations.LenNomemSetsPending
  intro s b hs h1 h49 hroom hdraw
  have hfail : s.drawOk = false := by simp [State.drawOk, hdraw]
  refine outcome_of_ok (ruleLenNomem_eq_ok.mpr ⟨hs, payloadLength_of_bounds h1 h49, hroom, hfail, ?_⟩)
  rw [takeDraw_eq]
  rfl

/-- Settles O29, by `ruleLenBad_eq_ok`. -/
theorem lenBadSetsPending : Obligations.LenBadSetsPending :=
  fun _ _ hs hb hroom => outcome_of_ok (ruleLenBad_eq_ok.mpr ⟨⟨hs, hb⟩, hroom, rfl⟩)

/-! ### The payload's release -/

/-- EndRelease with a reset pending and a payload held (R138). -/
theorem endRelease_of_held {s : State} {h : Handle} (hp : s.pending = true) (hh : s.fHandle = some h) :
    endRelease s = { s with fHandle := none, live := removeHandle h s.live, freed := insertHandle h s.freed } := by
  simp [endRelease, State.dropPayload, State.freeHandle, hp, hh]

/-- EndRelease with no reset pending or no payload held does nothing (R138). -/
theorem endRelease_of_not_held {s : State} (h : s.pending = false ∨ s.fHandle = none) : endRelease s = s := by
  rcases h with h | h <;> simp [endRelease, State.dropPayload, h]

/-! ### MessageWait -/

/-- Settles O30: the byte is stored, and MessageWait's pending clause acts as EndRelease would (R134). -/
theorem msgByteStoresAnyByte : Obligations.MsgByteStoresAnyByte := by
  unfold Obligations.MsgByteStoresAnyByte
  rintro s t b hs hrem hroom hcell rfl
  have hstore := storePayloadByte_eq_ok (b := b).mpr ⟨hroom, hcell, rfl⟩
  refine ⟨fun hclear => ?_, fun h hp hh => ?_⟩
  · exact outcome_of_ok
      (ruleMsgByte_eq_ok.mpr ⟨⟨hs, hrem⟩, _, hstore, (endRelease_of_not_held (by exact hclear)).symm⟩)
  · exact outcome_of_ok
      (ruleMsgByte_eq_ok.mpr ⟨⟨hs, hrem⟩, _, hstore, (endRelease_of_held (by exact hp) (by exact hh)).symm⟩)

/-- Settles O31: as O30, with no byte remaining and EndWait next. -/
theorem msgLastMovesToEndWait : Obligations.MsgLastMovesToEndWait := by
  unfold Obligations.MsgLastMovesToEndWait
  rintro s t b hs hrem hroom hcell rfl
  have hstore : storePayloadByte b s = .ok { s.capture b with
      pbuf := s.pbuf.set s.pcur (some b), pcur := s.pcur + 1, rem := 0 } :=
    storePayloadByte_eq_ok.mpr ⟨hroom, hcell, by simp [hrem]⟩
  refine ⟨fun hclear => ?_, fun h hp hh => ?_⟩
  · exact outcome_of_ok
      (ruleMsgLast_eq_ok.mpr ⟨⟨hs, hrem⟩, _, hstore, (endRelease_of_not_held (by exact hclear)).symm⟩)
  · exact outcome_of_ok
      (ruleMsgLast_eq_ok.mpr ⟨⟨hs, hrem⟩, _, hstore, (endRelease_of_held (by exact hp) (by exact hh)).symm⟩)

/-! ### EndWait -/

/-- Settles O32, by `ruleEndOk_eq_ok`. -/
theorem endOkEnqueuesTheFrame : Obligations.EndOkEnqueuesTheFrame :=
  fun _ fr hs hroom hfree hwr hfr => outcome_of_ok (ruleEndOk_eq_ok.mpr ⟨⟨hs, hfree⟩, hroom, hwr, fr, hfr, rfl⟩)

/-- An abort in EndWait: the byte is captured and the reset pending, and a payload that is held is released (R138). -/
theorem outcome_of_endWait_abort {x : Res State} {s : State} {b : Byte}
    (hx : x = .ok (endRelease (s.capture b).setPending)) :
    (s.fHandle = none →
      x.outcome = .next { s with scratch := s.scratch.set s.scur (some b), scur := s.scur + 1, pending := true }) ∧
    ∀ h, s.fHandle = some h →
      x.outcome = .next { s with
        scratch := s.scratch.set s.scur (some b), scur := s.scur + 1, pending := true, fHandle := none,
        live := removeHandle h s.live, freed := insertHandle h s.freed } := by
  refine ⟨fun hnone => outcome_of_ok (hx.trans ?_), fun h hh => outcome_of_ok (hx.trans ?_)⟩
  · exact congrArg Res.ok (endRelease_of_not_held (s := (s.capture b).setPending) (.inr hnone))
  · exact congrArg Res.ok (endRelease_of_held (s := (s.capture b).setPending) rfl hh)

/-- Settles O33, by `ruleEndFull_eq_ok` and the two cases of EndRelease. -/
theorem endFullReleasesAndAborts : Obligations.EndFullReleasesAndAborts :=
  fun _ fr hs hroom hfull hfr =>
    outcome_of_endWait_abort (ruleEndFull_eq_ok.mpr ⟨⟨hs, Nat.not_lt.mpr hfull⟩, hroom, ⟨fr, hfr⟩, rfl⟩)

/-- Settles O34, by `ruleEndBad_eq_ok` and the two cases of EndRelease. -/
theorem endBadReleasesAndAborts : Obligations.EndBadReleasesAndAborts :=
  fun _ _ hs hb hroom => outcome_of_endWait_abort (ruleEndBad_eq_ok.mpr ⟨⟨hs, hb⟩, hroom, rfl⟩)

end Sys2Proof.Machine
end

section
/-! SEND_FRAME writes a record's wire bytes or refuses it (O47, R160 to R162), and RELEASE follows ownership (O48, R164). -/

namespace Sys2Proof.Machine

/-! ### SEND_FRAME -/

/-- The two records SEND_FRAME accepts (R162). -/
theorem sendOperandOk_iff {fr : FrameRec} :
    sendOperandOk fr = true ↔ fr.payload = none ∧ fr.length = 0 ∨
      ∃ p, fr.payload = some p ∧ 0 < fr.length.toNat ∧ p.bytes.length = fr.length.toNat := by
  unfold sendOperandOk
  split <;> rename_i hp <;> simp [hp]

theorem exec_sendFrame_of_ok {fr : FrameRec} (s : State) (h : sendOperandOk fr = true) :
    exec (.sendFrame fr) s = .next { s with tx := s.tx ++ wireBytes fr } := if_pos h

theorem exec_sendFrame_of_not_ok {fr : FrameRec} (s : State) (h : ¬ sendOperandOk fr = true) :
    exec (.sendFrame fr) s = .next (s.refuse .sendOperand) := if_neg h

/-- An accepted record of length `L` is written in `5 + L` bytes (R161). -/
theorem length_wireBytes {fr : FrameRec} (h : sendOperandOk fr = true) :
    (wireBytes fr).length = 5 + fr.length.toNat := by
  have := length_payloadBytes h
  simp only [wireBytes, List.length_append, List.length_cons, List.length_nil]
  omega

/-- Settles O47, by whether the record is accepted: what is written is `wireBytes` of the record. -/
theorem sendFrameWritesTheWireFormat : Obligations.SendFrameWritesTheWireFormat := by
  unfold Obligations.SendFrameWritesTheWireFormat
  refine ⟨fun s v t => ?_, fun s v t len h bs hpos hlen => ?_, fun s fr hfr => ?_, fun s t u fr gr hfr hgr ht hu => ?_⟩
  · exact exec_sendFrame_of_ok s (sendOperandOk_iff.mpr (.inl ⟨rfl, rfl⟩))
  · have hok : sendOperandOk { version := v, title := t, length := len, payload := some { handle := h, bytes := bs } } =
        true := sendOperandOk_iff.mpr (.inr ⟨_, rfl, hpos, hlen⟩)
    exact ⟨exec_sendFrame_of_ok s hok, length_wireBytes hok⟩
  · exact exec_sendFrame_of_not_ok s (mt sendOperandOk_iff.mp hfr)
  · cases (exec_sendFrame_of_ok s hfr).symm.trans ht
    cases (exec_sendFrame_of_ok _ hgr).symm.trans hu
    rfl

/-! ### RELEASE -/

theorem heldInside_iff {k : Handle} {s : State} :
    heldInside k s = true ↔ s.fHandle = some k ∨ k ∈ s.queuedHandles := by simp [heldInside]

/-- RELEASE of a record with a payload is the release of its handle (R164). -/
theorem exec_release_of_handle {fr : FrameRec} {k : Handle} (s : State) (h : fr.handle? = some k) :
    exec (.release fr) s = (releaseHandle k s).outcome := by
  simp [exec, execRelease, h]

/-- Settles O48, by `releaseHandle_eq_ok` and `releaseHandle_eq_raised`. -/
theorem releaseFollowsOwnership : Obligations.ReleaseFollowsOwnership := by
  unfold Obligations.ReleaseFollowsOwnership
  refine ⟨fun s fr hp => ?_, fun s fr p hp => ?_⟩
  · simp [exec, execRelease, FrameRec.handle?, hp]
  · rw [exec_release_of_handle s (show fr.handle? = some p.handle by simp [FrameRec.handle?, hp])]
    refine ⟨fun hlive hin => ?_, fun hlive hout => ?_, fun hlive hfreed => ?_, fun hlive hfreed => ?_⟩
    · exact outcome_eq_next.mpr (.inr ⟨_, _, releaseHandle_eq_raised.mpr
        ⟨rfl, .inl ⟨hlive, heldInside_iff.mpr hin, rfl⟩⟩, rfl⟩)
    · exact outcome_of_ok (releaseHandle_eq_ok.mpr
        (.inl ⟨hlive, Bool.eq_false_iff.mpr (mt heldInside_iff.mp hout), rfl⟩))
    · exact outcome_eq_next.mpr (.inr ⟨_, _, releaseHandle_eq_raised.mpr ⟨rfl, .inr ⟨hlive, hfreed, rfl⟩⟩, rfl⟩)
    · exact outcome_of_ok (releaseHandle_eq_ok.mpr (.inr ⟨hlive, hfreed, rfl⟩))

end Sys2Proof.Machine
end

section
/-! Leaks (O50, R167): under the invariant a handle is leaked from the step that returns it to the step that frees it. -/

namespace Sys2Proof.Machine

/-! ### Leaked handles -/

/-- Under the invariant a handle is leaked exactly when it was returned to a caller and not freed since (R46, R167). -/
theorem leaked_iff {s : State} (h : s.Inv) (k : Handle) :
    s.leaked k ↔ k ∈ s.returnedHandles ∧ k ∉ s.freed := by
  obtain ⟨hone, hplaced, _, hknown, hapart, _, _⟩ := h.ownership
  constructor
  · rintro ⟨hlive, hframer, hqueue⟩
    have := hplaced k hlive
    simp only [State.ownedHandles, List.mem_append, Option.mem_toList] at this
    exact ⟨this.resolve_left (not_or.mpr ⟨hframer, hqueue⟩), hapart k hlive⟩
  · rintro ⟨hret, hfreed⟩
    have hout : k ∉ s.fHandle.toList ++ s.queuedHandles := fun hin =>
      (List.nodup_append.mp hone).2.2 k hin k hret rfl
    simp only [List.mem_append, Option.mem_toList, not_or] at hout
    exact ⟨(hknown k hret).resolve_right hfreed, hout⟩

/-- What a move does to the two sides of `leaked_iff`: it returns no handle, or it is FC's DEQUEUE_FRAME and returns a
frame; and what it frees the framer held, or its RELEASE names. -/
structure OwnerStep (m : Move) (s t : State) : Prop where
  returned : t.returnedHandles = s.returnedHandles ∨
    ∃ x fr, m = .issue x ∧ decodeTxn x = .dequeueFrame .fc ∧
      t.results = s.results ++ [{ agent := .fc, code := .ok, data := some (.frame fr) }]
  freed : ∀ k ∈ t.freed, k ∈ s.freed ∨ s.fHandle = some k ∨
    ∃ x fr, m = .issue x ∧ decodeTxn x = .release fr ∧ fr.handle? = some k

theorem OwnerStep.of_results {m : Move} {s t : State} (hr : t.results = s.results)
    (hf : ∀ k ∈ t.freed, k ∈ s.freed ∨ s.fHandle = some k) : OwnerStep m s t :=
  ⟨.inl (by simp only [State.returnedHandles, hr]), fun k hk => (hf k hk).imp_right .inl⟩

/-! ### What the framer frees -/

theorem endRelease_frees_held (s : State) : ∀ k ∈ (endRelease s).freed, k ∈ s.freed ∨ s.fHandle = some k := by
  unfold endRelease State.dropPayload
  intro k hk
  split at hk
  · split at hk
    · rename_i hh
      rcases mem_insertHandle.mp hk with rfl | hk
      · exact .inr hh
      · exact .inl hk
    · exact .inl hk
  · exact .inl hk

/-- A row frees no handle but the one the framer holds (R134, R138). -/
theorem rowRule_frees_held {i : Instr} {s t : State} (h : rowRule i s = .ok t) :
    ∀ k ∈ t.freed, k ∈ s.freed ∨ s.fHandle = some k := by
  cases i <;> simp only [rowRule, reduceCtorEq] at h
  case prePass b =>
    rcases enqPassthrough_eq_ok.mp (rulePrePass_eq_ok.mp h).2 with ⟨_, _, rfl⟩ | ⟨_, rfl⟩ <;> exact fun _ => .inl
  case lenAlloc b =>
    obtain ⟨_, _, _, k, _, rfl⟩ := ruleLenAlloc_eq_ok.mp h
    exact fun k hk => .inl (by simpa using hk)
  case lenNomem b =>
    obtain ⟨_, _, _, _, rfl⟩ := ruleLenNomem_eq_ok.mp h
    exact fun k hk => .inl (by simpa using hk)
  case msgByte b =>
    obtain ⟨_, u, hu, rfl⟩ := ruleMsgByte_eq_ok.mp h
    obtain ⟨_, _, rfl⟩ := storePayloadByte_eq_ok.mp hu
    exact endRelease_frees_held _
  case msgLast b =>
    obtain ⟨_, u, hu, rfl⟩ := ruleMsgLast_eq_ok.mp h
    obtain ⟨_, _, rfl⟩ := storePayloadByte_eq_ok.mp hu
    exact endRelease_frees_held _
  case endOk =>
    obtain ⟨_, _, _, fr, _, rfl⟩ := ruleEndOk_eq_ok.mp h
    exact fun _ => .inl
  case endFull =>
    obtain ⟨_, _, _, rfl⟩ := ruleEndFull_eq_ok.mp h
    exact endRelease_frees_held _
  case endBad b =>
    obtain ⟨_, _, rfl⟩ := ruleEndBad_eq_ok.mp h
    exact endRelease_frees_held _
  all_goals
    simp only [rulePreStart_eq_ok, ruleVerOk_eq_ok, ruleVerBad_eq_ok, ruleTitle_eq_ok, ruleLenZero_eq_ok,
      ruleLenBad_eq_ok] at h
    obtain ⟨_, _, rfl⟩ := h
    exact fun _ => .inl

theorem execProcessByte_ownerStep (m : Move) {s t : State} (h : s.Inv) (ht : execProcessByte s = .next t) :
    OwnerStep m s t := by
  by_cases hi : s.phase = .idle
  · cases hrx : s.rx with
    | nil =>
      simp only [execProcessByte, hi, hrx, if_true] at ht
      cases ht
      exact .of_results rfl fun _ => .inl
    | cons b rest =>
      obtain ⟨i, u, hd, hu⟩ := row_goes_through (withRx_inv rest h) hi b
      have hstep := processByte_read hi hrx
      rw [processRead_of_rule hd hu] at hstep
      cases ht.symm.trans hstep
      have hresults := (rowRule_marksSame hu).results
      have hfreed := rowRule_frees_held hu
      split
      · exact .of_results hresults hfreed
      · exact .of_results (by simpa using hresults) (by simpa using hfreed)
  · rw [execProcessByte_of_replay hi] at ht
    cases ht
    exact .of_results rfl fun _ => .inl

theorem execReplay_ownerStep (m : Move) {s t : State} (h : s.Inv) (hen : s.replayEnabled = true)
    (ht : exec .replay s = .next t) : OwnerStep m s t := by
  obtain ⟨i, hp, hlt⟩ := replayEnabled_iff.mp hen
  obtain ⟨u, hu⟩ := replayStep_goes_through h hp
  rw [exec_replay_of_enabled hp hlt, hu] at ht
  cases ht
  obtain ⟨b, v, _, hv, rfl⟩ := replayStep_eq_ok.mp hu
  obtain ⟨q, _, rfl⟩ := enqPassthrough_ok h hv
  split <;> exact .of_results rfl fun _ => .inl

/-! ### What the other commands return and free -/

/-- RELEASE returns nothing, and frees no handle but the one its record names (R164). -/
theorem exec_release_frame {fr : FrameRec} {s t : State} (ht : exec (.release fr) s = .next t) :
    t.results = s.results ∧ ∀ k ∈ t.freed, k ∈ s.freed ∨ fr.handle? = some k := by
  cases hh : fr.handle? with
  | none =>
    simp only [exec, execRelease, hh] at ht
    cases ht
    exact ⟨rfl, fun _ => .inl⟩
  | some j =>
    rw [exec_release_of_handle s hh] at ht
    rcases outcome_eq_next.mp ht with hok | ⟨r, u, hraised, rfl⟩
    · rcases releaseHandle_eq_ok.mp hok with ⟨_, _, rfl⟩ | ⟨_, _, rfl⟩
      · refine ⟨rfl, fun k hk => ?_⟩
        rcases mem_insertHandle.mp hk with rfl | hk
        · exact .inr rfl
        · exact .inl hk
      · exact ⟨rfl, fun _ => .inl⟩
    · obtain ⟨rfl, _⟩ := releaseHandle_eq_raised.mp hraised
      exact ⟨rfl, fun _ => .inl⟩

/-- Only FC's DEQUEUE_FRAME returns a handle (R105). -/
theorem exec_notFramer_returned {i : Instr} {s t : State} (hi : notFramer i = true) (h : s.Inv)
    (ht : exec i s = .next t) :
    t.returnedHandles = s.returnedHandles ∨
      ∃ fr, i = .dequeueFrame .fc ∧
        t.results = s.results ++ [{ agent := .fc, code := .ok, data := some (.frame fr) }] := by
  cases i <;> simp only [notFramer, reduceCtorEq] at hi
  case frameAvailable a | passthroughAvailable a =>
    cases ht
    exact .inl (returnedHandles_respond_other a .ok s (by simp))
  case reserved cmd =>
    cases ht
    exact .inl rfl
  case dequeueFrame a =>
    by_cases ha : a = .fc
    · subst ha
      obtain ⟨u, hu⟩ := takeFrame_goes_through .fc h.frames
      rw [exec_dequeueFrame_consumer, hu] at ht
      cases ht
      rcases takeFrame_eq_ok.mp hu with ⟨fr, _, _, rfl⟩ | ⟨_, rfl⟩
      · exact .inr ⟨fr, rfl, rfl⟩
      · exact .inl (returnedHandles_respond_other .fc .empty s (by simp))
    · rw [exec_dequeueFrame_other s ha] at ht
      cases ht
      exact .inl rfl
  case readPassthrough a =>
    by_cases ha : a = .pc
    · subst ha
      obtain ⟨u, hu⟩ := takePassthrough_goes_through .pc h.passthrough
      rw [exec_readPassthrough_consumer, hu] at ht
      cases ht
      rcases takePassthrough_eq_ok.mp hu with ⟨b, _, _, rfl⟩ | ⟨_, rfl⟩
      · exact .inl (returnedHandles_respond_other .pc .ok { s with pq := s.pq.withoutHead } (by simp))
      · exact .inl (returnedHandles_respond_other .pc .empty s (by simp))
    · rw [exec_readPassthrough_other s ha] at ht
      cases ht
      exact .inl rfl
  case sendFrame fr =>
    simp only [exec, execSendFrame] at ht
    split at ht <;> cases ht <;> exact .inl rfl
  case release fr =>
    obtain ⟨hresults, _⟩ := exec_release_frame ht
    exact .inl (by simp only [State.returnedHandles, hresults])

/-- Only RELEASE frees a handle, the one its record names (R164). -/
theorem exec_notFramer_freed {i : Instr} {s t : State} (hi : notFramer i = true) (ht : exec i s = .next t) :
    ∀ k ∈ t.freed, k ∈ s.freed ∨ ∃ fr, i = .release fr ∧ fr.handle? = some k := by
  intro k hk
  by_cases hrel : ∃ fr, i = .release fr
  · obtain ⟨fr, rfl⟩ := hrel
    exact ((exec_release_frame ht).2 k hk).imp_right fun hh => ⟨fr, rfl, hh⟩
  · obtain ⟨_, hfreed⟩ := (exec_commandStep hi ht).owner (not_exists.mp hrel)
    exact .inl (hfreed ▸ hk)

/-! ### A move and a step -/

theorem applyMove_ownerStep {m : Move} {s t : State} (h : s.Inv) (ht : applyMove m s = .next t) :
    OwnerStep m s t := by
  cases m with
  | issue x =>
    rcases decodeTxn_cases x with hx | hx
    · exact execProcessByte_ownerStep _ h (by simpa only [applyMove, hx, exec] using ht)
    · exact ⟨(exec_notFramer_returned hx h ht).imp_right fun ⟨fr, hi, hr⟩ => ⟨x, fr, rfl, hi, hr⟩,
        fun k hk => (exec_notFramer_freed hx ht k hk).imp_right fun ⟨fr, hi, hh⟩ => .inr ⟨x, fr, rfl, hi, hh⟩⟩
  | replay =>
    simp only [applyMove] at ht
    split at ht
    · rename_i hen
      exact execReplay_ownerStep _ h hen ht
    · cases ht
      exact .of_results rfl fun _ => .inl
  | _ =>
    cases ht
    exact .of_results rfl fun _ => .inl

theorem step_ownerStep {s t : State} (h : s.Inv) (ht : step s = .next t) : OwnerStep s.nextMove.1 s t := by
  unfold step at ht
  split at ht
  · obtain ⟨hreturned, hfreed⟩ := applyMove_ownerStep (nextMove_inv h) ht
    exact ⟨by simpa [State.returnedHandles] using hreturned, by simpa using hfreed⟩
  · cases ht

/-- The handles returned after a move that may have returned a frame. -/
theorem returnedHandles_of_results {s t : State} {fr : FrameRec}
    (h : t.results = s.results ++ [{ agent := .fc, code := .ok, data := some (.frame fr) }]) :
    t.returnedHandles = s.returnedHandles ++ fr.handle?.toList := by
  rw [← returnedHandles_respond_frame .fc .ok fr s]
  simp only [State.returnedHandles, h, respond_results]

/-- Settles O50, by `leaked_iff` before and after the step: a handle is leaked once it is returned, which only FC's
DEQUEUE_FRAME does, and until it is freed, which, the framer not holding it, only its RELEASE does. -/
theorem leakedHandlesWereDequeued : Obligations.LeakedHandlesWereDequeued := by
  unfold Obligations.LeakedHandlesWereDequeued
  refine ⟨fun s k h hk => (leaked_iff h k).mp hk, fun s t h ht => ?_⟩
  have hinv := everyStepKeepsTheInvariant s t h ht
  obtain ⟨hstay, _⟩ := freedHandlesStayFreed s t ht
  obtain ⟨hreturned, hfreed⟩ := step_ownerStep h ht
  refine ⟨fun k hk hnew => ?_, fun k hk => ?_⟩
  · obtain ⟨hret, hnf⟩ := (leaked_iff hinv k).mp hk
    have hfresh : k ∉ s.returnedHandles := fun hold => hnew ((leaked_iff h k).mpr ⟨hold, mt (hstay k) hnf⟩)
    rcases hreturned with hsame | ⟨x, fr, hm, hx, hr⟩
    · exact absurd (hsame ▸ hret) hfresh
    · rw [returnedHandles_of_results hr] at hret
      exact ⟨x, fr, hm, hx, by simpa using (List.mem_append.mp hret).resolve_left hfresh, hr⟩
  · obtain ⟨hret, hnf⟩ := (leaked_iff h k).mp hk
    have hkept : k ∈ t.returnedHandles := by
      rcases hreturned with hsame | ⟨x, fr, _, _, hr⟩
      · exact hsame ▸ hret
      · exact returnedHandles_of_results hr ▸ List.mem_append_left _ hret
    by_cases hf : k ∈ t.freed
    · exact .inr ⟨hf, ((hfreed k hf).resolve_left hnf).resolve_left hk.2.1⟩
    · exact .inl ((leaked_iff hinv k).mpr ⟨hkept, hf⟩)

end Sys2Proof.Machine
end

section
/-! What a run has marked stays (O10, O11): a recorded fault ends the run (R176), and no instruction or move takes back a
fault, a refusal (R177) or a result returned (R171). -/

namespace Sys2Proof.Machine

/-! ### A recorded fault -/

theorem step_of_faults_ne_nil {s : State} (h : s.faults ≠ []) : step s = .fault .halted := if_neg h

/-- Settles O10, by `mem_addFault`: an empty fault set is both what enables a step and part of a good end. -/
theorem noStepAfterAFault : Obligations.NoStepAfterAFault :=
  ⟨fun _ _ _ => mem_addFault, fun _ hf => ⟨step_of_faults_ne_nil hf, fun ⟨_, hnone, _⟩ => hf hnone⟩⟩

/-! ### Marks that are kept -/

/-- The marks and the results returned in `s` all stand in `t`, which may have more of them. -/
structure MarksKept (s t : State) : Prop where
  faults : ∀ r ∈ s.faults, r ∈ t.faults
  refused : s.refused = true → t.refused = true
  results : ∃ more, t.results = s.results ++ more

theorem MarksSame.kept {s t : State} (h : MarksSame s t) : MarksKept s t :=
  ⟨fun _ hr => h.faults ▸ hr, fun hr => h.refused.trans hr, [], by rw [h.results, List.append_nil]⟩

theorem marksKept_refl (s : State) : MarksKept s s := (marksSame_refl s).kept

theorem MarksKept.recordFault {s t : State} (h : MarksKept s t) (r : FaultReason) : MarksKept s (t.recordFault r) :=
  ⟨fun x hx => mem_addFault.mpr (.inr (h.faults x hx)), h.refused, h.results⟩

theorem refuse_marksKept (w : RefuseReason) (s : State) : MarksKept s (s.refuse w) :=
  ⟨fun _ => id, fun _ => rfl, [], (List.append_nil _).symm⟩

theorem respond_marksKept (a : Agent) (c : ResultCode) (d : Option Datum) (s : State) : MarksKept s (s.respond a c d) :=
  ⟨fun _ => id, id, _, rfl⟩

/-- A step whose operations keep the marks keeps them, whether they go through or raise. -/
theorem outcome_marksKept {x : Res State} {s t : State} (hok : ∀ u, x = .ok u → MarksKept s u)
    (hraised : ∀ r u, x = .raised r u → MarksSame s u) (ht : x.outcome = .next t) : MarksKept s t := by
  rcases outcome_eq_next.mp ht with h | ⟨r, u, h, rfl⟩
  · exact hok t h
  · exact (hraised r u h).kept.recordFault r

/-! ### The framer's instructions -/

/-- A row that raises has marked nothing yet. -/
theorem rowRule_raised_marksSame {i : Instr} {s t : State} {r : FaultReason} (h : rowRule i s = .raised r t) :
    MarksSame s t := by
  rcases rowRule_eq_raised h with ⟨_, rfl | rfl⟩ | ⟨_, rfl⟩ <;> exact ⟨rfl, rfl, rfl⟩

theorem row_marksKept {i : Instr} {s t : State} (h : (rowRule i s).outcome = .next t) : MarksKept s t :=
  outcome_marksKept (fun _ hu => (rowRule_marksSame hu).kept) (fun _ _ => rowRule_raised_marksSame) h

theorem processRead_marksKept {b : Byte} {s t : State} (h : (processRead b s).outcome = .next t) : MarksKept s t := by
  rcases processRead_cases (b := b) (s := s) with
    ⟨i, u, _, hu, hp⟩ | ⟨i, r, u, _, hu, hp⟩ | ⟨hp, _⟩ | ⟨f, hp⟩ | ⟨r, hp⟩ <;> rw [hp] at h <;> cases h
  · split
    · exact (rowRule_marksSame hu).kept
    · exact (rowRule_marksSame hu).resetCheck.kept
  · exact (rowRule_raised_marksSame hu).kept.recordFault r
  · exact (marksKept_refl s).recordFault .badState

theorem exec_processByte_marksKept {s t : State} (h : exec .processByte s = .next t) : MarksKept s t := by
  by_cases hi : s.phase = .idle
  · cases hrx : s.rx with
    | nil =>
      cases (exec_processByte_of_empty hi hrx).symm.trans h
      exact marksKept_refl s
    | cons b rest =>
      rw [processByte_read hi hrx] at h
      obtain ⟨hfaults, hrefused, hresults⟩ := processRead_marksKept h
      exact ⟨hfaults, hrefused, hresults⟩
  · cases (execProcessByte_of_replay hi).symm.trans h
    exact refuse_marksKept _ s

theorem replayStep_marksSame {i : Nat} {s t : State} (h : replayStep i s = .ok t) : MarksSame s t := by
  obtain ⟨b, u, _, hu, rfl⟩ := replayStep_eq_ok.mp h
  rcases enqPassthrough_eq_ok.mp hu with ⟨_, _, rfl⟩ | ⟨_, rfl⟩ <;> split <;> exact ⟨rfl, rfl, rfl⟩

/-- REPLAY goes on only as the replay step that `phase` names (R140). -/
theorem replayStep_of_exec_replay {s t : State} (h : exec .replay s = .next t) :
    ∃ i, (replayStep i s).outcome = .next t := by
  simp only [exec, execReplay] at h
  split at h
  · cases h
  · split at h
    · exact ⟨_, h⟩
    · cases h

theorem exec_replay_marksKept {s t : State} (h : exec .replay s = .next t) : MarksKept s t := by
  obtain ⟨i, hstep⟩ := replayStep_of_exec_replay h
  refine outcome_marksKept (fun u hu => (replayStep_marksSame hu).kept) (fun r u hu => ?_) hstep
  obtain ⟨_, _, rfl⟩ := replayStep_eq_raised hu
  exact marksSame_refl _

/-! ### The other agents' commands -/

theorem takeFrame_marksKept {a : Agent} {s t : State} (h : takeFrame a s = .ok t) : MarksKept s t := by
  rcases takeFrame_eq_ok.mp h with ⟨_, _, _, rfl⟩ | ⟨_, rfl⟩ <;> exact ⟨fun _ => id, id, _, rfl⟩

theorem takePassthrough_marksKept {a : Agent} {s t : State} (h : takePassthrough a s = .ok t) : MarksKept s t := by
  rcases takePassthrough_eq_ok.mp h with ⟨_, _, _, rfl⟩ | ⟨_, rfl⟩ <;> exact ⟨fun _ => id, id, _, rfl⟩

theorem releaseHandle_marksSame {k : Handle} {s t : State} (h : releaseHandle k s = .ok t) : MarksSame s t := by
  rcases releaseHandle_eq_ok.mp h with ⟨_, _, rfl⟩ | ⟨_, _, rfl⟩ <;> exact ⟨rfl, rfl, rfl⟩

/-- A command that is not the framer's may return a result, be refused, or raise, and takes no mark back. -/
theorem exec_notFramer_marksKept {i : Instr} {s t : State} (hi : notFramer i = true) (h : exec i s = .next t) :
    MarksKept s t := by
  cases i <;> simp only [notFramer, reduceCtorEq] at hi
  case frameAvailable a | passthroughAvailable a =>
    cases h
    exact respond_marksKept _ _ _ s
  case reserved cmd =>
    cases h
    exact refuse_marksKept _ s
  case dequeueFrame a =>
    by_cases ha : a = .fc
    · rw [ha, exec_dequeueFrame_consumer] at h
      refine outcome_marksKept (fun u => takeFrame_marksKept) (fun r u hu => ?_) h
      obtain ⟨_, _, _, rfl⟩ := takeFrame_eq_raised hu
      exact marksSame_refl _
    · cases (exec_dequeueFrame_other s ha).symm.trans h
      exact refuse_marksKept _ s
  case readPassthrough a =>
    by_cases ha : a = .pc
    · rw [ha, exec_readPassthrough_consumer] at h
      refine outcome_marksKept (fun u => takePassthrough_marksKept) (fun r u hu => ?_) h
      obtain ⟨_, _, _, rfl⟩ := takePassthrough_eq_raised hu
      exact marksSame_refl _
    · cases (exec_readPassthrough_other s ha).symm.trans h
      exact refuse_marksKept _ s
  case sendFrame fr =>
    by_cases hok : sendOperandOk fr = true
    · cases (exec_sendFrame_of_ok s hok).symm.trans h
      exact MarksSame.kept ⟨rfl, rfl, rfl⟩
    · cases (exec_sendFrame_of_not_ok s hok).symm.trans h
      exact refuse_marksKept _ s
  case release fr =>
    cases hh : fr.handle? with
    | none =>
      simp only [exec, execRelease, hh] at h
      cases h
      exact marksKept_refl s
    | some k =>
      rw [exec_release_of_handle s hh] at h
      refine outcome_marksKept (fun u hu => (releaseHandle_marksSame hu).kept) (fun r u hu => ?_) h
      obtain ⟨rfl, _⟩ := releaseHandle_eq_raised.mp hu
      exact marksSame_refl _

/-! ### Every instruction and every move -/

theorem exec_marksKept {i : Instr} {s t : State} (h : exec i s = .next t) : MarksKept s t := by
  cases hi : notFramer i with
  | true => exact exec_notFramer_marksKept hi h
  | false =>
    rcases exec_framer_cases s hi with rfl | rfl | rfl | hrow
    · exact exec_processByte_marksKept h
    · exact exec_replay_marksKept h
    · cases h
      exact MarksSame.kept ⟨rfl, rfl, rfl⟩
    · exact row_marksKept (hrow ▸ h)

theorem applyMove_marksKept {m : Move} {s t : State} (h : applyMove m s = .next t) : MarksKept s t := by
  cases m with
  | issue x => exact exec_marksKept (i := decodeTxn x) h
  | replay =>
    simp only [applyMove] at h
    split at h
    · exact exec_marksKept h
    · cases h
      exact marksKept_refl s
  | reset =>
    cases h
    exact refuse_marksKept _ s
  | _ =>
    cases h
    exact MarksSame.kept ⟨rfl, rfl, rfl⟩

/-- Settles O11: an instruction adds to the marks or leaves them, and a move runs an instruction, is refused, or marks
nothing. -/
theorem marksAreNeverCleared : Obligations.MarksAreNeverCleared := by
  unfold Obligations.MarksAreNeverCleared
  refine ⟨fun i s t h => ?_, fun m s t h => ?_⟩
  · obtain ⟨hfaults, hrefused, hresults⟩ := exec_marksKept h
    exact ⟨hfaults, hrefused, hresults⟩
  · obtain ⟨hfaults, hrefused, hresults⟩ := applyMove_marksKept h
    exact ⟨hfaults, hrefused, hresults⟩

end Sys2Proof.Machine
end

section
/-! The abort causes (O39, R172): the dispatch rows that mark the reset are those the five causes select, and a call starts
a replay exactly when its row marks the reset (R139). -/

namespace Sys2Proof.Machine

/-- The dispatch rows that abort the frame (R126, R130, R131, R136, R137). -/
def isAbortRow : Instr → Bool
  | .verBad _ | .lenNomem _ | .lenBad _ | .endFull | .endBad _ => true
  | _ => false

/-- The five causes of R172, said of what selects a row: the framing state, the byte and the tested registers. -/
def AbortCause (st : FsmState) (b : Byte) (c : RowCond) : Prop :=
  (st = .versionWait ∧ b ≠ Config.version) ∨
  (st = .lengthWait ∧ payloadLength b = true ∧ c.allocOk = false) ∨
  (st = .lengthWait ∧ Config.maxLength ≤ b.toNat) ∨
  (st = .endWait ∧ b = Config.terminator ∧ c.room = false) ∨
  (st = .endWait ∧ b ≠ Config.terminator)

/-- The row selected is an abort row exactly on one of the five causes (R74, R172). -/
theorem isAbortRow_iff {st : FsmState} {b : Byte} {c : RowCond} {i : Instr} (hd : decodeRow st b c = .ok i) :
    isAbortRow i = true ↔ AbortCause st b c := by
  unfold decodeRow at hd
  unfold AbortCause
  cases st <;> simp only at hd
  case preambleWait => split_ifs at hd <;> cases hd <;> simp [isAbortRow]
  case versionWait => split_ifs at hd with hb <;> cases hd <;> simp [isAbortRow, hb]
  case titleWait =>
    cases hd
    simp [isAbortRow]
  case lengthWait =>
    split_ifs at hd with h0 hshort hok <;> cases hd
    · simp [isAbortRow, h0, payloadLength, Config.maxLength]
    · simp [isAbortRow, hok, not_le.mpr hshort]
    · simp [isAbortRow, hok, payloadLength_iff.mpr ⟨h0, hshort⟩]
    · simp [isAbortRow, not_lt.mp hshort]
  case messageWait => split_ifs at hd <;> cases hd <;> simp [isAbortRow]
  case endWait =>
    split_ifs at hd with hb hroom <;> cases hd
    · simp [isAbortRow, hb, hroom]
    · simp [isAbortRow, hb, hroom]
    · simp [isAbortRow, hb]
  case unused6 => cases hd
  case unused7 => cases hd

/-- From a clear flag, the rows that mark the reset are the abort rows. -/
theorem rowRule_pending {i : Instr} {s t : State} (hclear : s.pending = false) (h : rowRule i s = .ok t) :
    t.pending = isAbortRow i := by
  cases i <;> simp only [rowRule, reduceCtorEq] at h
  case prePass b =>
    rcases enqPassthrough_eq_ok.mp (rulePrePass_eq_ok.mp h).2 with ⟨_, _, rfl⟩ | ⟨_, rfl⟩ <;> exact hclear
  case lenAlloc b =>
    obtain ⟨_, _, _, k, _, rfl⟩ := ruleLenAlloc_eq_ok.mp h
    simp [hclear, isAbortRow]
  case lenNomem b =>
    obtain ⟨_, _, _, _, rfl⟩ := ruleLenNomem_eq_ok.mp h
    rfl
  case msgByte b =>
    obtain ⟨_, u, hu, rfl⟩ := ruleMsgByte_eq_ok.mp h
    obtain ⟨_, _, rfl⟩ := storePayloadByte_eq_ok.mp hu
    exact (endRelease_pending _).trans hclear
  case msgLast b =>
    obtain ⟨_, u, hu, rfl⟩ := ruleMsgLast_eq_ok.mp h
    obtain ⟨_, _, rfl⟩ := storePayloadByte_eq_ok.mp hu
    exact (endRelease_pending _).trans hclear
  case endOk =>
    obtain ⟨_, _, _, fr, _, rfl⟩ := ruleEndOk_eq_ok.mp h
    exact hclear
  case endFull =>
    obtain ⟨_, _, _, rfl⟩ := ruleEndFull_eq_ok.mp h
    exact endRelease_pending _
  case endBad b =>
    obtain ⟨_, _, rfl⟩ := ruleEndBad_eq_ok.mp h
    exact endRelease_pending _
  all_goals
    simp only [rulePreStart_eq_ok, ruleVerOk_eq_ok, ruleVerBad_eq_ok, ruleTitle_eq_ok, ruleLenZero_eq_ok,
      ruleLenBad_eq_ok] at h
    obtain ⟨_, _, rfl⟩ := h
    simp [hclear, isAbortRow]

/-- A call starts a replay exactly when the row it runs is an abort row: ResetCheck is left out in PreambleWait only, where
no row aborts (R120, R139). -/
theorem callEnd_replays_iff {s u : State} {b : Byte} {c : RowCond} {i : Instr} (hd : decodeRow s.state b c = .ok i)
    (hpend : u.pending = isAbortRow i) (hphase : u.phase = .idle) :
    (if s.state = .preambleWait then u else resetCheck u).phase = .replay 0 ↔ AbortCause s.state b c := by
  rw [← isAbortRow_iff hd, ← hpend]
  by_cases hs : s.state = .preambleWait
  · have hclear : ¬ u.pending = true := by simp [hpend, isAbortRow_iff hd, hs, AbortCause]
    simp [hs, hphase, hclear]
  · simp [hs, hphase]

theorem drawOk_eq_false_iff {s : State} : s.drawOk = false ↔ s.peekDraw = .fail := by
  unfold State.drawOk
  cases s.peekDraw <;> simp

/-- The causes as R172 spells them, with the bytes in hexadecimal and the registers read from the state. -/
theorem abortCause_iff {s : State} (b : Byte) (hq : s.fq.Ok) :
    AbortCause s.state b s.rowCond ↔
      (s.state = .versionWait ∧ b ≠ 0x01) ∨
      (s.state = .lengthWait ∧ 1 ≤ b.toNat ∧ b.toNat ≤ 49 ∧ s.peekDraw = .fail) ∨
      (s.state = .lengthWait ∧ 0x32 ≤ b.toNat) ∨
      (s.state = .endWait ∧ b = 0x1E ∧ s.fq.fill = s.fq.cell.length) ∨
      (s.state = .endWait ∧ b ≠ 0x1E) := by
  obtain ⟨_, hle, _⟩ := hq
  have hroom : s.rowCond.room = false ↔ s.fq.fill = s.fq.cell.length :=
    decide_eq_false_iff_not.trans (not_lt.trans hle.ge_iff_eq)
  have hdraw : s.rowCond.allocOk = false ↔ s.peekDraw = .fail := drawOk_eq_false_iff
  have hlength : payloadLength b = true ↔ 1 ≤ b.toNat ∧ b.toNat ≤ 49 := by
    simp [payloadLength, Config.maxLength, Nat.lt_succ_iff]
  rw [AbortCause, hroom, hdraw, hlength, and_assoc]
  rfl

/-- Settles O39: the call replays exactly when the selected row aborts, and a state that replays under the invariant has
the reset pending and no payload held. -/
theorem theFiveAbortCauses : Obligations.TheFiveAbortCauses := by
  unfold Obligations.TheFiveAbortCauses
  intro s t b rest h hi hrx ht
  obtain ⟨i, u, hd, hu, rfl⟩ := processByte_row h hi hrx ht
  constructor
  · rw [← abortCause_iff b h.frames]
    have hpend : u.pending = isAbortRow i := rowRule_pending (s := s.withRx rest) (h.idle hi).pending hu
    exact callEnd_replays_iff hd hpend ((rowRule_moves hu).phase.trans hi)
  · intro hp
    have hinv := execProcessByte_inv h ht
    cases hphase : (if s.state = .preambleWait then u else resetCheck u).phase with
    | idle => exact absurd hphase hp
    | replay j =>
      have hreplay := hinv.replay j hphase
      exact ⟨hreplay.pending, hreplay.released⟩

end Sys2Proof.Machine
end

section
/-! Construction (O51 to O53): every field at its value in R47, so the queues are empty and the invariant holds. -/

namespace Sys2Proof.Machine

theorem construct_of_capacities {p f c : Nat} (h : 1 ≤ p ∧ 1 ≤ f ∧ 54 ≤ c) :
    State.construct p f c = .next (State.fresh p f c) := if_pos h

theorem construct_of_zeroCapacity {p f c : Nat} (h : ¬ (1 ≤ p ∧ 1 ≤ f ∧ 54 ≤ c)) :
    State.construct p f c = .refused .zeroCapacity := if_neg h

/-- What is constructed is the fresh state, with capacities that are large enough (R190). -/
theorem construct_eq_next {p f c : Nat} {s : State} (h : State.construct p f c = .next s) :
    (1 ≤ p ∧ 1 ≤ f ∧ 54 ≤ c) ∧ s = State.fresh p f c := by
  by_cases hc : 1 ≤ p ∧ 1 ≤ f ∧ 54 ≤ c
  · cases (construct_of_capacities hc).symm.trans h
    exact ⟨hc, rfl⟩
  · cases (construct_of_zeroCapacity hc).symm.trans h

/-- Settles O51: an accepted construction is the fresh state, which is the table of R47. -/
theorem constructionFollowsTheResetTable : Obligations.ConstructionFollowsTheResetTable :=
  ⟨fun p f c hp hf hc => ⟨State.fresh p f c, construct_of_capacities ⟨hp, hf, hc⟩, rfl, rfl, rfl, rfl, rfl, rfl, rfl, rfl,
    rfl, rfl, rfl, rfl, rfl, rfl, rfl, rfl, rfl, rfl⟩, fun _ _ _ => construct_of_zeroCapacity⟩

/-- Settles O52: the fill counts are 0, which the count operations return (O16) and which makes a dequeue answer `Empty`
(O17, O18). -/
theorem emptyQueuesAfterReset : Obligations.EmptyQueuesAfterReset := by
  unfold Obligations.EmptyQueuesAfterReset
  intro p f c s h
  obtain ⟨_, rfl⟩ := construct_eq_next h
  obtain ⟨hframes, _⟩ := countReadsReturnTheFill .fc (State.fresh p f c)
  obtain ⟨_, hbytes, _⟩ := countReadsReturnTheFill .pc (State.fresh p f c)
  obtain ⟨_, hnoFrame⟩ := dequeueFrameTakesTheOldest (State.fresh p f c)
  obtain ⟨_, hnoByte⟩ := readPassthroughTakesTheOldest (State.fresh p f c)
  exact ⟨rfl, rfl, rfl, hframes, hbytes, hnoFrame rfl, hnoByte rfl⟩

/-! ### The invariant of a fresh block -/

/-- An empty queue meets R35: no cell holds an item. -/
theorem queue_empty_ok {α : Type} {n : Nat} (h : 1 ≤ n) : (Queue.empty α n).Ok := by
  have hcap : (Queue.empty α n).cap = n := List.length_replicate
  rw [Queue.Ok, hcap]
  refine ⟨h, Nat.zero_le n, h, h, (Nat.zero_mod n).symm, fun k hk => ?_⟩
  simp [Queue.empty, Nat.mod_eq_of_lt hk, hk]

/-- A fresh block is in PreambleWait, of which R45 asks only that the framer holds no payload. -/
theorem fresh_idleOk (p f c : Nat) : IdleOk (State.fresh p f c) := by
  constructor <;> simp [State.fresh]

/-- A fresh block has allocated nothing. -/
theorem fresh_ownership (p f c : Nat) : OwnershipOk (State.fresh p f c) := by
  have hheld : (State.fresh p f c).fHandle = none := rfl
  have hlive : (State.fresh p f c).live = [] := rfl
  have hfreed : (State.fresh p f c).freed = [] := rfl
  have hqueued : (State.fresh p f c).queuedHandles = [] := by
    simp [State.queuedHandles, State.fresh, Queue.empty]
  have hreturned : (State.fresh p f c).returnedHandles = [] := rfl
  constructor <;> simp [State.ownedHandles, hheld, hlive, hfreed, hqueued, hreturned]

theorem fresh_inv {p f c : Nat} (h : 1 ≤ p ∧ 1 ≤ f ∧ 54 ≤ c) : (State.fresh p f c).Inv := by
  obtain ⟨hp, hf, hc⟩ := h
  have hrange : InRange (State.fresh p f c) := by
    simp [InRange, State.fresh, Config.maxRaw, Config.maxLength, hc]
  have hrecords : FramesOk (State.fresh p f c) := by
    simp +contextual [FramesOk, State.fresh, Queue.empty, List.mem_replicate]
  exact ⟨hrange, queue_empty_ok hp, queue_empty_ok hf, hrecords, fun _ => fresh_idleOk p f c, nofun, fresh_ownership p f c⟩

/-- Settles O53: a fresh block meets the invariant, and the state after reset is one (log 1). -/
theorem invariantHoldsAtReset : Obligations.InvariantHoldsAtReset := by
  unfold Obligations.InvariantHoldsAtReset
  refine ⟨fresh_inv (by decide), fun p f c s h => ?_⟩
  obtain ⟨hc, rfl⟩ := construct_eq_next h
  exact fresh_inv hc

end Sys2Proof.Machine
end

section
/-! Steps of a run (R61, R204): the move that is made, the invariant along a run, and the runs that exist (O60). -/

namespace Sys2Proof.Machine

/-! ### A step by a move -/

/-- A step of a run makes its move in the state it starts from, but for the model's own fields (log 2). -/
theorem applyMove_of_stepBy {m : Move} {s t : State} (h : StepBy m s t) :
    ∃ l k, applyMove m { s with sched := l, ticks := k } = .next t := by
  obtain ⟨l, rfl, ht⟩ := h
  unfold step at ht
  split at ht
  · cases l with
    | nil => exact ⟨_, _, ht⟩
    | cons m rest => exact ⟨_, _, ht⟩
  · cases ht

/-- The schedule and the count of free values are no fields of the invariant. -/
theorem withSched_inv {s : State} (l : List Move) (k : Nat) (h : s.Inv) : State.Inv { s with sched := l, ticks := k } :=
  inv_of_same h (framerSame_refl s) rfl rfl rfl rfl rfl

theorem stepBy_inv {m : Move} {s t : State} (h : s.Inv) (hst : StepBy m s t) : t.Inv := by
  obtain ⟨l, k, ht⟩ := applyMove_of_stepBy hst
  exact applyMove_inv (withSched_inv l k h) ht

/-- The invariant holds all along a run that starts in it. -/
theorem isRun_inv {moves : Nat → Move} {r : Nat → State} (hrun : IsRun moves r) (h : (r 0).Inv) (n : Nat) : (r n).Inv := by
  induction n with
  | zero => exact h
  | succ n ih => exact stepBy_inv ih (hrun n)

/-! ### Moves that record no fault -/

/-- The move issues no RELEASE. -/
def IssuesNoRelease (m : Move) : Prop := ∀ x fr, m = .issue x → decodeTxn x ≠ .release fr

theorem exec_notFramer_faults {i : Instr} {s t : State} (hi : notFramer i = true) (hr : ∀ fr, i ≠ .release fr) (h : s.Inv)
    (ht : exec i s = .next t) : t.faults = s.faults := by
  cases i <;> simp only [notFramer, reduceCtorEq] at hi
  case frameAvailable | passthroughAvailable | reserved =>
    cases ht
    rfl
  case dequeueFrame a =>
    by_cases ha : a = .fc
    · obtain ⟨u, hu⟩ := takeFrame_goes_through .fc h.frames
      rw [ha, exec_dequeueFrame_consumer, hu] at ht
      cases ht
      exact takeFrame_faults hu
    · cases (exec_dequeueFrame_other s ha).symm.trans ht
      rfl
  case readPassthrough a =>
    by_cases ha : a = .pc
    · obtain ⟨u, hu⟩ := takePassthrough_goes_through .pc h.passthrough
      rw [ha, exec_readPassthrough_consumer, hu] at ht
      cases ht
      exact takePassthrough_faults hu
    · cases (exec_readPassthrough_other s ha).symm.trans ht
      rfl
  case sendFrame fr =>
    by_cases hok : sendOperandOk fr = true
    · cases (exec_sendFrame_of_ok s hok).symm.trans ht
      rfl
    · cases (exec_sendFrame_of_not_ok s hok).symm.trans ht
      rfl
  case release fr => exact absurd rfl (hr fr)

/-- Under the invariant only RELEASE records a fault (R153, R164, R178). -/
theorem applyMove_faults {m : Move} {s t : State} (hm : IssuesNoRelease m) (h : s.Inv) (ht : applyMove m s = .next t) :
    t.faults = s.faults := by
  cases m with
  | issue x =>
    rcases decodeTxn_cases x with hx | hx
    · exact execProcessByte_faults h (by simpa only [applyMove, hx, exec] using ht)
    · exact exec_notFramer_faults hx (fun fr => hm x fr rfl) h ht
  | replay =>
    simp only [applyMove] at ht
    split at ht
    · rename_i hen
      exact execReplay_faults h hen ht
    · cases ht
      rfl
  | _ =>
    cases ht
    rfl

theorem stepBy_faults {m : Move} {s t : State} (hm : IssuesNoRelease m) (h : s.Inv) (hst : StepBy m s t) :
    t.faults = s.faults := by
  obtain ⟨l, k, ht⟩ := applyMove_of_stepBy hst
  have hfaults := applyMove_faults hm (withSched_inv l k h) ht
  exact hfaults

/-! ### The run of a sequence of moves -/

/-- The state after the move `m`, or the same state where the machine has stopped (R176). -/
def afterMove (m : Move) (s : State) : State :=
  match step { s with sched := [m] } with
  | .next t => t
  | .fault _ => s
  | .refused _ => s

/-- From `s` on, the moves made one after the other. -/
def runOf (moves : Nat → Move) (s : State) : Nat → State
  | 0 => s
  | n + 1 => afterMove (moves n) (runOf moves s n)

/-- With no fault recorded the move is made, since no step stops the machine (O56). -/
theorem stepBy_afterMove (m : Move) {s : State} (h : s.Inv) (hf : s.faults = []) : StepBy m s (afterMove m s) := by
  obtain ⟨t, ht⟩ := noStepStopsTheMachine { s with sched := [m] } (withSched_inv [m] s.ticks h) hf
  exact ⟨[m], rfl, by rw [afterMove, ht]⟩

theorem afterMove_inv (m : Move) {s : State} (h : s.Inv) : (afterMove m s).Inv := by
  by_cases hf : s.faults = []
  · exact stepBy_inv h (stepBy_afterMove m h hf)
  · have hstop : step { s with sched := [m] } = .fault .halted := step_of_faults_ne_nil hf
    rw [afterMove, hstop]
    exact h

theorem runOf_inv (moves : Nat → Move) {s : State} (h : s.Inv) (n : Nat) : (runOf moves s n).Inv := by
  induction n with
  | zero => exact h
  | succ n ih => exact afterMove_inv (moves n) ih

theorem runOf_faults {moves : Nat → Move} {s : State} (hm : ∀ n, IssuesNoRelease (moves n)) (h : s.Inv)
    (hf : s.faults = []) (n : Nat) : (runOf moves s n).faults = [] := by
  induction n with
  | zero => exact hf
  | succ n ih =>
    have hinv := runOf_inv moves h n
    exact (stepBy_faults (hm n) hinv (stepBy_afterMove (moves n) hinv ih)).trans ih

/-- Without a RELEASE no fault is ever recorded, so the run goes on without end. -/
theorem runOf_isRun {moves : Nat → Move} {s : State} (hm : ∀ n, IssuesNoRelease (moves n)) (h : s.Inv)
    (hf : s.faults = []) : IsRun moves (runOf moves s) :=
  fun n => stepBy_afterMove (moves n) (runOf_inv moves h n) (runOf_faults hm h hf n)

/-- Settles O60: the moves made one after the other are the run, and a run of replay turns alone always takes the turn
that fairness asks for. -/
theorem everyScheduleIsARun : Obligations.EveryScheduleIsARun := by
  unfold Obligations.EveryScheduleIsARun
  intro s h hf
  have hreplay : IssuesNoRelease .replay := nofun
  exact ⟨fun moves => ⟨runOf moves s, rfl, fun n => stepBy_afterMove (moves n) (runOf_inv moves h n),
      fun hm => runOf_isRun hm h hf⟩,
    runOf (fun _ => .replay) s, rfl, runOf_isRun (fun _ => hreplay) h hf, fun n _ => ⟨n, le_rfl, rfl⟩⟩

end Sys2Proof.Machine
end

section
/-! A replay finishes in every fair run (O59, R156, R204): the other agents' moves leave it as it is, so fairness gives it
a turn, and each turn leaves one byte fewer. -/

namespace Sys2Proof.Machine

/-! ### One step of a run while a call replays -/

/-- A replay turn under the invariant offers the next byte, and goes on or ends the call (R140, R141). -/
theorem applyMove_replay_turn {s : State} {i : Nat} (h : s.Inv) (hp : s.phase = .replay i) :
    ∃ q : Queue Byte,
      (i + 1 ≠ s.scur → applyMove .replay s = .next { s with pq := q, phase := .replay (i + 1) }) ∧
      (i + 1 = s.scur →
        applyMove .replay s = .next { s with pq := q, state := .preambleWait, pending := false, phase := .idle }) := by
  obtain ⟨b, hcell, _⟩ := next_captured h hp
  obtain ⟨q, hq, _⟩ := items_offer b h.passthrough
  have hlt := (h.replay i hp).inside
  have hturn : applyMove .replay s = exec .replay s := if_pos (replayEnabled_iff.mpr ⟨i, hp, hlt⟩)
  rw [hturn]
  exact ⟨q, replayOffersOneByte s i b q hp hlt hcell hq⟩

/-- The call replays from `i`, in the framing state and with the captured bytes of `s`. -/
structure ReplaysFrom (s : State) (i : Nat) (t : State) : Prop where
  phase : t.phase = .replay i
  scur : t.scur = s.scur
  state : t.state = s.state

/-- A replay turn in a run: the call goes on with the next byte, or is at its end. -/
theorem stepBy_replay_turn {s t : State} {i : Nat} (h : s.Inv) (hp : s.phase = .replay i) (hst : StepBy .replay s t) :
    ReplaysFrom s (i + 1) t ∨ t.phase = .idle ∧ t.state = .preambleWait ∧ t.pending = false := by
  obtain ⟨l, k, ht⟩ := applyMove_of_stepBy hst
  obtain ⟨q, hmore, hlast⟩ := applyMove_replay_turn (withSched_inv l k h) hp
  by_cases hi : i + 1 = s.scur
  · cases (hlast hi).symm.trans ht
    exact .inr ⟨rfl, rfl, rfl⟩
  · cases (hmore hi).symm.trans ht
    exact .inl ⟨rfl, rfl, rfl⟩

/-- Another agent's move in a run leaves the replay as it is (R156). -/
theorem stepBy_other_turn {m : Move} {s t u : State} {i : Nat} (hm : m ≠ .replay) (hs : ReplaysFrom u i s)
    (hst : StepBy m s t) : ReplaysFrom u i t := by
  obtain ⟨l, k, ht⟩ := applyMove_of_stepBy hst
  have hp : ({ s with sched := l, ticks := k } : State).phase ≠ .idle := by simp [hs.phase]
  obtain ⟨⟨hstate, _, _, hscur, _, _, _, _, _, _, _, hphase⟩, _⟩ := applyMove_frame_of_replay hp hm ht
  exact ⟨hphase.trans hs.phase, hscur.trans hs.scur, hstate.trans hs.state⟩

/-! ### The next replay turn -/

/-- Until the next replay turn the replay stays as it is. -/
theorem replaysFrom_of_no_turn {moves : Nat → Move} {r : Nat → State} (hrun : IsRun moves r) {n i : Nat}
    (hp : (r n).phase = .replay i) {k : Nat} (hk : n ≤ k) (hm : ∀ j, n ≤ j → j < k → moves j ≠ .replay) :
    ReplaysFrom (r n) i (r k) := by
  induction k, hk using Nat.le_induction with
  | base => exact ⟨hp, rfl, rfl⟩
  | succ k hk ih =>
    exact stepBy_other_turn (hm k hk k.lt_succ_self) (ih fun j hj hjk => hm j hj (hjk.trans k.lt_succ_self)) (hrun k)

/-- A call that replays gets a turn: without one it would stay enabled for ever, against fairness (R204). -/
theorem exists_replay_turn {moves : Nat → Move} {r : Nat → State} (hfair : FairRun moves r) (h : (r 0).Inv) {n i : Nat}
    (hp : (r n).phase = .replay i) : ∃ k, n ≤ k ∧ moves k = .replay := by
  obtain ⟨hrun, hreplay⟩ := hfair
  by_contra hnone
  refine hnone (hreplay n fun k hk => ?_)
  have hk := replaysFrom_of_no_turn hrun hp hk fun j hj _ hmj => hnone ⟨j, hj, hmj⟩
  exact replayEnabled_iff.mpr ⟨i, hk.phase, ((isRun_inv hrun h k).replay i hk.phase).inside⟩

/-- The first of the turns to come finds the replay as it is, and so do the moves before it. -/
theorem exists_first_replay_turn {moves : Nat → Move} {r : Nat → State} (hfair : FairRun moves r) (h : (r 0).Inv)
    {n i : Nat} (hp : (r n).phase = .replay i) :
    ∃ k, n ≤ k ∧ moves k = .replay ∧ ∀ j, n ≤ j → j ≤ k → ReplaysFrom (r n) i (r j) := by
  have hturn := exists_replay_turn hfair h hp
  obtain ⟨hle, hmove⟩ := Nat.find_spec hturn
  refine ⟨Nat.find hturn, hle, hmove, fun j hj hjk => replaysFrom_of_no_turn hfair.1 hp hj fun a ha haj hma => ?_⟩
  exact Nat.find_min hturn (haj.trans_le hjk) ⟨ha, hma⟩

/-! ### The end of the replay -/

/-- From `n` on the call goes on in the framing state of `r n`, up to `k`. -/
def GoesOn (r : Nat → State) (n k : Nat) : Prop :=
  ∀ j, n ≤ j → j < k → (r j).phase ≠ .idle ∧ (r j).state = (r n).state

/-- The call that replays at `n` is at its end at some later `k`, and goes on until then. -/
def Finishes (r : Nat → State) (n : Nat) : Prop :=
  ∃ k, n < k ∧ (r k).phase = .idle ∧ (r k).state = .preambleWait ∧ (r k).pending = false ∧ GoesOn r n k

theorem ReplaysFrom.goesOn {s t : State} {i : Nat} (h : ReplaysFrom s i t) : t.phase ≠ .idle ∧ t.state = s.state :=
  ⟨by simp [h.phase], h.state⟩

/-- Induction on the bytes left: the next turn ends the call, or leaves one byte fewer. -/
theorem replay_finishes {moves : Nat → Move} {r : Nat → State} (hfair : FairRun moves r) (h : (r 0).Inv) (left n i : Nat)
    (hp : (r n).phase = .replay i) (hleft : (r n).scur = i + left) : Finishes r n := by
  induction left generalizing n i with
  | zero => exact absurd ((isRun_inv hfair.1 h n).replay i hp).inside (by omega)
  | succ left ih =>
    obtain ⟨k, hnk, hmove, hwait⟩ := exists_first_replay_turn hfair h hp
    have hk := hwait k hnk le_rfl
    rcases stepBy_replay_turn (isRun_inv hfair.1 h k) hk.phase (hmove ▸ hfair.1 k) with hmore | ⟨hidle, hstate, hpending⟩
    · obtain ⟨e, hke, hidle, hstate, hpending, hon⟩ :=
        ih (k + 1) (i + 1) hmore.phase (by rw [hmore.scur, hk.scur, hleft]; omega)
      refine ⟨e, by omega, hidle, hstate, hpending, fun j hj hje => ?_⟩
      rcases Nat.lt_or_ge k j with hkj | hjk
      · obtain ⟨hphase, hsame⟩ := hon j hkj hje
        exact ⟨hphase, hsame.trans (hmore.state.trans hk.state)⟩
      · exact (hwait j hj hjk).goesOn
    · exact ⟨k + 1, by omega, hidle, hstate, hpending, fun j hj hjk => (hwait j hj (Nat.lt_succ_iff.mp hjk)).goesOn⟩

/-- Settles O59, by induction on the bytes that are left to offer. -/
theorem fairRunsFinishEveryReplay : Obligations.FairRunsFinishEveryReplay := by
  unfold Obligations.FairRunsFinishEveryReplay
  intro moves r hfair h n i hp
  have hlt := ((isRun_inv hfair.1 h n).replay i hp).inside
  exact replay_finishes hfair h ((r n).scur - i) n i hp (by omega)

end Sys2Proof.Machine
end
